-- ==== Sys2Proof/Word.lean ====
section
/-! DEFINITION. The word types of the block. Widths: a byte is 8 bits (00_scope.md R9), `ARG_WIDTH` = 32 and
`TIMER_WIDTH` = 16 (00_scope.md R5), an operation word is 40 bits (30_encoding.md R105). -/

namespace Sys2Proof

/-- A byte of a string, a line or the response buffer (R9). -/
abbrev Byte := BitVec 8

/-- The 32-bit operand of an operation, and every 32-bit register (R105, R20). -/
abbrev Arg := BitVec 32

/-- A 40-bit operation word: `unit`, `fn`, `arg` (R105). -/
abbrev OpWord := BitVec 40

/-- A timer register, `TIMER_WIDTH` = 16 bits (R5, R30). -/
abbrev Half := BitVec 16

end Sys2Proof
end

