-- ==== Sys2Proof/Syntax.lean ====
section
/-! DEFINITION. The instructions: one constructor for each of the 15 rows of spec/opcode_table.json, the eleven
operations of 30_encoding.md R106 and the four wire messages of R102. -/

namespace Sys2Proof

/-- One operation of the host port (R106) or one message of the wire (R102). -/
inductive Instr where
  /-- `NOP`, code 0x00; the operand is not read (R284, R109) -/
  | nop
  /-- `PWM.CFG MOTOR, f`, code 0x10; `f` the target frequency in Hz, unsigned (R144) -/
  | pwmCfgMotor (f : Arg)
  /-- `PWM.CFG SERVO, f`, code 0x11 (R144) -/
  | pwmCfgServo (f : Arg)
  /-- `PWM.DUTY MOTOR, p`, code 0x12; `p` percent, signed (R148) -/
  | pwmDutyMotor (p : Arg)
  /-- `PWM.DUTY SERVO, p`, code 0x13 (R148) -/
  | pwmDutyServo (p : Arg)
  /-- `PWM.ANGLE SERVO, a`, code 0x15; `a` degrees, signed (R152) -/
  | pwmAngleServo (a : Arg)
  /-- `SER.SEND s`, code 0x20; `s = arg[0]`, `arg[31:1]` must be 0 (R210) -/
  | serSend (arg : Arg)
  /-- `SER.RECV`, code 0x21 (R214) -/
  | serRecv
  /-- `BTN.POLL`, code 0x30 (R180) -/
  | btnPoll
  /-- `CTL.PRESS`, code 0x40 (R250) -/
  | ctlPress
  /-- `DLY.MS n`, code 0x50; `n` milliseconds, unsigned (R190) -/
  | dlyMs (n : Arg)
  /-- the outbound line `M LED ON\n` (R102) -/
  | requestOn
  /-- the outbound line `M LED OFF\n` (R102) -/
  | requestOff
  /-- the inbound line `S LED ON` and its terminator (R102) -/
  | confirmOn (terminator : Byte)
  /-- the inbound line `S LED OFF` and its terminator (R102) -/
  | confirmOff (terminator : Byte)
deriving DecidableEq, Repr

end Sys2Proof
end

