-- ==== Sys2Proof/WellFormed.lean ====
section
/-! DEFINITION. Which terms of `Instr` an encoding can spell: `SER.SEND` needs `arg[31:1] = 0` (30_encoding.md R107,
R108), an inbound line ends in 0x0A or 0x0D (R100, R102). Every other field is legal at every value. -/

namespace Sys2Proof

/-- R100: the line terminators are 0x0A and 0x0D. -/
abbrev Byte.isLineEnd (b : Byte) : Prop := b = 0x0A#8 ∨ b = 0x0D#8

/-- R107, R108: the select of `SER.SEND` is `arg[0]`, all other bits are 0. -/
abbrev Arg.isSendSelect (a : Arg) : Prop := a.extractLsb' 1 31 = 0#31

/-- The fields of an instruction are in the range its encoding has. -/
def Instr.wf : Instr → Bool
  | .nop => true
  | .pwmCfgMotor _ => true
  | .pwmCfgServo _ => true
  | .pwmDutyMotor _ => true
  | .pwmDutyServo _ => true
  | .pwmAngleServo _ => true
  | .serSend arg => decide (Arg.isSendSelect arg)
  | .serRecv => true
  | .btnPoll => true
  | .ctlPress => true
  | .dlyMs _ => true
  | .requestOn => true
  | .requestOff => true
  | .confirmOn t => decide (Byte.isLineEnd t)
  | .confirmOff t => decide (Byte.isLineEnd t)

end Sys2Proof
end

