-- ==== Sys2Proof/Decode.lean ====
section
/-! DEFINITION. The two encodings of 30_encoding.md: the 40-bit operation word (R105 to R109) and the wire line
(R100 to R102). The decoder is total and rejects by name; the encoder is written from the same tables. -/

namespace Sys2Proof

/-- What an instruction is encoded as: an operation word of the host port, or the bytes of a line, first byte on the
wire first. -/
inductive Code where
  | opWord (w : OpWord)
  | line (bytes : List Byte)
deriving DecidableEq, Repr

/-- Why a word or a line is no instruction. -/
inductive DecodeError where
  /-- R108: the code is not in the opcode map (0x14 and every reserved code among them) -/
  | unknownCode (code : Byte)
  /-- R108: `SER.SEND` with `arg[31:1]` not 0 -/
  | reservedSelect (arg : Arg)
  /-- R101: a line that is none of the four messages; legal on the wire, it matches nothing -/
  | unknownLine
deriving DecidableEq, Repr

/-! ## The operation word -/

/-- R105: `{code, arg}`. -/
def opWordOf (code : Byte) (arg : Arg) : OpWord := code ++ arg

/-- R105: `code = word[39:32] = {unit, fn}`. -/
def opCode (w : OpWord) : Byte := w.extractLsb' 32 8

/-- R105: `unit = word[39:36]`. -/
def opUnit (w : OpWord) : BitVec 4 := w.extractLsb' 36 4

/-- R105: `fn = word[35:32]`. -/
def opFn (w : OpWord) : BitVec 4 := w.extractLsb' 32 4

/-- R105: `arg = word[31:0]`. -/
def opArg (w : OpWord) : Arg := w.extractLsb' 0 32

/-- R106: the eleven codes of the opcode map. -/
def codeNop : Byte := 0x00
def codePwmCfgMotor : Byte := 0x10
def codePwmCfgServo : Byte := 0x11
def codePwmDutyMotor : Byte := 0x12
def codePwmDutyServo : Byte := 0x13
def codePwmAngleServo : Byte := 0x15
def codeSerSend : Byte := 0x20
def codeSerRecv : Byte := 0x21
def codeBtnPoll : Byte := 0x30
def codeCtlPress : Byte := 0x40
def codeDlyMs : Byte := 0x50

/-- R106 to R109: the operation a word stands for. The operand of an operation that has none is not read. -/
def decodeOp (w : OpWord) : Except DecodeError Instr :=
  let c := opCode w
  let a := opArg w
  if c = codeNop then .ok .nop
  else if c = codePwmCfgMotor then .ok (.pwmCfgMotor a)
  else if c = codePwmCfgServo then .ok (.pwmCfgServo a)
  else if c = codePwmDutyMotor then .ok (.pwmDutyMotor a)
  else if c = codePwmDutyServo then .ok (.pwmDutyServo a)
  else if c = codePwmAngleServo then .ok (.pwmAngleServo a)
  else if c = codeSerSend then
    if Arg.isSendSelect a then .ok (.serSend a) else .error (.reservedSelect a)
  else if c = codeSerRecv then .ok .serRecv
  else if c = codeBtnPoll then .ok .btnPoll
  else if c = codeCtlPress then .ok .ctlPress
  else if c = codeDlyMs then .ok (.dlyMs a)
  else .error (.unknownCode c)

/-! ## The wire line -/

/-- R102: `M LED ON\n`, 9 bytes. -/
def requestOnLine : List Byte := [0x4D, 0x20, 0x4C, 0x45, 0x44, 0x20, 0x4F, 0x4E, 0x0A]

/-- R102: `M LED OFF\n`, 10 bytes. -/
def requestOffLine : List Byte := [0x4D, 0x20, 0x4C, 0x45, 0x44, 0x20, 0x4F, 0x46, 0x46, 0x0A]

/-- R102: `S LED ON`, before the terminator. -/
def confirmOnPayload : List Byte := [0x53, 0x20, 0x4C, 0x45, 0x44, 0x20, 0x4F, 0x4E]

/-- R102: `S LED OFF`, before the terminator. -/
def confirmOffPayload : List Byte := [0x53, 0x20, 0x4C, 0x45, 0x44, 0x20, 0x4F, 0x46, 0x46]

/-- R102: `S LED ON` and its terminator. -/
def confirmOnLine (t : Byte) : List Byte := confirmOnPayload ++ [t]

/-- R102: `S LED OFF` and its terminator. -/
def confirmOffLine (t : Byte) : List Byte := confirmOffPayload ++ [t]

/-- R101, R102: the message a line is, if it is one of the four; an inbound line may end in either terminator. -/
def decodeLine (bytes : List Byte) : Except DecodeError Instr :=
  if bytes = requestOnLine then .ok .requestOn
  else if bytes = requestOffLine then .ok .requestOff
  else if bytes = confirmOnLine 0x0A then .ok (.confirmOn 0x0A)
  else if bytes = confirmOnLine 0x0D then .ok (.confirmOn 0x0D)
  else if bytes = confirmOffLine 0x0A then .ok (.confirmOff 0x0A)
  else if bytes = confirmOffLine 0x0D then .ok (.confirmOff 0x0D)
  else .error .unknownLine

/-- The decoder: total, rejecting by name. -/
def decode : Code → Except DecodeError Instr
  | .opWord w => decodeOp w
  | .line bytes => decodeLine bytes

/-- The encoder: R106's word with the unread operand bits 0 (R109: "Assemblers write 0"), R102's line. -/
def encode : Instr → Code
  | .nop => .opWord (opWordOf codeNop 0)
  | .pwmCfgMotor f => .opWord (opWordOf codePwmCfgMotor f)
  | .pwmCfgServo f => .opWord (opWordOf codePwmCfgServo f)
  | .pwmDutyMotor p => .opWord (opWordOf codePwmDutyMotor p)
  | .pwmDutyServo p => .opWord (opWordOf codePwmDutyServo p)
  | .pwmAngleServo a => .opWord (opWordOf codePwmAngleServo a)
  | .serSend arg => .opWord (opWordOf codeSerSend arg)
  | .serRecv => .opWord (opWordOf codeSerRecv 0)
  | .btnPoll => .opWord (opWordOf codeBtnPoll 0)
  | .ctlPress => .opWord (opWordOf codeCtlPress 0)
  | .dlyMs n => .opWord (opWordOf codeDlyMs n)
  | .requestOn => .line requestOnLine
  | .requestOff => .line requestOffLine
  | .confirmOn t => .line (confirmOnLine t)
  | .confirmOff t => .line (confirmOffLine t)

/-! ## The opcode table's numbering -/

/-- The bytes of a table number of `n` bytes, first byte the most significant (R102: "the line read as one number,
first byte in the most significant position"). -/
def bytesOfNumber (n w : Nat) : List Byte :=
  (List.range n).map fun k => BitVec.ofNat 8 (w >>> (8 * (n - 1 - k)))

/-- The number the table gives a line. -/
def numberOfBytes (bytes : List Byte) : Nat := bytes.foldl (fun acc b => acc * 256 + b.toNat) 0

/-- The word or line a table number of `nbits` bits stands for: an operation word up to 40 bits, a line above. -/
def codeOfNumber (nbits w : Nat) : Code :=
  if nbits ≤ 40 then .opWord (BitVec.ofNat 40 (w % 2 ^ nbits)) else .line (bytesOfNumber (nbits / 8) w)

/-- The table's number of a code. -/
def numberOfCode : Code → Nat
  | .opWord w => w.toNat
  | .line bytes => numberOfBytes bytes

/-- How many bits the table gives a code. -/
def bitsOfCode : Code → Nat
  | .opWord _ => 40
  | .line bytes => 8 * bytes.length

/-- The instruction the decoder reads from a word numbered as spec/opcode_table.json numbers it. -/
def decodeTableWord (nbits w : Nat) : Option Instr := (decode (codeOfNumber nbits w)).toOption

/-- One row of spec/opcode_table.json. -/
structure TableRow where
  mnemonic : String
  widthBits : Nat
  pattern : Nat
  mask : Nat
deriving DecidableEq, Repr

/-- The row of spec/opcode_table.json for an instruction (`match` and `mask`, copied digit for digit). -/
def tableRow : Instr → TableRow
  | .nop => ⟨"NOP", 40, 0x0000000000, 0xFF00000000⟩
  | .pwmCfgMotor _ => ⟨"PWM.CFG_MOTOR", 40, 0x1000000000, 0xFF00000000⟩
  | .pwmCfgServo _ => ⟨"PWM.CFG_SERVO", 40, 0x1100000000, 0xFF00000000⟩
  | .pwmDutyMotor _ => ⟨"PWM.DUTY_MOTOR", 40, 0x1200000000, 0xFF00000000⟩
  | .pwmDutyServo _ => ⟨"PWM.DUTY_SERVO", 40, 0x1300000000, 0xFF00000000⟩
  | .pwmAngleServo _ => ⟨"PWM.ANGLE_SERVO", 40, 0x1500000000, 0xFF00000000⟩
  | .serSend _ => ⟨"SER.SEND", 40, 0x2000000000, 0xFFFFFFFFFE⟩
  | .serRecv => ⟨"SER.RECV", 40, 0x2100000000, 0xFF00000000⟩
  | .btnPoll => ⟨"BTN.POLL", 40, 0x3000000000, 0xFF00000000⟩
  | .ctlPress => ⟨"CTL.PRESS", 40, 0x4000000000, 0xFF00000000⟩
  | .dlyMs _ => ⟨"DLY.MS", 40, 0x5000000000, 0xFF00000000⟩
  | .requestOn => ⟨"REQUEST_ON", 72, 0x4D204C4544204F4E0A, 0xFFFFFFFFFFFFFFFFFF⟩
  | .requestOff => ⟨"REQUEST_OFF", 80, 0x4D204C4544204F46460A, 0xFFFFFFFFFFFFFFFFFFFF⟩
  | .confirmOn _ => ⟨"CONFIRM_ON", 72, 0x53204C4544204F4E0A, 0xFFFFFFFFFFFFFFFF00⟩
  | .confirmOff _ => ⟨"CONFIRM_OFF", 80, 0x53204C4544204F46460A, 0xFFFFFFFFFFFFFFFFFF00⟩

end Sys2Proof
end

