-- ==== Sys2Proof/Machine/Rom.lean ====
section
/-! DEFINITION. The string ROM of 20_memory.md R71, R72: four zero-terminated strings that nothing writes. -/

namespace Sys2Proof.Machine

/-- R72: `CMD[1]` is `REQUEST_ON`, `CMD[0]` is `REQUEST_OFF`, each with its 0x00. -/
def cmdRom : Bool → List Byte
  | true => [0x4D, 0x20, 0x4C, 0x45, 0x44, 0x20, 0x4F, 0x4E, 0x0A, 0x00]
  | false => [0x4D, 0x20, 0x4C, 0x45, 0x44, 0x20, 0x4F, 0x46, 0x46, 0x0A, 0x00]

/-- R72: `CONF[1]` is `CONFIRM_ON`, `CONF[0]` is `CONFIRM_OFF`, each with its 0x00. -/
def confRom : Bool → List Byte
  | true => [0x53, 0x20, 0x4C, 0x45, 0x44, 0x20, 0x4F, 0x4E, 0x00]
  | false => [0x53, 0x20, 0x4C, 0x45, 0x44, 0x20, 0x4F, 0x46, 0x46, 0x00]

/-- R72: `MemRead(ROM, (CMD[s], i), 1)`; `none` past the 0x00. -/
def cmdByte (s : Bool) (i : Nat) : Option Byte := (cmdRom s)[i]?

/-- R74: the bytes before the first 0x00. -/
def strOf (buf : List Byte) : List Byte := buf.takeWhile fun b => b != 0x00#8

/-- R26, R72: the index of the 0x00 of `CMD[s]`, which is the number of bytes a send puts on the wire. -/
def cmdLength (s : Bool) : Nat := (strOf (cmdRom s)).length

end Sys2Proof.Machine
end

