-- ==== Sys2Proof/Config.lean ====
section
/-! DEFINITION. What is fixed for one built block (the parameters of 00_scope.md R5) and the moves of the agents
around it (the events of R8). The parameters are one plain structure: a state carries it, no step writes it
(assumption log 1), so a claim about every state is a claim about every choice of the open parameters. -/

namespace Sys2Proof

/-- The two PWM channels: MOTOR = 0, SERVO = 1 (40_pwm.md, R30). -/
inductive Ch where
  | motor
  | servo
deriving DecidableEq, Repr, Inhabited

/-- `RX_OVERFLOW_POLICY` (R5): what the receiver does with a line of `RX_CAP` or more payload bytes. -/
inductive OverflowPolicy where
  /-- the decided policy: cap the line and flag it (R218, R220) -/
  | capAndFlag
  /-- the alternative: the first out-of-range write is a sticky fault (R224) -/
  | legacyFault
deriving DecidableEq, Repr, Inhabited

/-- `BTN_PULL` (R5, R184): the pull of the button line. Descriptive only: no rule reads it. -/
inductive Pull where
  | none
  | up
deriving DecidableEq, Repr, Inhabited

/-- `TICK_RATE_HZ[SERVO]`: one of the two rates the source allows (R5, R141). -/
inductive ServoTick where
  | khz1
  | mhz1
deriving DecidableEq, Repr, Inhabited

/-- The implementation parameters of R5. A level is `true` for 1. `TICK_RATE_HZ[MOTOR]`, `TIMER_WIDTH` and
`ARG_WIDTH` have one value and are no field; the four strings are the ROM's. -/
structure Params where
  /-- `RX_CAP`: cells of the response buffer, the one of the null terminator included -/
  rxCap : Nat
  /-- `RX_OVERFLOW_POLICY` -/
  overflowPolicy : OverflowPolicy
  /-- `RX_TIMEOUT_MS`; `none` is NONE, the source's behaviour -/
  rxTimeoutMs : Option Arg
  /-- `BTN_ACTIVE_LEVEL` -/
  btnActiveLevel : Bool
  /-- `BTN_PULL` -/
  btnPull : Pull
  /-- `LED_ACTIVE_LEVEL` -/
  ledActiveLevel : Bool
  /-- `SETTLE_MS` -/
  settleMs : Arg
  /-- `TIMER_CLOCK_HZ[MOTOR]` -/
  timerClockMotor : Nat
  /-- `TIMER_CLOCK_HZ[SERVO]` -/
  timerClockServo : Nat
  /-- `TICK_RATE_HZ[SERVO]` -/
  servoTick : ServoTick
  /-- `MIN_PULSE`, in counter ticks -/
  minPulse : Half
  /-- `MAX_PULSE`, in counter ticks -/
  maxPulse : Half
  /-- `HAS_MOE[MOTOR]` -/
  hasMoeMotor : Bool
  /-- `HAS_MOE[SERVO]` -/
  hasMoeServo : Bool
  /-- `PWM_ACTIVE_LEVEL[MOTOR]` -/
  pwmActiveMotor : Bool
  /-- `PWM_ACTIVE_LEVEL[SERVO]` -/
  pwmActiveServo : Bool
deriving DecidableEq, Repr

/-- The constraints R5 puts on the parameters: `RX_CAP >= 2`, `SETTLE_MS >= 1`, a timeout is a positive count,
`MIN_PULSE <= MAX_PULSE`. That `RX_CAP` fits the 32-bit `op_result` is DEDUCED (assumption log 13). -/
abbrev Params.InRange (p : Params) : Prop :=
  2 ≤ p.rxCap ∧ p.rxCap ≤ 2 ^ 32 ∧ p.settleMs ≠ 0 ∧ p.rxTimeoutMs ≠ some 0 ∧ p.minPulse.toNat ≤ p.maxPulse.toNat

/-- The parameters at the head of 95_test_vectors.md. The spec leaves most of them open: that `State.reset` has these
is a DESIGN CHOICE (assumption log 2). -/
def Config.vectorParams : Params where
  rxCap := 20
  overflowPolicy := .capAndFlag
  rxTimeoutMs := none
  btnActiveLevel := false
  btnPull := .none
  ledActiveLevel := true
  settleMs := 50
  timerClockMotor := 16000000
  timerClockServo := 16000000
  servoTick := .mhz1
  minPulse := 1000
  maxPulse := 2000
  hasMoeMotor := false
  hasMoeServo := false
  pwmActiveMotor := true
  pwmActiveServo := true

/-- The events of R8, each one atomic move of one agent (R312), and the moves of the peer and the host that R84, R112
and R326 describe. An event whose guard is false does not happen: the step changes nothing (assumption log 6). -/
inductive Event where
  /-- the host presents an operation word (R8, R280) -/
  | host (word : OpWord)
  /-- the host presents a word only if `op_result = 1`: the host's half of `BTN.SERVE` (R112, assumption log 17) -/
  | hostIfPressed (word : OpWord)
  /-- a whole line passes on the wire, one of R102's messages or any other (assumption log 8) -/
  | line (bytes : List Byte)
  /-- the sequencer takes one micro-step (R8) -/
  | seq
  /-- the millisecond time base ticks (R8, R192) -/
  | tick1ms
  /-- one input clock of a channel's timer (R8, R158) -/
  | timTick (ch : Ch)
  /-- a byte of the peer arrives (R8, R76) -/
  | peerByte (b : Byte)
  /-- the peer removes the head of `tx_stream` (R78, R84, assumption log 15) -/
  | peerTake
  /-- the reference peer of R326, not normative, reads a line and answers (assumption log 16) -/
  | refPeer
  /-- the transmit-ready condition becomes `v` (R8, R78) -/
  | txReady (v : Bool)
  /-- the button line becomes `v` (R8, R50) -/
  | btn (v : Bool)
  /-- the reset input is asserted (R8, R340) -/
  | reset
deriving DecidableEq, Repr, Inhabited

/-- The environment's move number `n` when a state's schedule names none: a FREE VALUE. 93_implementation_defined.md
K12: "every interleaving is possible; claims hold for all of them" (assumption log 5). -/
opaque Config.freeEvent : Nat → Event

end Sys2Proof
end

