-- ==== Sys2Proof/Machine/State.lean ====
section
/-! DEFINITION. The state of the block: every element of 10_state.md R20, the lines and streams the environment owns
(R50, R51), the parameters (R5, R6), and the model's own schedule of events and completion pulse. Plain data. -/

namespace Sys2Proof.Machine

/-- R21: `seq`, which blocking wait the sequencer is in. -/
inductive SeqState where
  | idle
  | tx
  | rx
  | rxDrain
  | dbPressed
  | dbReleased
  | dly
deriving DecidableEq, Repr, Inhabited

/-- R300, and K14 of 93_implementation_defined.md: "a model's status type has exactly five values". -/
inductive Status where
  | ok
  | illegalOp
  | lineTooLong
  | rxTimeout
  | badArg
deriving DecidableEq, Repr, Inhabited

/-- R300: the 4-bit code of a status. -/
def Status.code : Status → BitVec 4
  | .ok => 0
  | .illegalOp => 1
  | .lineTooLong => 2
  | .rxTimeout => 3
  | .badArg => 4

/-- R34: which setter wrote `ccr_pre` last (0 = DUTY, 1 = ANGLE). -/
inductive SetKind where
  | duty
  | angle
deriving DecidableEq, Repr, Inhabited

/-- The response buffer `RXBUF` (R27, R70): index and byte, indexes strictly rising, no entry 0x00. A cell that is not
listed holds 0x00, its reset value (R20). -/
abbrev Memory := List Host.Cell

/-- The canonical form of a memory: equal buffers are equal lists. -/
abbrev Memory.wf (m : Memory) : Prop :=
  m.Pairwise (fun c d => c.1 < d.1) ∧ ∀ c ∈ m, c.2 ≠ 0#8

/-- The registers of one PWM channel (R30 to R34). `angle_cur` is the servo's alone and stands in `State`. -/
structure Channel where
  psc : Half
  arr : Half
  ccrPre : Half
  ccrAct : Half
  cnt : Half
  pcnt : Half
  en : Bool
  ope : Bool
  moe : Bool
  fTarget : Arg
  dutyCur : BitVec 7
  setKind : SetKind
deriving DecidableEq, Repr

/-- R20, R340: a channel after reset. -/
def Channel.reset : Channel where
  psc := 0
  arr := 0
  ccrPre := 0
  ccrAct := 0
  cnt := 0
  pcnt := 0
  en := false
  ope := false
  moe := false
  fTarget := 0
  dutyCur := 0
  setKind := .duty

/-- The whole machine. -/
structure State where
  /-- the parameters of R5; no step writes them (assumption log 1) -/
  cfg : Params
  /-- R21 -/
  seq : SeqState
  /-- R23 -/
  curOp : Byte
  /-- R24 -/
  fault : Bool
  /-- R25 -/
  opStatus : Status
  /-- R25 -/
  opResult : Arg
  /-- R26: the command string being sent, `true` for `REQUEST_ON` -/
  txSel : Bool
  /-- R26 -/
  txPtr : BitVec 4
  /-- R27 -/
  rxBuf : Memory
  /-- R28 -/
  rxIdx : Nat
  /-- R29 -/
  rxOvf : Bool
  /-- R29 -/
  rxTmoCnt : Arg
  /-- R40: the expected confirmation, `true` for `CONFIRM_ON` -/
  expSel : Bool
  /-- R41: the LED state, `true` for ON -/
  led : Bool
  /-- R42 -/
  dlyCnt : Arg
  /-- R30 to R34, channel MOTOR -/
  motor : Channel
  /-- R30 to R34, channel SERVO -/
  servo : Channel
  /-- R34 -/
  angleCur : BitVec 8
  /-- R51: the peer's bytes not yet consumed, oldest first; the environment's -/
  rxStream : List Byte
  /-- R51: the bytes handed to the transmitter, oldest first; the environment's -/
  txStream : List Byte
  /-- R51, R78: the transmit-ready condition; the environment's -/
  txReady : Bool
  /-- R50: the level of the button line; the environment's -/
  btnIn : Bool
  /-- the model's own: the events still to happen, first first (assumption log 4) -/
  schedule : List Event
  /-- the model's own: how many events the environment has chosen freely (assumption log 5) -/
  eventNo : Nat
  /-- the model's own: the last event emitted `op_done` (R282; assumption log 7) -/
  opDone : Bool
deriving DecidableEq, Repr

/-- Why a step stops. Neither is reached from a state with the invariant of Safety.lean. The spec's own sticky fault
(R306) is no stop: it is the field `fault` of a next state. -/
inductive Fault where
  /-- a write to `RXBUF` at an index of `RX_CAP` or more, a cell that does not exist (R70, R75); raised by `memWrite`;
  safe -/
  | rxbufIndex (index : Nat)
  /-- a read of a command string past its 0x00, which "never happens" (R72); raised by the `TX` micro-step; safe -/
  | romIndex (index : Nat)
deriving DecidableEq, Repr

/-- Why an instruction has no meaning. -/
inductive Refusal where
  /-- an instruction of the table that the model gives no meaning yet; raised by `exec` alone; safe -/
  | notModelled (mnemonic : String)
deriving DecidableEq, Repr

/-- The outcome of an operation or a step. -/
abbrev Result := Host.Outcome State Fault Refusal

/-- The state right after reset of a block built with the parameters `p`: every element of R20 at the value R340 gives
it. The environment's lines and streams have no reset value (R50, R51): empty streams, transmitter ready and the button
line inactive are a DESIGN CHOICE (assumption log 3). -/
def State.resetWith (p : Params) : State where
  cfg := p
  seq := .idle
  curOp := 0x00
  fault := false
  opStatus := .ok
  opResult := 0
  txSel := false
  txPtr := 0
  rxBuf := []
  rxIdx := 0
  rxOvf := false
  rxTmoCnt := 0
  expSel := false
  led := false
  dlyCnt := 0
  motor := Channel.reset
  servo := Channel.reset
  angleCur := 0
  rxStream := []
  txStream := []
  txReady := true
  btnIn := !p.btnActiveLevel
  schedule := []
  eventNo := 0
  opDone := false

/-- The state right after reset, with the parameters of 95_test_vectors.md (assumption log 2). -/
def State.reset : State := State.resetWith Config.vectorParams

end Sys2Proof.Machine
end

