-- ==== Sys2Proof/Machine/Ops.lean ====
section
/-! DEFINITION. The shared operations: the response buffer's one read and one write (20_memory.md R70, R75), the
streams (R76 to R78), the channels' one accessor, completion (44_system_ops.md R282) and taking an exception
(60_exceptions.md R302, R303, R306, R314). There is no return from an exception: "There is no return instruction and
nothing to restore" (R316). -/

namespace Sys2Proof.Machine

/-- Go on with `k` where an operation answers a next state; a stop stays a stop. -/
def andThen (r : Result) (k : State → Result) : Result :=
  match r with
  | .next s => k s
  | .fault f => .fault f
  | .refused f => .refused f

/-! ## The response buffer -/

/-- The byte of cell `a`; a cell that is not listed holds 0x00 (R20, R27). -/
def Memory.read : Memory → Nat → Byte
  | [], _ => 0x00
  | (k, v) :: rest, a => if k = a then v else Memory.read rest a

/-- Cell `a` holds `b` afterwards; the form stays canonical. -/
def Memory.write : Memory → Nat → Byte → Memory
  | [], a, b => if b = 0x00 then [] else [(a, b)]
  | (k, v) :: rest, a, b =>
    if a < k then (if b = 0x00 then (k, v) :: rest else (a, b) :: (k, v) :: rest)
    else if a = k then (if b = 0x00 then rest else (k, b) :: rest)
    else (k, v) :: Memory.write rest a b

/-- The cells 0 to `n - 1` hold 0x00 afterwards: what writing 0x00 to each of them leaves (R216). -/
def Memory.clear (m : Memory) (n : Nat) : Memory := m.filter fun c => n ≤ c.1

/-- R70, R75: `MemRead(RXBUF, i, 1)`. It has no side effect (R80). -/
def memRead (s : State) (i : Nat) : Byte := s.rxBuf.read i

/-- R70, R75: `MemWrite(RXBUF, i, 1, b)`. `RXBUF` has the cells 0 to `RX_CAP-1` and no other. -/
def memWrite (s : State) (i : Nat) (b : Byte) : Result :=
  if i < s.cfg.rxCap then .next { s with rxBuf := s.rxBuf.write i b } else .fault (.rxbufIndex i)

/-- The `RX_CAP` cells of the buffer, index 0 first (R104 `resp_buf`). -/
def rxCells (s : State) : List Byte := (List.range s.cfg.rxCap).map (memRead s)

/-- R74: `StrOf(rx_buf)`, the response string of a receive. -/
def response (s : State) : List Byte := strOf (rxCells s)

/-! ## The streams -/

/-- R78: `tx_put(b)`. -/
def txPut (b : Byte) (s : State) : State := { s with txStream := s.txStream ++ [b] }

/-- R76: `PeerByte(b)` for each byte, in order: the bytes join `rx_stream` behind what waits there. -/
def peerBytes (bytes : List Byte) (s : State) : State := { s with rxStream := s.rxStream ++ bytes }

/-! ## The channels -/

/-- The registers of channel `ch`. -/
def State.chan (s : State) : Ch → Channel
  | .motor => s.motor
  | .servo => s.servo

/-- Channel `ch` holds `c`; the other channel is as before ("the two channels share nothing", R140). -/
def State.setChan (s : State) (ch : Ch) (c : Channel) : State :=
  match ch with
  | .motor => { s with motor := c }
  | .servo => { s with servo := c }

/-! ## Completion and exceptions -/

/-- R282: `complete(status, result)`; `opDone` is the emitted `op_done`. -/
def complete (status : Status) (result : Arg) (s : State) : State :=
  { s with opStatus := status, opResult := result, curOp := 0x00, seq := .idle, opDone := true }

/-- The exceptions the pseudocode raises by `raise` (R10). `LineTooLong` and `RxTimeout` end a receive through
`recvEnd` with their status (R304, R305). -/
inductive Exc where
  /-- R302 -/
  | illegalOperation (code : Byte)
  /-- R303 -/
  | badArgument
  /-- R306 -/
  | rxBufferOverrun
deriving DecidableEq, Repr

/-- R10, R314: taking an exception. `IllegalOperation` and `BadArgument` complete with their code and nothing else is
written (R302, R303); `RxBufferOverrun` sets the sticky fault and nothing completes (R306). -/
def raise (e : Exc) (s : State) : State :=
  match e with
  | .illegalOperation code => complete .illegalOp (code.setWidth 32) s
  | .badArgument => complete .badArg 0 s
  | .rxBufferOverrun => { s with fault := true }

end Sys2Proof.Machine
end

