-- ==== Sys2Proof/Machine/Operands.lean ====
section
/-! DEFINITION. How an operation reads its operand (30_encoding.md R107: "no scaling or shifting"), and the parameters
of a channel (40_pwm.md R141). -/

namespace Sys2Proof.Machine

/-- R10, R107: `zext_32(arg)`, 0 to 2^32-1. -/
def zext32 (a : Arg) : Nat := a.toNat

/-- R10, R107: `sext_32(arg)`, -2^31 to 2^31-1. -/
def sext32 (a : Arg) : Int := a.toInt

/-- R10: `clamp(v, lo, hi)`. -/
def clamp (v lo hi : Int) : Int := if v < lo then lo else if v > hi then hi else v

/-- R107: `arg[0]`, the select of `SER.SEND`. -/
def sendSelect (a : Arg) : Bool := a.getLsbD 0

/-- R148: the clamped percent of `PWM.DUTY`, 0 to 100. -/
def dutyPercent (a : Arg) : Nat := (clamp (sext32 a) 0 100).toNat

/-- R152: the clamped angle of `PWM.ANGLE`, 0 to 180. -/
def angleDegrees (a : Arg) : Nat := (clamp (sext32 a) 0 180).toNat

/-- R141: `C = TIMER_CLOCK_HZ[ch]`. -/
def timerClockHz (p : Params) : Ch → Nat
  | .motor => p.timerClockMotor
  | .servo => p.timerClockServo

/-- R141: `T = TICK_RATE_HZ[ch]`: 1,000,000 for MOTOR, 1,000 or 1,000,000 for SERVO. -/
def tickRateHz (p : Params) : Ch → Nat
  | .motor => 1000000
  | .servo => match p.servoTick with
    | .khz1 => 1000
    | .mhz1 => 1000000

/-- R5: `HAS_MOE[ch]`. -/
def hasMoe (p : Params) : Ch → Bool
  | .motor => p.hasMoeMotor
  | .servo => p.hasMoeServo

/-- R5: `PWM_ACTIVE_LEVEL[ch]`. -/
def pwmActiveLevel (p : Params) : Ch → Bool
  | .motor => p.pwmActiveMotor
  | .servo => p.pwmActiveServo

/-- R154: `MAX_PULSE <= T / 50`, so that every pulse fits the source's 50 Hz period. -/
def servoPulseFits (p : Params) : Bool := decide (p.maxPulse.toNat ≤ tickRateHz p .servo / 50)

end Sys2Proof.Machine

namespace Sys2Proof

/-- A well-formed configuration: the ranges of R5 and the check of R154, "a configuration well-formedness condition, not
at run time". No operation reads it; the invariant of Safety.lean needs the ranges alone. -/
abbrev Params.Legal (p : Params) : Prop := p.InRange ∧ Machine.servoPulseFits p = true

end Sys2Proof
end

