-- ==== Sys2Proof/Machine/Flags.lean ====
section
/-! DEFINITION. The conditions the events test and the flags they write. "The block has no arithmetic condition codes.
Its only flags are `fault`, `rx_ovf` and the derived timeout condition" (10_state.md R43). -/

namespace Sys2Proof.Machine

/-- R53, R280: `op_ready`, `seq = IDLE` and `fault = 0`. -/
def opReady (s : State) : Bool := decide (s.seq = .idle) && !s.fault

/-- R77: `rx_ready`, `rx_stream` is not empty. -/
def rxReady (s : State) : Bool := !s.rxStream.isEmpty

/-- R50: the button is pressed when `btn_in = BTN_ACTIVE_LEVEL`. -/
def btnPressed (s : State) : Bool := s.btnIn == s.cfg.btnActiveLevel

/-- R100: a byte that ends a line. -/
def isTerminator (b : Byte) : Bool := b == 0x0A || b == 0x0D

/-- The sequencer is receiving: `seq` is `RX` or `RX_DRAIN`. -/
def receiving (s : State) : Bool := decide (s.seq = .rx) || decide (s.seq = .rxDrain)

/-- R224: the sticky fault exists only under `LEGACY_FAULT`. -/
def legacy (s : State) : Bool := decide (s.cfg.overflowPolicy = .legacyFault)

/-- R192, R226: the receive timeout runs. -/
def timeoutRuns (s : State) : Bool := receiving s && s.cfg.rxTimeoutMs.isSome && !s.fault

/-- R220, R224: `rx_ovf <- 1`. -/
def setOverflow (s : State) : State := { s with rxOvf := true }

end Sys2Proof.Machine
end

