-- ==== Sys2Proof/Machine/Pwm.lean ====
section
/-! DEFINITION. The PWM operations and the counter (40_pwm.md). -/

namespace Sys2Proof.Machine

/-- R142: `CfgLegal(ch, f)`, with `c` the timer clock and `t` the tick rate. -/
def cfgLegal (c t f : Nat) : Bool :=
  decide (1 ≤ f) && decide (1 ≤ t ∧ t ≤ c) && decide (c / t - 1 ≤ 2 ^ 16 - 1) && decide (f ≤ t)
    && decide (t / f - 1 ≤ 2 ^ 16 - 2)

/-- R144: the prescaler `C / T - 1`. -/
def cfgPrescaler (c t : Nat) : Nat := c / t - 1

/-- R144: the period `T / f - 1`. -/
def cfgPeriod (t f : Nat) : Nat := t / f - 1

/-- R148, R150: `((arr + 1) * q) / 100`, multiplied first, in unbounded integers. -/
def dutyCompare (arr q : Nat) : Nat := ((arr + 1) * q) / 100

/-- R152: `MIN_PULSE + ((MAX_PULSE - MIN_PULSE) * g) / 180`, multiplied first. -/
def angleCompare (p : Params) (g : Nat) : Nat :=
  p.minPulse.toNat + ((p.maxPulse.toNat - p.minPulse.toNat) * g) / 180

/-- R144, R145: the channel's registers after an accepted `PWM.CFG`. -/
def Channel.configure (hasMoeBit : Bool) (prescaler period : Nat) (f : Arg) (c : Channel) : Channel :=
  { c with
    psc := BitVec.ofNat 16 prescaler
    arr := BitVec.ofNat 16 period
    ccrPre := BitVec.ofNat 16 (dutyCompare period 50)
    ccrAct := BitVec.ofNat 16 (dutyCompare period 50)
    cnt := 0
    pcnt := 0
    ope := true
    moe := if hasMoeBit then true else c.moe
    en := true
    fTarget := f
    dutyCur := 50
    setKind := .duty }

/-- R144, R168: `PWM.CFG ch, f`. The legality check comes before every write (R312). -/
def pwmCfg (ch : Ch) (f : Arg) (s : State) : State :=
  let c := timerClockHz s.cfg ch
  let t := tickRateHz s.cfg ch
  if cfgLegal c t (zext32 f) then
    let p := cfgPrescaler c t
    let n := cfgPeriod t (zext32 f)
    complete .ok (BitVec.ofNat 16 p ++ BitVec.ofNat 16 n)
      (s.setChan ch ((s.chan ch).configure (hasMoe s.cfg ch) p n f))
  else raise .badArgument s

/-- R148: `PWM.DUTY ch, p`: the preload alone is written, the active compare is not. -/
def pwmDuty (ch : Ch) (p : Arg) (s : State) : State :=
  let q := dutyPercent p
  let v := dutyCompare (s.chan ch).arr.toNat q
  complete .ok (BitVec.ofNat 32 v)
    (s.setChan ch { s.chan ch with ccrPre := BitVec.ofNat 16 v, dutyCur := BitVec.ofNat 7 q, setKind := .duty })

/-- R152: `PWM.ANGLE SERVO, a`. -/
def pwmAngle (a : Arg) (s : State) : State :=
  let g := angleDegrees a
  let v := angleCompare s.cfg g
  complete .ok (BitVec.ofNat 32 v)
    { s with
      servo := { s.servo with ccrPre := BitVec.ofNat 16 v, setKind := .angle }
      angleCur := BitVec.ofNat 8 g }

/-- R144: `PWM.CFG MOTOR, f`. -/
def execPwmCfgMotor (f : Arg) (s : State) : Result := .next (pwmCfg .motor f s)

/-- R144: `PWM.CFG SERVO, f`. -/
def execPwmCfgServo (f : Arg) (s : State) : Result := .next (pwmCfg .servo f s)

/-- R148: `PWM.DUTY MOTOR, p`. -/
def execPwmDutyMotor (p : Arg) (s : State) : Result := .next (pwmDuty .motor p s)

/-- R148: `PWM.DUTY SERVO, p`. -/
def execPwmDutyServo (p : Arg) (s : State) : Result := .next (pwmDuty .servo p s)

/-- R152: `PWM.ANGLE SERVO, a`. -/
def execPwmAngleServo (a : Arg) (s : State) : Result := .next (pwmAngle a s)

/-- R158: one input clock of a channel's timer. The preload takes effect at the period boundary and only there. -/
def Channel.timTick (c : Channel) : Channel :=
  if c.en then
    if c.pcnt.toNat < c.psc.toNat then { c with pcnt := c.pcnt + 1 }
    else if c.cnt.toNat < c.arr.toNat then { c with pcnt := 0, cnt := c.cnt + 1 }
    else { c with pcnt := 0, cnt := 0, ccrAct := c.ccrPre }
  else c

/-- R158: the `TimTick(ch)` event. -/
def timTick (ch : Ch) (s : State) : State := s.setChan ch (s.chan ch).timTick

end Sys2Proof.Machine
end

