-- ==== Sys2Proof/Machine/System.lean ====
section
/-! DEFINITION. The system operations (44_system_ops.md). -/

namespace Sys2Proof.Machine

/-- R284: `NOP`. -/
def execNop (s : State) : Result := .next (complete .ok 0 s)

end Sys2Proof.Machine
end

