-- ==== Sys2Proof/Machine/Debounce.lean ====
section
/-! DEFINITION. The debounced input and the delay service (41_debounce_delay.md). -/

namespace Sys2Proof.Machine

/-- R180: `BTN.POLL`: one sample; an inactive line completes at once. -/
def execBtnPoll (s : State) : Result :=
  if btnPressed s then .next { s with curOp := codeBtnPoll, seq := .dbPressed } else .next (complete .ok 0 s)

/-- R180: the micro-step of `DB_PRESSED`; it holds while the line is active. -/
def dbPressedStep (s : State) : State :=
  if btnPressed s then s else { s with dlyCnt := s.cfg.settleMs, seq := .dbReleased }

/-- R190: `DLY.MS n`: `n = 0` completes at once. -/
def execDlyMs (n : Arg) (s : State) : Result :=
  if zext32 n = 0 then .next (complete .ok 0 s) else .next { s with dlyCnt := n, curOp := codeDlyMs, seq := .dly }

/-- R192: one tick of a wait: a delay completes with 0, a settle delay reports the press event. -/
def delayTick (s : State) : State :=
  let t := { s with dlyCnt := s.dlyCnt - 1 }
  if t.dlyCnt = 0 then
    if s.seq = .dly then complete .ok 0 t else complete .ok 1 t
  else t

end Sys2Proof.Machine
end

