-- ==== Sys2Proof/Machine/Controller.lean ====
section
/-! DEFINITION. The command/response controller (43_controller.md). -/

namespace Sys2Proof.Machine

/-- R250, R252: `CTL.PRESS`, steps 1 and 2: ON asks for `REQUEST_OFF`, OFF for `REQUEST_ON`. -/
def execCtlPress (s : State) : Result :=
  .next { s with txSel := !s.led, expSel := !s.led, txPtr := 0, curOp := codeCtlPress, seq := .tx }

/-- R256, R258: step 4, the match: a normally received line whose string is the expected confirmation. -/
def confirmed (st : Status) (s : State) : Bool :=
  decide (st = .ok) && decide (response s = strOf (confRom s.expSel))

/-- R256: the result word `{zeros(30), led, m}`. -/
def pressResult (led m : Bool) : Arg := 0#30 ++ BitVec.ofBool led ++ BitVec.ofBool m

/-- R256: `CtlFinish(st)`, steps 4 and 5. -/
def ctlFinish (st : Status) (s : State) : State :=
  let m := confirmed st s
  let led := if m then !s.led else s.led
  complete st (pressResult led m) { s with led := led }

end Sys2Proof.Machine
end

