-- ==== Sys2Proof/Machine/Serial.lean ====
section
/-! DEFINITION. The line-framed serial channel (42_serial.md): the two operations and the micro-steps that serve them
and `CTL.PRESS`. -/

namespace Sys2Proof.Machine

/-- R210: `SER.SEND s`. A select outside the enumerated set raises `IllegalOperation` before any write. -/
def execSerSend (arg : Arg) (s : State) : Result :=
  if Arg.isSendSelect arg then
    .next { s with txSel := sendSelect arg, txPtr := 0, curOp := codeSerSend, seq := .tx }
  else .next (raise (.illegalOperation codeSerSend) s)

/-- R216: `RecvStart()`. `rx_stream` is not touched. -/
def recvStart (s : State) : State :=
  { s with
    rxBuf := s.rxBuf.clear s.cfg.rxCap
    rxIdx := 0
    rxOvf := false
    rxTmoCnt := s.cfg.rxTimeoutMs.getD s.rxTmoCnt
    seq := .rx }

/-- R214: `SER.RECV`. -/
def execSerRecv (s : State) : Result := .next (recvStart { s with curOp := codeSerRecv })

/-- R228: `RecvEnd(st)`: `SER.RECV` returns to the host, `CTL.PRESS` goes on with steps 4 and 5. -/
def recvEnd (st : Status) (s : State) : State :=
  if s.curOp = codeSerRecv then complete st (BitVec.ofNat 32 s.rxIdx) s else ctlFinish st s

/-- R212: the `TX` micro-step. The 0x00 ends the string and is never transmitted; another byte waits for `tx_ready`. -/
def txStep (s : State) : Result :=
  match cmdByte s.txSel s.txPtr.toNat with
  | none => .fault (.romIndex s.txPtr.toNat)
  | some c =>
    if c = 0x00 then
      if s.curOp = codeSerSend then .next (complete .ok (s.txPtr.setWidth 32) s) else .next (recvStart s)
    else if s.txReady then .next { txPut c s with txPtr := s.txPtr + 1 }
    else .next s

/-- R218, R220: the `RX` micro-step under `CAP_AND_FLAG` with the byte `b` taken. -/
def rxStepCap (b : Byte) (s : State) : Result :=
  if isTerminator b then andThen (memWrite s s.rxIdx 0x00) fun t => .next (recvEnd .ok t)
  else if s.rxIdx < s.cfg.rxCap - 1 then
    andThen (memWrite s s.rxIdx b) fun t => .next { t with rxIdx := t.rxIdx + 1 }
  else andThen (memWrite (setOverflow s) s.rxIdx 0x00) fun t => .next { t with seq := .rxDrain }

/-- R224: the `RX` micro-step under `LEGACY_FAULT` with the byte `b` taken. -/
def rxStepLegacy (b : Byte) (s : State) : Result :=
  if s.rxOvf then .next (raise .rxBufferOverrun s)
  else if isTerminator b then andThen (memWrite s s.rxIdx 0x00) fun t => .next (recvEnd .ok t)
  else if s.rxIdx < s.cfg.rxCap - 1 then
    andThen (memWrite s s.rxIdx b) fun t => .next { t with rxIdx := t.rxIdx + 1 }
  else andThen (memWrite s (s.cfg.rxCap - 1) b) fun t => .next (setOverflow t)

/-- R218, R224: the `RX` micro-step; without a byte it holds. Taking the byte consumes it (R77). -/
def rxStep (s : State) : Result :=
  match s.rxStream with
  | [] => .next s
  | b :: rest =>
    match s.cfg.overflowPolicy with
    | .capAndFlag => rxStepCap b { s with rxStream := rest }
    | .legacyFault => rxStepLegacy b { s with rxStream := rest }

/-- R222: the `RX_DRAIN` micro-step. -/
def drainStep (s : State) : Result :=
  match s.rxStream with
  | [] => .next s
  | b :: rest =>
    if isTerminator b then .next (recvEnd .lineTooLong { s with rxStream := rest })
    else .next { s with rxStream := rest }

/-- R226: a tick of the receive timeout. -/
def timeoutTick (s : State) : Result :=
  if s.rxTmoCnt - 1 = 0 then
    andThen (memWrite { s with rxTmoCnt := s.rxTmoCnt - 1 } s.rxIdx 0x00) fun t => .next (recvEnd .rxTimeout t)
  else .next { s with rxTmoCnt := s.rxTmoCnt - 1 }

end Sys2Proof.Machine
end

