-- ==== Sys2Proof/Machine/Sequencer.lean ====
section
/-! DEFINITION. The sequencer's two events: `Seq`, one micro-step (43_controller.md R262), and `Tick1ms`
(41_debounce_delay.md R192). A guard that is false holds: nothing changes (00_scope.md R7). -/

namespace Sys2Proof.Machine

/-- R8, R262: the `Seq` event. While `fault = 1` it is not enabled (R24). -/
def seqEvent (s : State) : Result :=
  if s.fault then .next s
  else match s.seq with
    | .idle => .next s
    | .tx => txStep s
    | .rx => rxStep s
    | .rxDrain => drainStep s
    | .dbPressed => .next (dbPressedStep s)
    | .dbReleased => .next s
    | .dly => .next s

/-- R192: the `Tick1ms` event in full. -/
def tick1ms (s : State) : Result :=
  if s.seq = .dly ∨ s.seq = .dbReleased then .next (delayTick s)
  else if timeoutRuns s then timeoutTick s
  else .next s

/-- `k` micro-steps with nothing between them. -/
def seqBurst : Nat → State → Result
  | 0, s => .next s
  | k + 1, s => andThen (seqEvent s) (seqBurst k)

/-- Micro-steps of a receive, at most `k`, until it ends: none once `seq` has left `RX` and `RX_DRAIN`. -/
def recvBurst : Nat → State → Result
  | 0, s => .next s
  | k + 1, s => if receiving s then andThen (seqEvent s) (recvBurst k) else .next s

end Sys2Proof.Machine
end

