-- ==== Sys2Proof/Machine/Wire.lean ====
section
/-! DEFINITION. The four wire messages of 30_encoding.md R102, each the passing of its whole line at once: a sequence of
the events of 00_scope.md R8 with nothing between them (assumption log 8). An outbound message is the `TX` micro-steps
that put its bytes on the wire (42_serial.md R212); an inbound message is the arrival of its bytes (20_memory.md R76)
and, where the block is receiving, the receive's micro-steps over them (42_serial.md R234). -/

namespace Sys2Proof.Machine

/-- The command `CMD[sel]` goes out: the `TX` micro-steps for its bytes not yet sent. Where the block is not sending
that command no micro-step sends it, and nothing changes; where `tx_ready = 0` it holds (R212). -/
def sendLine (sel : Bool) (s : State) : Result :=
  if s.seq = .tx ∧ s.txSel = sel then seqBurst (cmdLength sel - s.txPtr.toNat) s else .next s

/-- A line of the peer comes in: its bytes arrive (R76), and a receive in progress takes what waits, up to its end. -/
def receiveLine (bytes : List Byte) (s : State) : Result :=
  recvBurst (s.rxStream.length + bytes.length) (peerBytes bytes s)

/-- R102, R212: `REQUEST_ON`. -/
def execRequestOn (s : State) : Result := sendLine true s

/-- R102, R212: `REQUEST_OFF`. -/
def execRequestOff (s : State) : Result := sendLine false s

/-- R102, R76, R234: `CONFIRM_ON` with its terminator. -/
def execConfirmOn (t : Byte) (s : State) : Result := receiveLine (confirmOnLine t) s

/-- R102, R76, R234: `CONFIRM_OFF` with its terminator. -/
def execConfirmOff (t : Byte) (s : State) : Result := receiveLine (confirmOffLine t) s

end Sys2Proof.Machine
end

