-- ==== Sys2Proof/Machine/Dispatch.lean ====
section
/-! DEFINITION. The meaning of each instruction, one direct call an arm. -/

namespace Sys2Proof.Machine

def exec (i : Instr) (s : State) : Host.Outcome State Fault Refusal :=
  match i with
  | .nop => Sys2Proof.Machine.execNop s
  | .pwmCfgMotor f => Sys2Proof.Machine.execPwmCfgMotor f s
  | .pwmCfgServo f => Sys2Proof.Machine.execPwmCfgServo f s
  | .pwmDutyMotor p => Sys2Proof.Machine.execPwmDutyMotor p s
  | .pwmDutyServo p => Sys2Proof.Machine.execPwmDutyServo p s
  | .pwmAngleServo a => Sys2Proof.Machine.execPwmAngleServo a s
  | .serSend arg => Sys2Proof.Machine.execSerSend arg s
  | .serRecv => Sys2Proof.Machine.execSerRecv s
  | .btnPoll => Sys2Proof.Machine.execBtnPoll s
  | .ctlPress => Sys2Proof.Machine.execCtlPress s
  | .dlyMs n => Sys2Proof.Machine.execDlyMs n s
  | .requestOn => Sys2Proof.Machine.execRequestOn s
  | .requestOff => Sys2Proof.Machine.execRequestOff s
  | .confirmOn t => Sys2Proof.Machine.execConfirmOn t s
  | .confirmOff t => Sys2Proof.Machine.execConfirmOff t s

end Sys2Proof.Machine
end

