-- ==== Sys2Proof/Machine/Outputs.lean ====
section
/-! DEFINITION. The outputs computed from state, "with no state of their own" (10_state.md R53, 30_encoding.md R104). -/

namespace Sys2Proof.Machine

/-- R53: `fault_out`. -/
def faultOut (s : State) : Bool := s.fault

/-- R104: `op_status`, 4 bits. -/
def opStatusOut (s : State) : BitVec 4 := s.opStatus.code

/-- R104: `resp_buf`, the cells as one number, "index 0 in bits [7:0]". -/
def respBuf (s : State) : Nat := (rxCells s).foldr (fun b acc => b.toNat + 256 * acc) 0

/-- R41, R53: `led_out`. -/
def ledOut (s : State) : Bool := if s.led then s.cfg.ledActiveLevel else !s.cfg.ledActiveLevel

/-- R53, R160: `pwm_active[ch]`. -/
def pwmActive (s : State) (ch : Ch) : Bool :=
  (s.chan ch).en && (!hasMoe s.cfg ch || (s.chan ch).moe) && decide ((s.chan ch).cnt.toNat < (s.chan ch).ccrAct.toNat)

/-- R53: `pwm_out[ch]`. -/
def pwmOut (s : State) (ch : Ch) : Bool :=
  if pwmActive s ch then pwmActiveLevel s.cfg ch else !pwmActiveLevel s.cfg ch

/-- R21: the debounce state of the source. -/
inductive DbState where
  | idle
  | pressed
  | released
deriving DecidableEq, Repr

/-- R21, R53: `db_state`. -/
def dbState (s : State) : DbState :=
  match s.seq with
  | .dbPressed => .pressed
  | .dbReleased => .released
  | .idle => .idle
  | .tx => .idle
  | .rx => .idle
  | .rxDrain => .idle
  | .dly => .idle

end Sys2Proof.Machine
end

