-- ==== Sys2Proof/Machine/Events.lean ====
section
/-! DEFINITION. The events of 00_scope.md R8 as functions of the state, and where the next one comes from. -/

namespace Sys2Proof.Machine

/-- The operation code an illegal word reports (R302). -/
def illegalCode : DecodeError → Byte
  | .unknownCode code => code
  | .reservedSelect _ => codeSerSend
  | .unknownLine => codeNop

/-- R280: the `Host(code, arg)` event. A word presented while `op_ready = 0` is not accepted, not latched and not
queued; an illegal word raises `IllegalOperation` (R108, R302). -/
def hostEvent (w : OpWord) (s : State) : Result :=
  if opReady s then
    match decode (.opWord w) with
    | .ok i => exec i s
    | .error e => .next (raise (.illegalOperation (illegalCode e)) s)
  else .next s

/-- R112: the host presents the second word of `BTN.SERVE` only if `op_result = 1`. -/
def hostIfPressedEvent (w : OpWord) (s : State) : Result := if s.opResult = 1 then hostEvent w s else .next s

/-- A whole line passes on the wire: one of the four messages, or any other line of the peer, which "is legal on the
wire and is received, but matches nothing" (R101). -/
def lineEvent (bytes : List Byte) (s : State) : Result :=
  match decode (.line bytes) with
  | .ok i => exec i s
  | .error _ => receiveLine bytes s

/-- R78, R84, R326: the peer removes the head byte of `tx_stream`. -/
def peerTake (s : State) : State := { s with txStream := s.txStream.drop 1 }

/-- R326: what the reference peer answers to a line. -/
def refPeerAnswer (line : List Byte) : List Byte :=
  if line = requestOnLine then confirmOnLine 0x0A
  else if line = requestOffLine then confirmOffLine 0x0A
  else []

/-- R326: the reference peer takes one complete line off `tx_stream`, if there is one, and answers it. -/
def refPeer (s : State) : State :=
  if 0x0A#8 ∈ s.txStream then
    let line := s.txStream.takeWhile (fun b => b != 0x0A#8) ++ [0x0A]
    peerBytes (refPeerAnswer line) { s with txStream := s.txStream.drop line.length }
  else s

/-- R340: the `Reset` event: every element of R20 takes its reset value; the parameters, the environment's streams and
lines and the model's schedule stay; the operation in progress is abandoned without `op_done`. -/
def resetEvent (s : State) : State :=
  { State.resetWith s.cfg with
    rxStream := s.rxStream
    txStream := s.txStream
    txReady := s.txReady
    btnIn := s.btnIn
    schedule := s.schedule
    eventNo := s.eventNo }

/-- R8: one event. -/
def applyEvent (e : Event) (s : State) : Result :=
  match e with
  | .host w => hostEvent w s
  | .hostIfPressed w => hostIfPressedEvent w s
  | .line bytes => lineEvent bytes s
  | .seq => seqEvent s
  | .tick1ms => tick1ms s
  | .timTick ch => .next (timTick ch s)
  | .peerByte b => .next (peerBytes [b] s)
  | .peerTake => .next (peerTake s)
  | .refPeer => .next (refPeer s)
  | .txReady v => .next { s with txReady := v }
  | .btn v => .next { s with btnIn := v }
  | .reset => .next (resetEvent s)

/-- The event that happens next: the head of the schedule, or the environment's free choice. -/
def nextEvent (s : State) : Event :=
  match s.schedule with
  | [] => Config.freeEvent s.eventNo
  | e :: _ => e

/-- The state the next event acts on: the event is taken from where it stands, and `op_done` is low. -/
def takeEvent (s : State) : State :=
  match s.schedule with
  | [] => { s with eventNo := s.eventNo + 1, opDone := false }
  | _ :: rest => { s with schedule := rest, opDone := false }

/-- `e` is the next event. -/
def scheduleFirst (e : Event) (s : State) : State := { s with schedule := e :: s.schedule }

/-- The host port is ready: no operation in progress and no fault (R280). -/
def readyPort (s : State) : State := { s with seq := .idle, curOp := 0x00, fault := false }

/-- The block is about to send the first byte of `CMD[sel]` for a `SER.SEND`, and the transmitter is ready (R212). -/
def readySend (sel : Bool) (s : State) : State :=
  { s with seq := .tx, curOp := codeSerSend, fault := false, txSel := sel, txPtr := 0, txReady := true }

/-- All that it takes for the very next step to run the instruction a code stands for (assumption log 10). -/
def placeCode (c : Code) (s : State) : State :=
  match c with
  | .opWord w => scheduleFirst (.host w) (readyPort s)
  | .line bytes =>
    scheduleFirst (.line bytes)
      (if bytes = requestOnLine then readySend true s
       else if bytes = requestOffLine then readySend false s
       else s)

end Sys2Proof.Machine
end

