-- ==== Sys2Proof/Machine/Step.lean ====
section
/-! DEFINITION. The step: one event of the interleaving (60_exceptions.md R312). -/

namespace Sys2Proof.Machine

/-- One event happens. -/
def step (s : State) : Host.Outcome State Fault Refusal := applyEvent (nextEvent s) (takeEvent s)

/-- The instruction a table number of `nbits` bits stands for is the very next thing to run. -/
def State.withFetchWord (s : State) (nbits w : Nat) : State := placeCode (codeOfNumber nbits w) s

end Sys2Proof.Machine
end

