-- ==== Sys2Proof/Machine/Assembler.lean ====
section
/-! DEFINITION. The assembly text of 30_encoding.md R111: one operation a line, mnemonic, channel, operand; `;` starts a
comment; the operand is decimal or 0x hexadecimal, a negative one in two's complement; the source's function names are
aliases. -/

namespace Sys2Proof.Machine

/-- A character that separates the parts of a line. -/
def isSeparator (c : Char) : Bool := c == ' ' || c == ',' || c == '\t'

/-- The parts of a line, in order; `cur` holds the current part, last character first. -/
def splitParts : List Char → List Char → List (List Char)
  | [], cur => if cur = [] then [] else [cur.reverse]
  | c :: rest, cur =>
    if isSeparator c then (if cur = [] then splitParts rest [] else cur.reverse :: splitParts rest [])
    else splitParts rest (c :: cur)

/-- The value of a digit in base 10 or 16. -/
def digitValue (base : Nat) (c : Char) : Option Nat :=
  let v :=
    if '0'.toNat ≤ c.toNat ∧ c.toNat ≤ '9'.toNat then c.toNat - '0'.toNat
    else if 'A'.toNat ≤ c.toNat ∧ c.toNat ≤ 'F'.toNat then c.toNat - 'A'.toNat + 10
    else if 'a'.toNat ≤ c.toNat ∧ c.toNat ≤ 'f'.toNat then c.toNat - 'a'.toNat + 10
    else 16
  if v < base then some v else none

/-- A number in a base, after the digits already read. -/
def readDigits (base : Nat) : List Char → Nat → Option Nat
  | [], acc => some acc
  | c :: rest, acc => match digitValue base c with
    | none => none
    | some d => readDigits base rest (acc * base + d)

/-- A number in decimal or 0x hexadecimal. -/
def readNat : List Char → Option Nat
  | [] => none
  | ['0', 'x'] => none
  | '0' :: 'x' :: rest => readDigits 16 rest 0
  | digits => readDigits 10 digits 0

/-- R111: an operand. One that does not fit 32 bits is no operand (assumption log 18). -/
def readOperand : List Char → Option Arg
  | '-' :: digits => match readNat digits with
    | none => none
    | some n => if n ≤ 2 ^ 31 then some (BitVec.ofInt 32 (-(n : Int))) else none
  | digits => match readNat digits with
    | none => none
    | some n => if n < 2 ^ 32 then some (BitVec.ofNat 32 n) else none

/-- R105, R111: the channel's bit of `fn`. -/
def readChannel (p : List Char) : Option Byte :=
  if p = ['M', 'O', 'T', 'O', 'R'] then some 0 else if p = ['S', 'E', 'R', 'V', 'O'] then some 1 else none

/-- R106: the code of an operation without operand. -/
def plainCode (m : List Char) : Option Byte :=
  if m = "NOP".toList then some codeNop
  else if m = "SER.RECV".toList ∨ m = "receive".toList then some codeSerRecv
  else if m = "BTN.POLL".toList then some codeBtnPoll
  else if m = "CTL.PRESS".toList then some codeCtlPress
  else none

/-- R106: the code of an operation with an operand and no channel. -/
def operandCode (m : List Char) : Option Byte :=
  if m = "SER.SEND".toList ∨ m = "send".toList then some codeSerSend
  else if m = "DLY.MS".toList then some codeDlyMs
  else none

/-- R105: the code of a PWM operation for the channel 0: unit 1, the function in `fn[3:1]`. -/
def pwmCode (m : List Char) : Option Byte :=
  if m = "PWM.CFG".toList ∨ m = "configure".toList then some 0x10
  else if m = "PWM.DUTY".toList ∨ m = "set_duty_cycle".toList then some 0x12
  else if m = "PWM.ANGLE".toList ∨ m = "set_angle".toList then some 0x14
  else none

/-- R111: the word of a line of assembly; the code 0x14 of `PWM.ANGLE MOTOR` is spelled like the others and is illegal
at the host port (R108). -/
def assemble (line : List Char) : Option OpWord :=
  match splitParts (line.takeWhile (· != ';')) [] with
  | [m] => (plainCode m).map fun c => opWordOf c 0
  | [m, v] => match operandCode m, readOperand v with
    | some c, some a => some (opWordOf c a)
    | _, _ => none
  | [m, ch, v] => match pwmCode m, readChannel ch, readOperand v with
    | some c, some b, some a => some (opWordOf (c + b) a)
    | _, _, _ => none
  | _ => none

/-- One hexadecimal digit. -/
def hexDigit (v : Nat) : Char := if v < 10 then Char.ofNat ('0'.toNat + v) else Char.ofNat ('A'.toNat + (v - 10))

/-- R111: an encoding "is written as 10 hexadecimal digits, `code` first". -/
def hexDigits (w : OpWord) : List Char := (List.range 10).map fun k => hexDigit (w.toNat >>> (4 * (9 - k)) % 16)

end Sys2Proof.Machine
end

