-- ==== Sys2Proof/Machine/HostProgram.lean ====
section
/-! DEFINITION. What the host does outside the block: the pseudo-operations (30_encoding.md R112) and the end of a run
(44_system_ops.md R288). -/

namespace Sys2Proof.Machine

/-- R112: the pseudo-operations, "expanded by the host, not by the block". -/
inductive Pseudo where
  /-- `BTN.SERVE` -/
  | btnServe
  /-- `SER.XCHG s` -/
  | serXchg (sel : Bool)
  /-- `PWM.HOLD ch, v, n` -/
  | pwmHold (ch : Ch) (v n : Arg)
  /-- `PWM.HOLDA SERVO, v, n` -/
  | pwmHoldA (v n : Arg)
deriving DecidableEq, Repr

/-- R106, R107: the operand of `SER.SEND` for a select. -/
def selectArg (sel : Bool) : Arg := if sel then 1 else 0

/-- R112: the host's presentations of a pseudo-operation, in order. Other agents' events stand between them. -/
def Pseudo.expand : Pseudo → List Event
  | .btnServe => [.host (opWordOf codeBtnPoll 0), .hostIfPressed (opWordOf codeCtlPress 0)]
  | .serXchg sel => [.host (opWordOf codeSerSend (selectArg sel)), .host (opWordOf codeSerRecv 0)]
  | .pwmHold .motor v n => [.host (opWordOf codePwmDutyMotor v), .host (opWordOf codeDlyMs n)]
  | .pwmHold .servo v n => [.host (opWordOf codePwmDutyServo v), .host (opWordOf codeDlyMs n)]
  | .pwmHoldA v n => [.host (opWordOf codePwmAngleServo v), .host (opWordOf codeDlyMs n)]

/-- R288: the last operation has completed, there is no fault, and the host presents nothing more. That "the host presents
nothing more" reads as no word of the host's left on the schedule, whatever the environment's free event of log 5 may
present once the schedule is empty, is the model's choice (log 25, DESIGN CHOICE). -/
def runEnded (s : State) : Bool :=
  decide (s.seq = .idle) && decide (s.curOp = 0x00) && !s.fault
    && s.schedule.all fun e => match e with
      | .host _ => false
      | .hostIfPressed _ => false
      | .line _ => true
      | .seq => true
      | .tick1ms => true
      | .timTick _ => true
      | .peerByte _ => true
      | .peerTake => true
      | .refPeer => true
      | .txReady _ => true
      | .btn _ => true
      | .reset => true

end Sys2Proof.Machine
end

