-- ==== Sys2Proof/Safety.lean ====
section
/-! DEFINITION. What holds in every reachable state (10_state.md R54, with what its proof needs beside it), which
transitions of `seq` exist (43_controller.md R262), and the fairness premises a claim of termination may take
(60_exceptions.md R318). -/

namespace Sys2Proof.Machine

/-- R54 items 6 and 7 for one channel; `arr + 1` fits 16 bits (R142 item 5); `moe` is 0 where the timer has no such
bit (R33). -/
structure ChannelInv (hasMoeBit : Bool) (c : Channel) : Prop where
  duty_le : c.dutyCur.toNat ≤ 100
  cnt_le : c.cnt.toNat ≤ c.arr.toNat
  pcnt_le : c.pcnt.toNat ≤ c.psc.toNat
  arr_le : c.arr.toNat ≤ 2 ^ 16 - 2
  moe_off : hasMoeBit = false → c.moe = false

/-- R54 items 6 and 7. -/
structure PwmInv (s : State) : Prop where
  motor : ChannelInv (hasMoe s.cfg .motor) s.motor
  servo : ChannelInv (hasMoe s.cfg .servo) s.servo
  angle_le : s.angleCur.toNat ≤ 180

/-- R54 items 1 and 2: the index stays in the buffer, the buffer is in canonical form, ends in 0x00 and holds no
terminator; with what `RX_DRAIN` keeps of a long line (R220, R222) and `LEGACY_FAULT` of a full buffer (R224). -/
structure BufferInv (s : State) : Prop where
  idx_lt : s.rxIdx < s.cfg.rxCap
  wf : s.rxBuf.wf
  in_buf : ∀ c ∈ s.rxBuf, c.1 < s.cfg.rxCap
  no_terminator : ∀ i, isTerminator (memRead s i) = false
  end_cap : s.cfg.overflowPolicy = .capAndFlag → memRead s (s.cfg.rxCap - 1) = 0x00
  end_legacy : s.cfg.overflowPolicy = .legacyFault → s.seq ≠ .rx → memRead s (s.cfg.rxCap - 1) = 0x00
  end_room : s.cfg.overflowPolicy = .legacyFault → s.rxOvf = false → memRead s (s.cfg.rxCap - 1) = 0x00
  drain_idx : s.seq = .rxDrain → s.rxIdx = s.cfg.rxCap - 1 ∧ s.rxOvf = true
  full_idx : s.cfg.overflowPolicy = .legacyFault → s.seq = .rx → s.rxOvf = true → s.rxIdx = s.cfg.rxCap - 1

/-- R54 items 3, 4, 5 and 9; where the sticky fault can stand (R24, R306); the wait counters are not 0 while they run
(R192) and the timeout counter is 0 where there is no timeout (R29). -/
structure ControlInv (s : State) : Prop where
  idle_iff : s.seq = .idle ↔ s.curOp = 0x00
  tx_op : s.seq = .tx → s.curOp = codeSerSend ∨ s.curOp = codeCtlPress
  rx_op : s.seq = .rx ∨ s.seq = .rxDrain → s.curOp = codeSerRecv ∨ s.curOp = codeCtlPress
  db_op : s.seq = .dbPressed ∨ s.seq = .dbReleased → s.curOp = codeBtnPoll
  dly_op : s.seq = .dly → s.curOp = codeDlyMs
  ptr_le : s.txPtr.toNat ≤ cmdLength s.txSel
  press_sel : s.curOp = codeCtlPress → s.expSel = s.txSel ∧ s.txSel = !s.led
  fault_rx : s.fault = true → s.cfg.overflowPolicy = .legacyFault ∧ s.seq = .rx
  drain_cap : s.seq = .rxDrain → s.cfg.overflowPolicy = .capAndFlag
  wait_pos : s.seq = .dly ∨ s.seq = .dbReleased → s.dlyCnt ≠ 0
  timeout_pos : timeoutRuns s = true → s.rxTmoCnt ≠ 0
  timeout_none : s.cfg.rxTimeoutMs = none → s.rxTmoCnt = 0

/-- The invariant of every reachable state (R54). -/
structure BlockInv (s : State) : Prop where
  params : s.cfg.InRange
  buffer : BufferInv s
  control : ControlInv s
  pwm : PwmInv s

/-- R262: where `seq` goes in the `Host` event of an accepted word with this operation code. -/
def hostMove (code : Byte) : List SeqState :=
  if code = codeSerSend then [.tx, .idle]
  else if code = codeSerRecv then [.rx]
  else if code = codeCtlPress then [.tx]
  else if code = codeBtnPoll then [.dbPressed, .idle]
  else if code = codeDlyMs then [.dly, .idle]
  else [.idle]

/-- R262: the transitions of `seq` by an event; "it is complete: no other transition exists". An event may also leave
`seq` as it is. -/
def seqMove (e : Event) (a b : SeqState) : Bool :=
  decide (a = b) || match e with
    | .host w => decide (a = .idle ∧ b ∈ hostMove (opCode w))
    | .hostIfPressed w => decide (a = .idle ∧ b ∈ hostMove (opCode w))
    | .line _ => decide (a = .rx ∧ b ∈ [.rxDrain, .idle] ∨ a = .rxDrain ∧ b = .idle)
    | .seq => decide (a = .tx ∧ b ∈ [.idle, .rx] ∨ a = .rx ∧ b ∈ [.idle, .rxDrain] ∨ a = .rxDrain ∧ b = .idle ∨
        a = .dbPressed ∧ b = .dbReleased)
    | .tick1ms => decide (a ∈ [.rx, .rxDrain, .dbReleased, .dly] ∧ b = .idle)
    | .timTick _ => false
    | .peerByte _ => false
    | .peerTake => false
    | .refPeer => false
    | .txReady _ => false
    | .btn _ => false
    | .reset => decide (b = .idle)

/-- The run from `s` is safe for `k` steps: it has not stopped, and its state has the invariant. -/
def safeFor (k : Nat) (s : State) : Prop := ∃ t, Host.Core.run Sys2Proof.core k s = .next t ∧ BlockInv t

/-! ## Fairness premises (R318), about an endless sequence `env` of events, event `k` being the `k`-th to happen; none is
built into the step, and `Config.freeEvent` is one such sequence -/

/-- `FairTick`: "`Tick1ms` events keep occurring". -/
def FairTick (env : Nat → Event) : Prop := ∀ n, ∃ m, n ≤ m ∧ env m = .tick1ms

/-- `FairTim(ch)`: "`TimTick(ch)` events keep occurring". -/
def FairTim (env : Nat → Event) (ch : Ch) : Prop := ∀ n, ∃ m, n ≤ m ∧ env m = .timTick ch

/-- The state after the first `k` events of `env`, one step each; a step that stops changes nothing. -/
def stateAfter (env : Nat → Event) (s : State) : Nat → State
  | 0 => s
  | k + 1 => match step { stateAfter env s k with schedule := [env k] } with
    | .next t => t
    | .fault _ => stateAfter env s k
    | .refused _ => stateAfter env s k

/-- R7, R8, R24: the `Seq` event is enabled: no fault, and the guard of the current wait is true. -/
def seqEnabled (s : State) : Bool :=
  !s.fault && match s.seq with
    | .idle => false
    | .tx => s.txReady || decide (cmdByte s.txSel s.txPtr.toNat = some 0x00)
    | .rx => rxReady s
    | .rxDrain => rxReady s
    | .dbPressed => !btnPressed s
    | .dbReleased => false
    | .dly => false

/-- `FairSeq`: "an enabled `Seq` event eventually happens"; or it is enabled no longer, by the model's reading (log 24,
DEDUCED). -/
def FairSeq (env : Nat → Event) (s : State) : Prop :=
  ∀ n, ∃ m, n ≤ m ∧ (env m = .seq ∨ seqEnabled (stateAfter env s m) = false)

/-- `FairTx`: "whenever `seq = TX`, `tx_ready` eventually is 1 at a `Seq`". That it is also met where `seq` has left `TX`,
so that no later ready `Seq` is owed for that send, is the model's reading (log 24, DEDUCED). -/
def FairTx (env : Nat → Event) (s : State) : Prop :=
  ∀ n, (stateAfter env s n).seq = .tx →
    ∃ m, n ≤ m ∧ ((stateAfter env s m).seq ≠ .tx ∨ (stateAfter env s m).txReady = true ∧ env m = .seq)

/-- `ButtonReleased`: "an active button line eventually reads inactive at a `Seq`"; explicitly not guaranteed. -/
def ButtonReleased (env : Nat → Event) (s : State) : Prop :=
  ∀ n, btnPressed (stateAfter env s n) = true →
    ∃ m, n ≤ m ∧ btnPressed (stateAfter env s m) = false ∧ env m = .seq

/-- The step from `s` to `t` hands the last byte of a command line, its 0x0A, to the transmitter; `SER.SEND` and
`CTL.PRESS` alike (R212). -/
abbrev commandSent (s t : State) : Prop :=
  s.seq = .tx ∧ s.txPtr.toNat < cmdLength s.txSel ∧ t.txPtr.toNat = cmdLength s.txSel

/-- The bytes the peer sends in an event: those the event appends to `rx_stream` (R76), whether or not a receive takes
them in the same event. -/
def peerSends (e : Event) (s : State) : List Byte :=
  match e with
  | .peerByte b => [b]
  | .line bytes => if bytes = requestOnLine ∨ bytes = requestOffLine then [] else bytes
  | .refPeer => (refPeer s).rxStream.drop s.rxStream.length
  | .host _ => []
  | .hostIfPressed _ => []
  | .seq => []
  | .tick1ms => []
  | .timTick _ => []
  | .peerTake => []
  | .txReady _ => []
  | .btn _ => []
  | .reset => []

/-- `PeerAnswers`: "after a command line the peer eventually sends a terminated line"; explicitly not guaranteed. What the
peer sent before the command line was out does not count (log 24, DEDUCED). -/
def PeerAnswers (env : Nat → Event) (s : State) : Prop :=
  ∀ n, commandSent (stateAfter env s n) (stateAfter env s (n + 1)) →
    ∃ m, n < m ∧ ∃ b ∈ peerSends (env m) (stateAfter env s m), isTerminator b = true

end Sys2Proof.Machine
end

