-- ==== Sys2Proof/Certificates/Slice0/Obligations.lean ====
section
/-! DEFINITION. The statements for the provers. Each docstring names the rule of spec/ it formalises, or says that it is
derived. `opDone` is the model's field for the emitted event `op_done` (assumption log 7); `schedule` and `eventNo` are
the model's own (logs 4, 5). A statement says what a next state is by writing the whole record, so it is its own frame:
every field not written in it is unchanged, every cell of the response buffer among them. -/

open Sys2Proof Sys2Proof.Machine

/-! ## The words a statement is written in -/

/-- 44_system_ops.md R282, written out: what `complete(st, r)` leaves. -/
def Sys2Proof.Machine.completed (st : Status) (r : Arg) (s : State) : State :=
  { s with opStatus := st, opResult := r, curOp := 0x00#8, seq := .idle, opDone := true }

/-- 40_pwm.md R142, written out for clock `C`, tick rate `T` and frequency `f`. -/
def Sys2Proof.Machine.CfgDomain (C T f : Nat) : Prop :=
  1 ≤ f ∧ (1 ≤ T ∧ T ≤ C) ∧ C / T - 1 ≤ 65535 ∧ f ≤ T ∧ T / f - 1 ≤ 65534

/-- 40_pwm.md R144, written out: the channel after `PWM.CFG` with clock `C`, tick rate `T` and frequency `f`. -/
def Sys2Proof.Machine.configured (hasMoeBit : Bool) (C T : Nat) (f : Arg) (c : Channel) : Channel :=
  { psc := BitVec.ofNat 16 (C / T - 1), arr := BitVec.ofNat 16 (T / f.toNat - 1),
    ccrPre := BitVec.ofNat 16 ((T / f.toNat - 1 + 1) * 50 / 100),
    ccrAct := BitVec.ofNat 16 ((T / f.toNat - 1 + 1) * 50 / 100),
    cnt := 0, pcnt := 0, en := true, ope := true, moe := if hasMoeBit then true else c.moe,
    fTarget := f, dutyCur := 50, setKind := .duty }

/-- 40_pwm.md R144: `{P[15:0], N[15:0]}`. -/
def Sys2Proof.Machine.cfgReport (C T f : Nat) : Arg := BitVec.ofNat 16 (C / T - 1) ++ BitVec.ofNat 16 (T / f - 1)

/-- `TICK_RATE_HZ[SERVO]` of 00_scope.md R5 in Hz. -/
def Sys2Proof.Machine.servoRate (p : Params) : Nat := if p.servoTick = .khz1 then 1000 else 1000000

/-- 00_scope.md R10: `clamp(p, 0, hi)` of a signed operand. -/
def Sys2Proof.Machine.clamped (a : Arg) (hi : Nat) : Nat :=
  if a.toInt < 0 then 0 else if (hi : Int) < a.toInt then hi else a.toInt.toNat

/-- 30_encoding.md R106: the eleven codes. -/
def Sys2Proof.Machine.legalCodes : List Byte :=
  [0x00, 0x10, 0x11, 0x12, 0x13, 0x15, 0x20, 0x21, 0x30, 0x40, 0x50]

/-- The steps of a schedule: the state after the first `k` events. -/
abbrev Sys2Proof.Machine.runs (k : Nat) (s : State) : Result := Host.Core.run Sys2Proof.core k s

/-! ## Encoding -/

/-- Derived from 30_encoding.md sections 1 and 3: decoding the encoding of a well-formed instruction, with every operand
at every value, gives it back. -/
def Obligations.DecodeEncodeRoundTrip : Prop := ∀ i : Instr, i.wf = true → decode (encode i) = .ok i

/-- Derived from 30_encoding.md sections 1 and 3: the decoder answers only well-formed instructions, and a word's
instruction encodes to a word with the same operation code. -/
def Obligations.DecodedInstructionsAreWellFormed : Prop :=
  (∀ c i, decode c = .ok i → i.wf = true) ∧
  (∀ w i, decodeOp w = .ok i → ∃ v, encode i = .opWord v ∧ opCode v = opCode w) ∧
  (∀ bytes i, decodeLine bytes = .ok i → encode i = .line bytes)

/-- 30_encoding.md R109, for the four operations whose operand is not read. -/
def Obligations.UnreadOperandBitsAreIgnored : Prop :=
  ∀ (c : Byte) (a : Arg) (s : State), c = 0x00 ∨ c = 0x21 ∨ c = 0x30 ∨ c = 0x40 →
    decodeOp (c ++ a) = decodeOp (c ++ 0#32) ∧ hostEvent (c ++ a) s = hostEvent (c ++ 0#32) s ∧
    (∀ i, decodeOp (c ++ a) = .ok i → encode i = .opWord (c ++ 0#32))

/-- 30_encoding.md R108 with 60_exceptions.md R302: a word whose code is not in the map, and `SER.SEND` with `arg[31:1]`
not 0, complete with `ILLEGAL_OP` and the code; no other state changes (`cur_op` is 0x00 and `seq` is `IDLE` already). -/
def Obligations.IllegalWordsRaiseIllegalOperation : Prop :=
  ∀ (s : State) (w : OpWord) (rest : List Event),
    s.schedule = .host w :: rest → s.seq = .idle → s.curOp = 0x00#8 → s.fault = false →
    (w.extractLsb' 32 8 ∉ legalCodes ∨ w.extractLsb' 32 8 = 0x20#8 ∧ w.extractLsb' 1 31 ≠ 0#31) →
    step s = .next { s with
      schedule := rest, opStatus := .illegalOp, opResult := (w.extractLsb' 32 8).setWidth 32, opDone := true }

/-- Derived: words written out from 30_encoding.md sections 1 and 3, and from 95_test_vectors.md: a sanity statement. -/
def Obligations.WordsOfTheSpecDecode : Prop :=
  decodeTableWord 40 0x10000003E8 = some (.pwmCfgMotor 1000) ∧
  decodeTableWord 40 0x12FFFFFFFB = some (.pwmDutyMotor (BitVec.ofInt 32 (-5))) ∧
  decodeTableWord 40 0x2000000001 = some (.serSend 1) ∧
  decodeTableWord 40 0x2100000007 = some .serRecv ∧
  decodeTableWord 40 0x140000005A = none ∧
  decodeTableWord 72 0x4D204C4544204F4E0A = some .requestOn ∧
  decodeTableWord 80 0x53204C4544204F46460D = some (.confirmOff 0x0D)

/-! ## The step runs the decoded instruction -/

/-- Derived from 44_system_ops.md (the `Host` event): the step that meets an accepted word is `exec` of the instruction
decoded, the event taken off the schedule and `op_done` low (the model's fields, logs 4 and 7). The second clause, that
a whole line on the wire is one step, is the model's choice (log 8, DESIGN CHOICE) and no rule of the spec. -/
def Obligations.StepRunsDecodedInstruction : Prop :=
  (∀ (s : State) (w : OpWord) (rest : List Event) (i : Instr),
    s.schedule = .host w :: rest → s.seq = .idle → s.fault = false → decode (.opWord w) = .ok i →
    step s = exec i { s with schedule := rest, opDone := false }) ∧
  (∀ (s : State) (bytes : List Byte) (rest : List Event) (i : Instr),
    s.schedule = .line bytes :: rest → decode (.line bytes) = .ok i →
    step s = exec i { s with schedule := rest, opDone := false })

/-- 44_system_ops.md R280: a word is accepted only when `seq = IDLE` and `fault = 0`; a legal one does its operation's
`Host` clause, an illegal one raises `IllegalOperation`; an operation that does not complete inside the event leaves
`cur_op` = its code and `seq` not `IDLE`; a word presented otherwise is not accepted, not latched and not queued. -/
def Obligations.HostWordsAreAcceptedOnlyWhenReady : Prop :=
  ∀ (s : State) (w : OpWord) (rest : List Event), s.schedule = .host w :: rest →
    let s' := { s with schedule := rest, opDone := false }
    (s.seq = .idle ∧ s.fault = false → ∀ i, decodeOp w = .ok i →
      step s = exec i s' ∧
      ∃ t, step s = .next t ∧
        ((t.seq = .idle ∧ t.curOp = 0x00#8 ∧ t.opDone = true) ∨
         (t.seq ≠ .idle ∧ t.curOp = w.extractLsb' 32 8 ∧ t.opDone = false))) ∧
    (s.seq = .idle ∧ s.fault = false → ∀ e, decodeOp w = .error e →
      step s = .next (completed .illegalOp ((w.extractLsb' 32 8).setWidth 32) s')) ∧
    (¬ (s.seq = .idle ∧ s.fault = false) → step s = .next s')

/-- Derived (assumption log 10): after `withFetchWord` the very next step runs exactly the instruction decoded. -/
def Obligations.FetchedInstructionRunsNext : Prop :=
  ∀ (s : State) (nbits w : Nat) (i : Instr), decodeTableWord nbits w = some i →
    ∃ u, step (s.withFetchWord nbits w) = exec i u ∧ u.schedule = s.schedule ∧ u.opDone = false ∧
      u.cfg = s.cfg ∧ u.led = s.led ∧ u.rxBuf = s.rxBuf ∧ u.rxStream = s.rxStream ∧ u.txStream = s.txStream ∧
      u.motor = s.motor ∧ u.servo = s.servo ∧
      ((∃ v, encode i = .opWord v) → u.seq = .idle ∧ u.curOp = 0x00#8 ∧ u.fault = false)

/-! ## The operations: what each leaves, for every state and operand -/

/-- 44_system_ops.md R284. -/
def Obligations.NopCompletesAndChangesNothingElse : Prop :=
  ∀ s : State, exec .nop s = .next (completed .ok 0 s)

/-- 40_pwm.md R144 with R142 and R145, 60_exceptions.md R303: `PWM.CFG` on either channel, running or not (R168): where
`CfgLegal` holds it configures the channel, where it fails it reports `BAD_ARG`, 0 and writes no register of it. -/
def Obligations.PwmCfgConfiguresOrReportsBadArg : Prop :=
  (∀ (f : Arg) (s : State), CfgDomain s.cfg.timerClockMotor 1000000 f.toNat →
    exec (.pwmCfgMotor f) s = .next (completed .ok (cfgReport s.cfg.timerClockMotor 1000000 f.toNat)
      { s with motor := configured s.cfg.hasMoeMotor s.cfg.timerClockMotor 1000000 f s.motor })) ∧
  (∀ (f : Arg) (s : State), CfgDomain s.cfg.timerClockServo (servoRate s.cfg) f.toNat →
    exec (.pwmCfgServo f) s = .next (completed .ok (cfgReport s.cfg.timerClockServo (servoRate s.cfg) f.toNat)
      { s with servo := configured s.cfg.hasMoeServo s.cfg.timerClockServo (servoRate s.cfg) f s.servo })) ∧
  (∀ (f : Arg) (s : State), ¬ CfgDomain s.cfg.timerClockMotor 1000000 f.toNat →
    exec (.pwmCfgMotor f) s = .next (completed .badArg 0 s)) ∧
  (∀ (f : Arg) (s : State), ¬ CfgDomain s.cfg.timerClockServo (servoRate s.cfg) f.toNat →
    exec (.pwmCfgServo f) s = .next (completed .badArg 0 s))

/-- 40_pwm.md R148: `PWM.DUTY` on either channel, every operand: the preload, the duty and the kind are written and the
active compare is not. -/
def Obligations.PwmDutyWritesThePreload : Prop :=
  (∀ (p : Arg) (s : State),
    let v := (s.motor.arr.toNat + 1) * clamped p 100 / 100
    exec (.pwmDutyMotor p) s = .next (completed .ok (BitVec.ofNat 32 v)
      { s with motor := { s.motor with
          ccrPre := BitVec.ofNat 16 v, dutyCur := BitVec.ofNat 7 (clamped p 100), setKind := .duty } })) ∧
  (∀ (p : Arg) (s : State),
    let v := (s.servo.arr.toNat + 1) * clamped p 100 / 100
    exec (.pwmDutyServo p) s = .next (completed .ok (BitVec.ofNat 32 v)
      { s with servo := { s.servo with
          ccrPre := BitVec.ofNat 16 v, dutyCur := BitVec.ofNat 7 (clamped p 100), setKind := .duty } }))

/-- 40_pwm.md R150, for the periods `PWM.CFG` can write (`arr <= 65534`): the product fits 23 bits, the map is monotone,
exact where `arr + 1` is a multiple of 100, and `q/5` for `arr = 19`; with it the ends of R148. -/
def Obligations.DutyMapIsMonotoneAndExact : Prop :=
  (∀ arr q : Nat, arr ≤ 65534 → q ≤ 100 → (arr + 1) * q ≤ 6553500 ∧ dutyCompare arr q ≤ arr + 1) ∧
  (∀ arr q r : Nat, q ≤ r → dutyCompare arr q ≤ dutyCompare arr r) ∧
  (∀ arr q : Nat, 100 ∣ arr + 1 → 100 * dutyCompare arr q = (arr + 1) * q) ∧
  (∀ q : Nat, dutyCompare 19 q = q / 5) ∧
  (∀ arr : Nat, dutyCompare arr 0 = 0 ∧ dutyCompare arr 100 = arr + 1)

/-- 40_pwm.md R152: `PWM.ANGLE SERVO`, every operand; the active compare is not written. -/
def Obligations.PwmAngleWritesThePreload : Prop :=
  ∀ (a : Arg) (s : State),
    let v := s.cfg.minPulse.toNat + (s.cfg.maxPulse.toNat - s.cfg.minPulse.toNat) * clamped a 180 / 180
    exec (.pwmAngleServo a) s = .next (completed .ok (BitVec.ofNat 32 v)
      { s with servo := { s.servo with ccrPre := BitVec.ofNat 16 v, setKind := .angle },
               angleCur := BitVec.ofNat 8 (clamped a 180) })

/-- Derived (40_pwm.md section 4, the paragraph "Properties of the angle map", which the spec marks as derived): what
`PWM.ANGLE` reports is `MIN_PULSE` at 0, `MAX_PULSE` at 180, monotone in the clamped angle, within the bounds, and no
write of it is truncated. -/
def Obligations.AngleMapIsMonotoneAndBounded : Prop :=
  ∀ p : Params, p.InRange →
    angleCompare p 0 = p.minPulse.toNat ∧ angleCompare p 180 = p.maxPulse.toNat ∧
    (∀ g h : Nat, g ≤ h → h ≤ 180 → angleCompare p g ≤ angleCompare p h) ∧
    (∀ g : Nat, g ≤ 180 → p.minPulse.toNat ≤ angleCompare p g ∧ angleCompare p g ≤ p.maxPulse.toNat ∧
      (BitVec.ofNat 16 (angleCompare p g)).toNat = angleCompare p g)

/-- 42_serial.md R210, the `Host` clause: the send starts, or a select with `arg[31:1]` not 0 is illegal and nothing is
written. -/
def Obligations.SerSendStartsTheSend : Prop :=
  (∀ (arg : Arg) (s : State), arg.extractLsb' 1 31 = 0#31 →
    exec (.serSend arg) s = .next { s with txSel := arg.getLsbD 0, txPtr := 0, curOp := 0x20#8, seq := .tx }) ∧
  (∀ (arg : Arg) (s : State), arg.extractLsb' 1 31 ≠ 0#31 →
    exec (.serSend arg) s = .next (completed .illegalOp 0x20 s))

/-- 42_serial.md R216, from `SER.RECV` (R214) and from `CTL.PRESS` at the 0x00 of its command (R212, R254): every cell is
cleared, index and overflow too, the timeout loaded where there is one, `rx_stream` untouched. -/
def Obligations.ReceiveStartClearsTheBuffer : Prop :=
  ∀ s : State, ∃ m : Memory,
    exec .serRecv s = .next { s with
      curOp := 0x21#8, seq := .rx, rxBuf := m, rxIdx := 0, rxOvf := false,
      rxTmoCnt := match s.cfg.rxTimeoutMs with
        | none => s.rxTmoCnt
        | some n => n } ∧
    (s.seq = .tx → s.fault = false → s.curOp = 0x40#8 → (cmdRom s.txSel)[s.txPtr.toNat]? = some 0x00#8 →
      seqEvent s = .next { s with
        seq := .rx, rxBuf := m, rxIdx := 0, rxOvf := false,
        rxTmoCnt := match s.cfg.rxTimeoutMs with
          | none => s.rxTmoCnt
          | some n => n }) ∧
    ∀ i, m.read i = if i < s.cfg.rxCap then 0x00#8 else memRead s i

/-- 41_debounce_delay.md R180: one sample in the `Host` event, the wait for inactive, the settle delay, one event; the
line is sampled nowhere else. -/
def Obligations.BtnPollRunsTheDebounceSession : Prop :=
  (∀ s : State, s.btnIn = s.cfg.btnActiveLevel →
    exec .btnPoll s = .next { s with curOp := 0x30#8, seq := .dbPressed }) ∧
  (∀ s : State, s.btnIn ≠ s.cfg.btnActiveLevel → exec .btnPoll s = .next (completed .ok 0 s)) ∧
  (∀ s : State, s.seq = .dbPressed → s.fault = false → s.btnIn ≠ s.cfg.btnActiveLevel →
    seqEvent s = .next { s with dlyCnt := s.cfg.settleMs, seq := .dbReleased }) ∧
  (∀ s : State, s.seq = .dbPressed → s.btnIn = s.cfg.btnActiveLevel → seqEvent s = .next s) ∧
  (∀ s : State, s.seq = .dbReleased → s.dlyCnt - 1 ≠ 0 → tick1ms s = .next { s with dlyCnt := s.dlyCnt - 1 }) ∧
  (∀ s : State, s.seq = .dbReleased → s.dlyCnt - 1 = 0 → tick1ms s = .next (completed .ok 1 { s with dlyCnt := 0 })) ∧
  (∀ s : State, s.seq = .dbReleased → seqEvent s = .next s)

/-- 43_controller.md R252: steps 1 and 2 of `CTL.PRESS`. -/
def Obligations.CtlPressSendsTheOppositeRequest : Prop :=
  ∀ s : State, exec .ctlPress s =
    .next { s with txSel := !s.led, expSel := !s.led, txPtr := 0, curOp := 0x40#8, seq := .tx }

/-- 41_debounce_delay.md R190, its two clauses. -/
def Obligations.DlyMsStartsOrCompletes : Prop :=
  (∀ s : State, exec (.dlyMs 0) s = .next (completed .ok 0 s)) ∧
  (∀ (n : Arg) (s : State), n ≠ 0 → exec (.dlyMs n) s = .next { s with dlyCnt := n, curOp := 0x50#8, seq := .dly }) ∧
  (∀ s : State, s.seq = .dly → s.dlyCnt - 1 ≠ 0 → tick1ms s = .next { s with dlyCnt := s.dlyCnt - 1 }) ∧
  (∀ s : State, s.seq = .dly → s.dlyCnt - 1 = 0 → tick1ms s = .next (completed .ok 0 { s with dlyCnt := 0 }))

/-- Derived from 41_debounce_delay.md section 2 ("The operation completes at the `n`-th `Tick1ms` event after it
started"): the delay is still running after each smaller number of ticks, and over at the `n`-th. -/
def Obligations.DelayCompletesAtTheLastTick : Prop :=
  ∀ (s : State) (n : Arg) (rest : List Event), s.seq = .idle → s.fault = false → n ≠ 0 →
    s.schedule = .host (0x50#8 ++ n) :: List.replicate n.toNat .tick1ms ++ rest →
    (∀ k, k < n.toNat → ∃ t, runs (k + 1) s = .next t ∧ t.seq = .dly ∧ t.dlyCnt.toNat = n.toNat - k ∧ t.opDone = false) ∧
    runs (n.toNat + 1) s = .next (completed .ok 0 { s with dlyCnt := 0, schedule := rest })

/-- Derived from 30_encoding.md section 1 (the messages) and 42_serial.md section 1 (the `TX` micro-step), at the
granularity of assumption log 8: while the block sends the command and the transmitter is ready, the message puts the
bytes still to go on `tx_stream`, in order, and nothing else; where the block is not sending it, nothing changes. -/
def Obligations.RequestLinesGoOut : Prop :=
  (∀ s : State, s.seq = .tx → s.txSel = true → s.fault = false → s.txReady = true → s.txPtr.toNat ≤ 9 →
    exec .requestOn s = .next { s with txStream := s.txStream ++ requestOnLine.drop s.txPtr.toNat, txPtr := 9 }) ∧
  (∀ s : State, s.seq = .tx → s.txSel = false → s.fault = false → s.txReady = true → s.txPtr.toNat ≤ 10 →
    exec .requestOff s = .next { s with txStream := s.txStream ++ requestOffLine.drop s.txPtr.toNat, txPtr := 10 }) ∧
  (∀ s : State, ¬ (s.seq = .tx ∧ s.txSel = true) → exec .requestOn s = .next s) ∧
  (∀ s : State, ¬ (s.seq = .tx ∧ s.txSel = false) → exec .requestOff s = .next s) ∧
  (∀ s : State, s.seq = .tx → s.fault = true ∨ s.txReady = false →
    exec .requestOn s = .next s ∧ exec .requestOff s = .next s)

/-- Derived from 20_memory.md section 3 (bytes that arrive outside a receive "wait in order for the next receive") and
10_state.md section 2 (while `fault = 1` no `Seq` is enabled), at the granularity of assumption log 8. -/
def Obligations.ConfirmLinesWaitForAReceive : Prop :=
  ∀ (s : State) (t : Byte), s.fault = true ∨ s.seq ≠ .rx ∧ s.seq ≠ .rxDrain →
    exec (.confirmOn t) s =
      .next { s with rxStream := s.rxStream ++ [0x53, 0x20, 0x4C, 0x45, 0x44, 0x20, 0x4F, 0x4E, t] } ∧
    exec (.confirmOff t) s =
      .next { s with rxStream := s.rxStream ++ [0x53, 0x20, 0x4C, 0x45, 0x44, 0x20, 0x4F, 0x46, 0x46, t] }

/-- Derived from 43_controller.md section 1 (its properties, which the spec marks as derived), at the granularity of
assumption log 8: in the receive of a `CTL.PRESS` that waits for its first byte, either terminator: the confirmation
expected toggles the LED and completes with `m = 1`; the other one completes `OK` with `m = 0` and the LED as it was. -/
def Obligations.ConfirmationLinesDecideTheToggle : Prop :=
  ∀ (s : State) (t : Byte), BlockInv s → s.seq = .rx → s.curOp = 0x40#8 → s.fault = false → s.rxIdx = 0 → s.rxOvf = false →
    s.rxBuf = [] → s.rxStream = [] → 10 ≤ s.cfg.rxCap → t = 0x0A#8 ∨ t = 0x0D#8 →
    (∃ u, exec (.confirmOn t) s = .next u ∧ u.seq = .idle ∧ u.curOp = 0x00#8 ∧ u.opStatus = .ok ∧ u.rxStream = [] ∧
      u.rxIdx = 8 ∧ u.led = true ∧ u.opResult = if s.led then 2 else 3) ∧
    (∃ u, exec (.confirmOff t) s = .next u ∧ u.seq = .idle ∧ u.curOp = 0x00#8 ∧ u.opStatus = .ok ∧ u.rxStream = [] ∧
      u.rxIdx = 9 ∧ u.led = false ∧ u.opResult = if s.led then 1 else 0)

/-- Derived from 42_serial.md sections 1 and 2, at the granularity of assumption log 8: a confirmation line that comes in
during any receive ends it (its terminator does, if no byte before it does), or, under `LEGACY_FAULT`, overruns the
full buffer; the bytes behind the one that ended it keep waiting. -/
def Obligations.ConfirmationLinesEndAnyReceive : Prop :=
  ∀ (s : State) (t : Byte) (i : Instr) (bytes : List Byte), BlockInv s → s.seq = .rx ∨ s.seq = .rxDrain →
    s.fault = false → t = 0x0A#8 ∨ t = 0x0D#8 →
    (i = .confirmOn t ∧ bytes = [0x53, 0x20, 0x4C, 0x45, 0x44, 0x20, 0x4F, 0x4E, t] ∨
     i = .confirmOff t ∧ bytes = [0x53, 0x20, 0x4C, 0x45, 0x44, 0x20, 0x4F, 0x46, 0x46, t]) →
    ∃ u, exec i s = .next u ∧
      (u.seq = .idle ∧ u.curOp = 0x00#8 ∧ u.opDone = true ∧ u.fault = false ∨
       s.cfg.overflowPolicy = .legacyFault ∧ u.seq = .rx ∧ u.curOp = s.curOp ∧ u.fault = true ∧ u.rxOvf = true) ∧
      (∃ k, 0 < k ∧ k ≤ s.rxStream.length + bytes.length ∧ u.rxStream = (s.rxStream ++ bytes).drop k) ∧
      u.txStream = s.txStream ∧ u.motor = s.motor ∧ u.servo = s.servo ∧ u.angleCur = s.angleCur ∧
      u.dlyCnt = s.dlyCnt ∧ u.txSel = s.txSel ∧ u.txPtr = s.txPtr ∧ u.expSel = s.expSel

/-! ## The sequencer's micro-steps -/

/-- Derived from 00_scope.md section 4 ("while the guard is false no state of the block changes"): the four holds. -/
def Obligations.FalseGuardsHold : Prop :=
  ∀ s : State,
    (s.seq = .tx → s.txReady = false → (∀ c, cmdByte s.txSel s.txPtr.toNat = some c → c ≠ 0x00#8) →
      s.txPtr.toNat ≤ cmdLength s.txSel → seqEvent s = .next s) ∧
    (s.seq = .rx ∨ s.seq = .rxDrain → s.rxStream = [] → seqEvent s = .next s) ∧
    (s.seq = .dbPressed → s.btnIn = s.cfg.btnActiveLevel → seqEvent s = .next s) ∧
    (s.seq = .idle ∨ s.seq = .dbReleased ∨ s.seq = .dly → seqEvent s = .next s)

/-- 42_serial.md R212: the `TX` micro-step: a byte goes out when the transmitter is ready; at the 0x00 `SER.SEND`
completes with the number of bytes and `CTL.PRESS` starts its receive. -/
def Obligations.TxMicroStepSendsOneByte : Prop :=
  ∀ (s : State) (c : Byte), s.seq = .tx → s.fault = false → (cmdRom s.txSel)[s.txPtr.toNat]? = some c →
    (c ≠ 0x00#8 → s.txReady = true →
      seqEvent s = .next { s with txStream := s.txStream ++ [c], txPtr := s.txPtr + 1 }) ∧
    (c ≠ 0x00#8 → s.txReady = false → seqEvent s = .next s) ∧
    (c = 0x00#8 → s.curOp = 0x20#8 → seqEvent s = .next (completed .ok (s.txPtr.setWidth 32) s)) ∧
    (c = 0x00#8 → s.curOp = 0x40#8 → seqEvent s = .next (recvStart s))

/-- 42_serial.md R218 with R220: the `RX` micro-step under `CAP_AND_FLAG`, for an index in the buffer. -/
def Obligations.RxMicroStepStoresOrEndsTheLine : Prop :=
  ∀ (s : State) (b : Byte) (rest : List Byte),
    s.seq = .rx → s.fault = false → s.cfg.overflowPolicy = .capAndFlag → s.rxIdx < s.cfg.rxCap →
    (s.rxStream = [] → seqEvent s = .next s) ∧
    (s.rxStream = b :: rest → b = 0x0A#8 ∨ b = 0x0D#8 →
      seqEvent s = .next (recvEnd .ok { s with rxStream := rest, rxBuf := s.rxBuf.write s.rxIdx 0x00 })) ∧
    (s.rxStream = b :: rest → b ≠ 0x0A#8 → b ≠ 0x0D#8 → s.rxIdx < s.cfg.rxCap - 1 →
      seqEvent s = .next { s with rxStream := rest, rxBuf := s.rxBuf.write s.rxIdx b, rxIdx := s.rxIdx + 1 }) ∧
    (s.rxStream = b :: rest → b ≠ 0x0A#8 → b ≠ 0x0D#8 → s.rxIdx = s.cfg.rxCap - 1 →
      seqEvent s = .next { s with
        rxStream := rest, rxOvf := true, rxBuf := s.rxBuf.write s.rxIdx 0x00, seq := .rxDrain })

/-- 42_serial.md R222: the `RX_DRAIN` micro-step. -/
def Obligations.DrainDiscardsUpToTheTerminator : Prop :=
  ∀ (s : State) (b : Byte) (rest : List Byte), s.seq = .rxDrain → s.fault = false →
    (s.rxStream = [] → seqEvent s = .next s) ∧
    (s.rxStream = b :: rest → b = 0x0A#8 ∨ b = 0x0D#8 →
      seqEvent s = .next (recvEnd .lineTooLong { s with rxStream := rest })) ∧
    (s.rxStream = b :: rest → b ≠ 0x0A#8 → b ≠ 0x0D#8 → seqEvent s = .next { s with rxStream := rest })

/-- 42_serial.md R224: the `RX` micro-step under `LEGACY_FAULT`, for an index in the buffer; the full-buffer check comes
before the terminator check. -/
def Obligations.LegacyOverrunSetsTheStickyFault : Prop :=
  ∀ (s : State) (b : Byte) (rest : List Byte),
    s.seq = .rx → s.fault = false → s.cfg.overflowPolicy = .legacyFault → s.rxIdx < s.cfg.rxCap →
    (s.rxStream = [] → seqEvent s = .next s) ∧
    (s.rxStream = b :: rest → s.rxOvf = true → seqEvent s = .next { s with rxStream := rest, fault := true }) ∧
    (s.rxStream = b :: rest → s.rxOvf = false → b = 0x0A#8 ∨ b = 0x0D#8 →
      seqEvent s = .next (recvEnd .ok { s with rxStream := rest, rxBuf := s.rxBuf.write s.rxIdx 0x00 })) ∧
    (s.rxStream = b :: rest → s.rxOvf = false → b ≠ 0x0A#8 → b ≠ 0x0D#8 → s.rxIdx < s.cfg.rxCap - 1 →
      seqEvent s = .next { s with rxStream := rest, rxBuf := s.rxBuf.write s.rxIdx b, rxIdx := s.rxIdx + 1 }) ∧
    (s.rxStream = b :: rest → s.rxOvf = false → b ≠ 0x0A#8 → b ≠ 0x0D#8 → s.rxIdx = s.cfg.rxCap - 1 →
      seqEvent s = .next { s with
        rxStream := rest, rxBuf := s.rxBuf.write (s.cfg.rxCap - 1) b, rxOvf := true })

/-- 42_serial.md R226: the tick of an enabled timeout, for an index in the buffer; with `RX_TIMEOUT_MS = NONE` a tick
changes nothing in a receive. -/
def Obligations.TimeoutEndsTheReceive : Prop :=
  ∀ s : State, s.seq = .rx ∨ s.seq = .rxDrain → s.fault = false → s.rxIdx < s.cfg.rxCap →
    (s.cfg.rxTimeoutMs = none → tick1ms s = .next s) ∧
    (s.cfg.rxTimeoutMs ≠ none → s.rxTmoCnt - 1 ≠ 0 → tick1ms s = .next { s with rxTmoCnt := s.rxTmoCnt - 1 }) ∧
    (s.cfg.rxTimeoutMs ≠ none → s.rxTmoCnt - 1 = 0 →
      tick1ms s = .next (recvEnd .rxTimeout { s with rxTmoCnt := 0, rxBuf := s.rxBuf.write s.rxIdx 0x00 }))

/-- 41_debounce_delay.md R192: the `Tick1ms` event in full; its timeout branch is R226's. -/
def Obligations.TickEventInFull : Prop :=
  ∀ s : State,
    (s.seq = .dly ∨ s.seq = .dbReleased → s.dlyCnt - 1 ≠ 0 → tick1ms s = .next { s with dlyCnt := s.dlyCnt - 1 }) ∧
    (s.seq = .dly → s.dlyCnt - 1 = 0 → tick1ms s = .next (completed .ok 0 { s with dlyCnt := 0 })) ∧
    (s.seq = .dbReleased → s.dlyCnt - 1 = 0 → tick1ms s = .next (completed .ok 1 { s with dlyCnt := 0 })) ∧
    (s.seq = .rx ∨ s.seq = .rxDrain → s.cfg.rxTimeoutMs ≠ none → s.fault = false → tick1ms s = timeoutTick s) ∧
    (¬ (s.seq = .dly ∨ s.seq = .dbReleased) →
      ¬ ((s.seq = .rx ∨ s.seq = .rxDrain) ∧ s.cfg.rxTimeoutMs ≠ none ∧ s.fault = false) → tick1ms s = .next s)

/-- 42_serial.md R228 and 43_controller.md R256: the end of a receive: `SER.RECV` reports the index, `CTL.PRESS`
compares and toggles only on an exact match of a normally received line. -/
def Obligations.ReceiveEndReportsOrCompares : Prop :=
  ∀ (st : Status) (s : State),
    (s.curOp = 0x21#8 → recvEnd st s = completed st (BitVec.ofNat 32 s.rxIdx) s) ∧
    (s.curOp = 0x40#8 → st = .ok → response s = strOf (confRom s.expSel) →
      recvEnd st s = completed st (if s.led then 1 else 3) { s with led := !s.led }) ∧
    (s.curOp = 0x40#8 → ¬ (st = .ok ∧ response s = strOf (confRom s.expSel)) →
      recvEnd st s = completed st (if s.led then 2 else 0) s)

/-! ## Whole sends, receives and presses -/

/-- Derived from 42_serial.md section 1: with the transmitter ready throughout, a `SER.SEND` takes one `Seq` for each
byte and one for the 0x00, puts exactly the command's bytes on `tx_stream` and reports their number. -/
def Obligations.SendTransmitsTheWholeCommand : Prop :=
  ∀ (s : State) (sel : Bool) (rest : List Event), s.seq = .idle → s.fault = false → s.txReady = true →
    s.schedule = .host (0x20#8 ++ (if sel then 1#32 else 0#32)) ::
      List.replicate (if sel then 10 else 11) .seq ++ rest →
    runs (if sel then 11 else 12) s = .next (completed .ok (if sel then 9 else 10)
      { s with
        txSel := sel
        txPtr := if sel then 9 else 10
        txStream := s.txStream ++ (if sel then requestOnLine else requestOffLine)
        schedule := rest })

/-- Derived from 42_serial.md section 2 (the receive "as one function", which the spec marks as derived): from the start
of a receive, with a whole line at the head of `rx_stream`, the receive takes exactly the line, one `Seq` a byte; what it
stores, the index, the overflow flag and the status are functions of the payload; the bytes behind the line stay. -/
def Obligations.ReceiveTakesExactlyOneLine : Prop :=
  ∀ (s : State) (p : List Byte) (t : Byte) (rest : List Byte) (events : List Event),
    s.seq = .rx → s.fault = false → s.cfg.overflowPolicy = .capAndFlag → 2 ≤ s.cfg.rxCap →
    s.rxIdx = 0 → s.rxOvf = false → s.rxBuf.wf → (∀ i, memRead s i = 0x00#8) →
    (∀ b ∈ p, b ≠ 0x0A#8 ∧ b ≠ 0x0D#8) → t = 0x0A#8 ∨ t = 0x0D#8 → s.rxStream = p ++ t :: rest →
    s.schedule = List.replicate (p.length + 1) .seq ++ events →
    ∃ m : Memory,
      runs (p.length + 1) s = .next (recvEnd (if p.length ≤ s.cfg.rxCap - 1 then .ok else .lineTooLong)
        { s with
          rxStream := rest
          rxIdx := min p.length (s.cfg.rxCap - 1)
          rxOvf := decide (s.cfg.rxCap ≤ p.length)
          rxBuf := m
          schedule := events }) ∧
      ∀ i, m.read i = if i < min p.length (s.cfg.rxCap - 1) then p.getD i 0x00 else 0x00

/-- Derived from 43_controller.md section 1 (its first property and its two scenarios, which the spec marks as derived):
from every idle state of the invariant with no unread byte and the transmitter ready, a `CTL.PRESS` whose peer answers
with exactly the confirmation of the command sent, either terminator, toggles the LED and reports it. -/
def Obligations.ConfirmedPressTogglesTheLed : Prop :=
  ∀ (s : State) (t : Byte) (rest : List Event), BlockInv s → s.seq = .idle → s.fault = false → s.txReady = true →
    s.rxStream = [] → 10 ≤ s.cfg.rxCap → t = 0x0A#8 ∨ t = 0x0D#8 →
    let request := if s.led then requestOffLine else requestOnLine
    let confirm := (if s.led then confirmOffPayload else confirmOnPayload) ++ [t]
    let events := .host 0x4000000000#40 :: List.replicate (request.length + 1) Event.seq ++
      confirm.map Event.peerByte ++ List.replicate confirm.length Event.seq
    ∃ u, runs events.length { s with schedule := events ++ rest } = .next u ∧
      u.led = (!s.led) ∧ u.opStatus = .ok ∧ u.opResult = (if s.led then 1 else 3) ∧ u.seq = .idle ∧
      u.curOp = 0x00#8 ∧ u.txStream = s.txStream ++ request ∧ u.rxStream = [] ∧ u.schedule = rest ∧ BlockInv u

/-- Derived from 43_controller.md section 1 (its first and second properties, which the spec marks as derived): a press
whose peer answers with any other line of fewer than `RX_CAP` payload bytes whose string is not the confirmation leaves
the LED as it was, completes `OK` with bit 0 clear, and sent the same command the next press will send. -/
def Obligations.UnconfirmedPressLeavesTheLed : Prop :=
  ∀ (s : State) (p : List Byte) (t : Byte) (rest : List Event), BlockInv s → s.seq = .idle → s.fault = false →
    s.txReady = true → s.rxStream = [] → p.length < s.cfg.rxCap → (∀ b ∈ p, b ≠ 0x0A#8 ∧ b ≠ 0x0D#8) →
    t = 0x0A#8 ∨ t = 0x0D#8 →
    strOf p ≠ (if s.led then confirmOffPayload else confirmOnPayload) →
    let request := if s.led then requestOffLine else requestOnLine
    let events := .host 0x4000000000#40 :: List.replicate (request.length + 1) Event.seq ++
      (p ++ [t]).map Event.peerByte ++ List.replicate (p.length + 1) Event.seq
    ∃ u, runs events.length { s with schedule := events ++ rest } = .next u ∧
      u.led = s.led ∧ u.opStatus = .ok ∧ u.opResult = (if s.led then 2 else 0) ∧ u.seq = .idle ∧
      u.txStream = s.txStream ++ request ∧ u.rxStream = [] ∧ u.schedule = rest

/-! ## The PWM counter and the outputs -/

/-- 40_pwm.md R158, the event's pseudocode, for either channel; the other channel and all else are unchanged. -/
def Obligations.TimTickAdvancesTheCounter : Prop :=
  ∀ (s : State) (ch : Ch), let c := s.chan ch
    (c.en = false → applyEvent (.timTick ch) s = .next s) ∧
    (c.en = true → c.pcnt.toNat < c.psc.toNat →
      applyEvent (.timTick ch) s = .next (s.setChan ch { c with pcnt := c.pcnt + 1 })) ∧
    (c.en = true → c.psc.toNat ≤ c.pcnt.toNat → c.cnt.toNat < c.arr.toNat →
      applyEvent (.timTick ch) s = .next (s.setChan ch { c with pcnt := 0, cnt := c.cnt + 1 })) ∧
    (c.en = true → c.psc.toNat ≤ c.pcnt.toNat → c.arr.toNat ≤ c.cnt.toNat →
      applyEvent (.timTick ch) s = .next (s.setChan ch { c with pcnt := 0, cnt := 0, ccrAct := c.ccrPre }))

/-- Derived from 40_pwm.md section 5 ("One period is `(psc+1) * (arr+1)` input clocks"): from a period boundary, each
input clock of the period has its place in it, the active compare keeps its value, and the last clock is the boundary
that takes the preload. -/
def Obligations.OnePeriodIsAllItsClocks : Prop :=
  ∀ c : Channel, c.en = true → c.cnt = 0 → c.pcnt = 0 →
    (∀ k, k < (c.psc.toNat + 1) * (c.arr.toNat + 1) →
      (Channel.timTick^[k] c).ccrAct = c.ccrAct ∧
      (Channel.timTick^[k] c).cnt.toNat = k / (c.psc.toNat + 1) ∧
      (Channel.timTick^[k] c).pcnt.toNat = k % (c.psc.toNat + 1)) ∧
    Channel.timTick^[(c.psc.toNat + 1) * (c.arr.toNat + 1)] c = { c with cnt := 0, pcnt := 0, ccrAct := c.ccrPre }

/-- 40_pwm.md R160 with 10_state.md R53: the output condition and the pin level, never active at compare 0, active over
the whole period at a compare of `arr + 1` or more. -/
def Obligations.PwmOutputFollowsTheActiveCompare : Prop :=
  ∀ (s : State) (ch : Ch), let c := s.chan ch
    let moeOk := (match ch with | .motor => s.cfg.hasMoeMotor | .servo => s.cfg.hasMoeServo) = false ∨ c.moe = true
    let level := match ch with | .motor => s.cfg.pwmActiveMotor | .servo => s.cfg.pwmActiveServo
    (pwmActive s ch = true ↔ c.en = true ∧ moeOk ∧ c.cnt.toNat < c.ccrAct.toNat) ∧
    pwmOut s ch = (if pwmActive s ch then level else !level) ∧
    (c.ccrAct = 0 → pwmActive s ch = false) ∧
    (c.en = true → moeOk → c.cnt.toNat ≤ c.arr.toNat → c.arr.toNat + 1 ≤ c.ccrAct.toNat → pwmActive s ch = true)

/-- Derived from 40_pwm.md section 5 (the glitch-free property, which the spec marks as derived) and 10_state.md section
4: over every step from every state, the active compare of a channel changes only at a period boundary of its running
counter (R158: prescaler and counter both run out), where both return to 0 and it takes the preload, in a `PWM.CFG` of
the channel, or in `Reset`. -/
def Obligations.ActiveCompareChangesOnlyAtABoundary : Prop :=
  ∀ (s t : State) (ch : Ch), step s = .next t → (t.chan ch).ccrAct ≠ (s.chan ch).ccrAct →
    (nextEvent s = .timTick ch ∧ (s.chan ch).en = true ∧ (s.chan ch).psc.toNat ≤ (s.chan ch).pcnt.toNat ∧
      (s.chan ch).arr.toNat ≤ (s.chan ch).cnt.toNat ∧ (t.chan ch).ccrAct = (s.chan ch).ccrPre ∧
      (t.chan ch).cnt = 0 ∧ (t.chan ch).pcnt = 0) ∨
    nextEvent s = .reset ∨
    (∃ w, (nextEvent s = .host w ∨ nextEvent s = .hostIfPressed w) ∧
      opCode w = match ch with | .motor => 0x10#8 | .servo => 0x11#8)

/-! ## Rules of the whole machine -/

/-- Derived from 10_state.md section 9 item 8 and section 5: over every step, the LED changes only in `Reset` or in the
last step of a `CTL.PRESS` whose receive ended `OK` with exactly the expected confirmation. -/
def Obligations.LedChangesOnlyWhenConfirmed : Prop :=
  ∀ s t : State, BlockInv s → step s = .next t → t.led ≠ s.led →
    nextEvent s = .reset ∨
    (s.curOp = 0x40#8 ∧ (s.seq = .rx ∨ s.seq = .rxDrain) ∧ t.led = s.expSel ∧ t.opStatus = .ok ∧ t.opDone = true ∧
      t.seq = .idle ∧ response t = strOf (confRom s.expSel))

/-- 10_state.md R24: the sticky fault: set only where `LEGACY_FAULT` is the policy and a byte was taken with the buffer
full; cleared only by `Reset`; while it is set `Host` and `Seq` change nothing and the operation never completes. -/
def Obligations.FaultIsSticky : Prop :=
  (∀ s t : State, step s = .next t → s.fault = false → t.fault = true →
    s.cfg.overflowPolicy = .legacyFault ∧ t.seq = .rx ∧ t.rxOvf = true) ∧
  (∀ s t : State, BlockInv s → s.fault = true → step s = .next t → nextEvent s ≠ .reset →
    t.fault = true ∧ t.seq = s.seq ∧ t.curOp = s.curOp ∧ t.opDone = false) ∧
  (∀ s : State, s.fault = true →
    (nextEvent s = .seq ∨ (∃ w, nextEvent s = .host w) → step s = .next (takeEvent s)) ∧
    (nextEvent s = .reset → ∃ t, step s = .next t ∧ t.fault = false)) ∧
  State.reset.fault = false

/-- Derived from 43_controller.md section 2: every transition of `seq`, by the event that makes it ("no other transition
exists"), and "Every transition to `IDLE` other than `Reset` is a `complete`". The row of `seqMove` for a line on the
wire is no row of the spec's table: it is the model's (log 8, DESIGN CHOICE), the moves of the receive's micro-steps with
nothing between them. -/
def Obligations.SequencerTransitionsAreTheTable : Prop :=
  ∀ s t : State, step s = .next t →
    seqMove (nextEvent s) s.seq t.seq = true ∧
    (s.seq ≠ .idle → t.seq = .idle → nextEvent s ≠ .reset → t.opDone = true ∧ t.curOp = 0x00#8)

/-- Derived from 00_scope.md section 3 and 44_system_ops.md (the host "is assumed never to change a parameter"): no step
writes a parameter. The field is the model's (assumption log 1). -/
def Obligations.ParametersNeverChange : Prop := ∀ s t : State, step s = .next t → t.cfg = s.cfg

/-- Derived from 10_state.md section 3 ("written only by a receive"): a cell of the response buffer changes only in a
receive, at the start of one, or in `Reset`; the cells at `RX_CAP` and above never change but by `Reset`. -/
def Obligations.OnlyAReceiveWritesTheBuffer : Prop :=
  ∀ (s t : State) (i : Nat), s.rxBuf.wf → step s = .next t → memRead t i ≠ memRead s i →
    nextEvent s = .reset ∨
    (i < s.cfg.rxCap ∧
      (s.seq = .rx ∨ s.seq = .rxDrain ∨ s.seq = .tx ∧ nextEvent s = .seq ∨
        ∃ w, (nextEvent s = .host w ∨ nextEvent s = .hostIfPressed w) ∧ opCode w = 0x21#8))

/-- Derived from 20_memory.md section 3: `rx_stream` is first-in first-out: a step appends what arrived and
removes from the head, only the states `RX` and `RX_DRAIN` remove, and only the peer's events append. -/
def Obligations.RxStreamIsFirstInFirstOut : Prop :=
  ∀ s t : State, step s = .next t → ∃ (arrived : List Byte) (k : Nat),
    t.rxStream = (s.rxStream ++ arrived).drop k ∧
    (k ≠ 0 → s.seq = .rx ∨ s.seq = .rxDrain) ∧
    (arrived ≠ [] → (∃ b, nextEvent s = .peerByte b ∧ arrived = [b]) ∨ (∃ bytes, nextEvent s = .line bytes ∧
      arrived = bytes) ∨ nextEvent s = .refPeer)

/-- Derived from 20_memory.md section 3 and 42_serial.md section 1: a step hands to the transmitter only the next
bytes of the command being sent, in order and never its 0x00, only in `TX` with the transmitter ready; only the peer
removes. -/
def Obligations.TxStreamGetsOnlyTheCommand : Prop :=
  ∀ s t : State, step s = .next t → ∃ (sent : List Byte) (k : Nat),
    t.txStream = (s.txStream ++ sent).drop k ∧
    (sent ≠ [] → s.seq = .tx ∧ s.txReady = true ∧ s.fault = false ∧
      ∃ n, sent = ((strOf (cmdRom s.txSel)).drop s.txPtr.toNat).take n) ∧
    (k ≠ 0 → nextEvent s = .peerTake ∨ nextEvent s = .refPeer)

/-- Derived from 20_memory.md section 3 and 10_state.md section 7: the environment's events, enabled in every state,
change their own field alone. -/
def Obligations.EnvironmentEventsAreAlwaysEnabled : Prop :=
  ∀ (s : State) (rest : List Event) (b : Byte) (v : Bool),
    (s.schedule = .peerByte b :: rest →
      step s = .next { s with schedule := rest, opDone := false, rxStream := s.rxStream ++ [b] }) ∧
    (s.schedule = .txReady v :: rest → step s = .next { s with schedule := rest, opDone := false, txReady := v }) ∧
    (s.schedule = .btn v :: rest → step s = .next { s with schedule := rest, opDone := false, btnIn := v })

/-- 70_reset_and_hazards.md R340: `Reset` in any state: every element at the value the rule lists, the environment's
streams and lines untouched, no `op_done`. -/
def Obligations.ResetWritesEveryElement : Prop :=
  ∀ (s : State) (rest : List Event), s.schedule = .reset :: rest →
    step s = .next { s with
      schedule := rest, opDone := false
      seq := .idle, curOp := 0x00#8, fault := false, opStatus := .ok, opResult := 0
      txSel := false, txPtr := 0, rxBuf := [], rxIdx := 0, rxOvf := false, rxTmoCnt := 0
      expSel := false, led := false, dlyCnt := 0, angleCur := 0
      motor := ⟨0, 0, 0, 0, 0, 0, false, false, false, 0, 0, .duty⟩
      servo := ⟨0, 0, 0, 0, 0, 0, false, false, false, 0, 0, .duty⟩ }

/-- 70_reset_and_hazards.md R342: the pins and ports after a `Reset` in any state, whatever the parameters. -/
def Obligations.ResetOutputsAreQuiet : Prop :=
  ∀ s : State,
    let r := resetEvent s
    ledOut r = (!s.cfg.ledActiveLevel) ∧ pwmActive r .motor = false ∧ pwmActive r .servo = false ∧
    pwmOut r .motor = (!s.cfg.pwmActiveMotor) ∧ pwmOut r .servo = (!s.cfg.pwmActiveServo) ∧
    opReady r = true ∧ faultOut r = false ∧ response r = []

/-- Derived from 10_state.md section 9: the invariant holds after reset, whatever the parameters in the ranges of R5
(and of log 13). -/
def Obligations.ResetHasTheInvariant : Prop :=
  (∀ p : Params, p.InRange → BlockInv (State.resetWith p)) ∧ BlockInv State.reset ∧
  (∀ s : State, s.cfg.InRange → BlockInv (resetEvent s))

/-- Derived from 10_state.md section 9 ("These hold after `Reset` and are kept by every event"): every step from a state
of the invariant answers a next state, and that state has the invariant. -/
def Obligations.StepKeepsTheInvariant : Prop := ∀ s : State, BlockInv s → ∃ t, step s = .next t ∧ BlockInv t

/-- Derived from 10_state.md section 9: no run of any length from a state of the invariant stops, whatever is scheduled
and whatever the environment chooses after that. -/
def Obligations.NoRunStops : Prop := ∀ (k : Nat) (s : State), BlockInv s → safeFor k s

/-- Derived from log 12 (DEDUCED): the canonical list form is the model's representation of the cells of 20_memory.md
section 1, which speaks of no list. Over every step from every state the buffer keeps it, so equal buffers are equal
data. -/
def Obligations.BufferStaysCanonical : Prop := ∀ s t : State, step s = .next t → s.rxBuf.wf → t.rxBuf.wf

/-- Derived from 30_encoding.md section 4: the host's expansions into words. That the condition of `BTN.SERVE` on
`op_result` is read when the second word is presented, and that the event is consumed otherwise, is the model's (log 17,
DEDUCED). -/
def Obligations.PseudoOperationsExpand : Prop :=
  Pseudo.btnServe.expand = [.host 0x3000000000#40, .hostIfPressed 0x4000000000#40] ∧
  (∀ (s : State) (w : OpWord) (rest : List Event), s.schedule = .hostIfPressed w :: rest →
    (s.opResult = 1 → step s = step { s with schedule := .host w :: rest }) ∧
    (s.opResult ≠ 1 → step s = .next { s with schedule := rest, opDone := false })) ∧
  (Pseudo.serXchg true).expand = [.host 0x2000000001#40, .host 0x2100000000#40] ∧
  (Pseudo.serXchg false).expand = [.host 0x2000000000#40, .host 0x2100000000#40] ∧
  (∀ v n : Arg,
    (Pseudo.pwmHold .motor v n).expand = [.host (0x12#8 ++ v), .host (0x50#8 ++ n)] ∧
    (Pseudo.pwmHold .servo v n).expand = [.host (0x13#8 ++ v), .host (0x50#8 ++ n)] ∧
    (Pseudo.pwmHoldA v n).expand = [.host (0x15#8 ++ v), .host (0x50#8 ++ n)])

/-- Derived from 60_exceptions.md section 5 and 41_debounce_delay.md section 2: whatever else the environment does, if
ticks keep occurring every delay and every settle delay ends; if the transmitter is fair (`FairTx`, read as log 24 says),
every send ends. -/
def Obligations.WaitsEndUnderFairness : Prop :=
  ∀ (env : Nat → Event) (s : State), BlockInv s →
    (FairTick env → s.seq = .dly ∨ s.seq = .dbReleased → ∃ k, (stateAfter env s k).seq = .idle) ∧
    (FairTx env s → s.seq = .tx → ∃ k, (stateAfter env s k).seq ≠ .tx)

/-- Derived from 41_debounce_delay.md section 1 (its counterexample, which the spec marks as derived): a bounce of the
press edge that a `Seq` falls into reports an event while the button is held, and the next poll starts a second session
that reports a second event at the real release: two events from one physical press. -/
def Obligations.PressEdgeChatterStartsASecondSession : Prop :=
  ∀ (s : State) (rest : List Event), BlockInv s → s.seq = .idle → s.fault = false → s.btnIn = s.cfg.btnActiveLevel →
    let settle := List.replicate s.cfg.settleMs.toNat Event.tick1ms
    let bounce := [.host 0x3000000000#40, .btn (!s.cfg.btnActiveLevel), .seq, .btn s.cfg.btnActiveLevel] ++ settle
    let release := [.host 0x3000000000#40, .btn (!s.cfg.btnActiveLevel), .seq] ++ settle
    ∃ t, runs bounce.length { s with schedule := bounce ++ (release ++ rest) } = .next t ∧
      t.opStatus = .ok ∧ t.opResult = 1 ∧ t.opDone = true ∧ t.seq = .idle ∧ t.btnIn = s.cfg.btnActiveLevel ∧
      (∃ v, step t = .next v ∧ v.seq = .dbPressed ∧ v.curOp = 0x30#8) ∧
      ∃ u, runs release.length t = .next u ∧
        u.opStatus = .ok ∧ u.opResult = 1 ∧ u.opDone = true ∧ u.seq = .idle ∧ u.schedule = rest

/-- Derived from 40_pwm.md section 4 (the paragraph "Properties of the angle map"): a well-formed configuration also
meets `MAX_PULSE <= T / 50`; of a servo configured for 50 Hz, that is exactly when the compare value of every angle stays
within the period, so that it is a pulse width. That `State.reset`'s parameters are well-formed is about the model's
choice of them (log 2, DESIGN CHOICE). -/
def Obligations.ServoPulseIsAWidthExactlyIfItFits : Prop :=
  (∀ p : Params, p.Legal ↔ p.InRange ∧ p.maxPulse.toNat ≤ servoRate p / 50) ∧
  State.reset.cfg.Legal ∧
  (∀ s : State, s.cfg.InRange → CfgDomain s.cfg.timerClockServo (servoRate s.cfg) 50 →
    ∃ t, exec (.pwmCfgServo 50) s = .next t ∧ t.servo.arr.toNat + 1 = servoRate s.cfg / 50 ∧
      (s.cfg.Legal → ∀ a : Arg, ∃ u, exec (.pwmAngleServo a) t = .next u ∧
        u.servo.ccrPre.toNat ≤ u.servo.arr.toNat + 1) ∧
      (¬ s.cfg.Legal → ∃ u, exec (.pwmAngleServo 180) t = .next u ∧ u.servo.arr.toNat + 1 < u.servo.ccrPre.toNat))

/-- Derived from 60_exceptions.md section 1: the 4-bit `op_status`, its numbering, that no code above 4 appears, and for
each abnormal code what raises it and what `op_result` then records. `op_done` marks the step of the completion. -/
def Obligations.StatusCodesAreTheTable : Prop :=
  (∀ s : State, opStatusOut s = match s.opStatus with
    | .ok => 0#4
    | .illegalOp => 1#4
    | .lineTooLong => 2#4
    | .rxTimeout => 3#4
    | .badArg => 4#4) ∧
  (∀ s : State, (opStatusOut s).toNat ≤ 4) ∧
  (∀ s t : State, BlockInv s → step s = .next t → t.opDone = true →
    (opStatusOut t = 1#4 → ∃ w e, (nextEvent s = .host w ∨ nextEvent s = .hostIfPressed w) ∧ decodeOp w = .error e ∧
      t.opResult = (w.extractLsb' 32 8).setWidth 32) ∧
    (opStatusOut t = 2#4 → s.cfg.overflowPolicy = .capAndFlag ∧ (s.seq = .rx ∨ s.seq = .rxDrain) ∧
      (s.curOp = 0x21#8 ∧ t.opResult = BitVec.ofNat 32 (s.cfg.rxCap - 1) ∧ t.rxIdx = s.cfg.rxCap - 1 ∨
       s.curOp = 0x40#8 ∧ t.opResult = if s.led then 2 else 0)) ∧
    (opStatusOut t = 3#4 → s.cfg.rxTimeoutMs ≠ none ∧ nextEvent s = .tick1ms ∧ (s.seq = .rx ∨ s.seq = .rxDrain) ∧
      (s.curOp = 0x21#8 ∧ t.opResult = BitVec.ofNat 32 s.rxIdx ∨
       s.curOp = 0x40#8 ∧ t.opResult = if s.led then 2 else 0)) ∧
    (opStatusOut t = 4#4 → ∃ w f, (nextEvent s = .host w ∨ nextEvent s = .hostIfPressed w) ∧
      (decodeOp w = .ok (.pwmCfgMotor f) ∨ decodeOp w = .ok (.pwmCfgServo f)) ∧ t.opResult = 0))

/-- Derived from 60_exceptions.md section 5, under premises the spec calls explicitly not guaranteed; `FairSeq`, `FairTx`
and `PeerAnswers` are read as log 24 says. Under `ButtonReleased` a poll that found the button pressed ends. Under
`PeerAnswers` a command whose line is not yet out, of `SER.SEND` or of `CTL.PRESS`, ends under `CAP_AND_FLAG`; under
`LEGACY_FAULT` the peer's line may overrun the buffer instead. -/
def Obligations.SessionsEndUnderFairness : Prop :=
  ∀ (env : Nat → Event) (s : State), BlockInv s → FairSeq env s →
    (ButtonReleased env s → FairTick env → s.seq = .dbPressed → ∃ k, (stateAfter env s k).seq = .idle) ∧
    (FairTx env s → PeerAnswers env s → s.cfg.overflowPolicy = .capAndFlag → s.seq = .tx →
      s.txPtr.toNat < cmdLength s.txSel → ∃ k, (stateAfter env s k).seq = .idle)
end

