-- ==== Sys2Proof/Laws/Encoding.lean ====
section
/-! SUPPORT. The fields of an operation word, and the decoder on a word written as code and operand. -/

namespace Sys2Proof

/-- R105: the bits of a word. -/
theorem getLsbD_opWordOf (c : Byte) (a : Arg) (i : Nat) :
    BitVec.getLsbD (opWordOf c a) i = if i < 32 then a.getLsbD i else c.getLsbD (i - 32) :=
  BitVec.getLsbD_append

@[simp] theorem opCode_opWordOf (c : Byte) (a : Arg) : opCode (opWordOf c a) = c := by
  unfold opCode
  refine BitVec.eq_of_getLsbD_eq fun i hi => ?_
  simp [getLsbD_opWordOf, hi]

@[simp] theorem opArg_opWordOf (c : Byte) (a : Arg) : opArg (opWordOf c a) = a := by
  unfold opArg
  refine BitVec.eq_of_getLsbD_eq fun i hi => ?_
  simp [getLsbD_opWordOf, hi]

@[simp] theorem opCode_append (c : Byte) (a : Arg) : opCode (c ++ a) = c := opCode_opWordOf c a

@[simp] theorem opArg_append (c : Byte) (a : Arg) : opArg (c ++ a) = a := opArg_opWordOf c a

/-- R105: a word is its code and its operand. -/
theorem opWord_eq (w : OpWord) : opWordOf (opCode w) (opArg w) = w := by
  show (BitVec.extractLsb' 32 8 w ++ BitVec.extractLsb' 0 32 w : BitVec (8 + 32)) = w
  refine BitVec.eq_of_getLsbD_eq fun i hi => ?_
  rw [BitVec.getLsbD_append]
  simp only [BitVec.getLsbD_extractLsb']
  split
  · simp [*]
  · have h : i - 32 < 8 := by omega
    simp [h, show 32 + (i - 32) = i by omega]

/-- R105: the code is unit and function. -/
theorem opCode_eq (w : OpWord) : opUnit w ++ opFn w = opCode w := by
  show (BitVec.extractLsb' 36 4 w ++ BitVec.extractLsb' 32 4 w : BitVec (4 + 4)) = BitVec.extractLsb' 32 8 w
  refine BitVec.eq_of_getLsbD_eq fun i hi => ?_
  rw [BitVec.getLsbD_append]
  simp only [BitVec.getLsbD_extractLsb']
  split
  · simp [*]
  · have h : i - 4 < 4 := by omega
    simp [h, show 36 + (i - 4) = 32 + i by omega, show i < 8 by omega]

/-- R106: decoding goes by the code alone but for the select of `SER.SEND`. -/
theorem decodeOp_opWordOf (c : Byte) (a : Arg) : decodeOp (opWordOf c a) =
    if c = codeNop then .ok .nop
    else if c = codePwmCfgMotor then .ok (.pwmCfgMotor a)
    else if c = codePwmCfgServo then .ok (.pwmCfgServo a)
    else if c = codePwmDutyMotor then .ok (.pwmDutyMotor a)
    else if c = codePwmDutyServo then .ok (.pwmDutyServo a)
    else if c = codePwmAngleServo then .ok (.pwmAngleServo a)
    else if c = codeSerSend then if Arg.isSendSelect a then .ok (.serSend a) else .error (.reservedSelect a)
    else if c = codeSerRecv then .ok .serRecv
    else if c = codeBtnPoll then .ok .btnPoll
    else if c = codeCtlPress then .ok .ctlPress
    else if c = codeDlyMs then .ok (.dlyMs a)
    else .error (.unknownCode c) := by
  unfold decodeOp
  simp only [opCode_opWordOf, opArg_opWordOf]

@[simp] theorem decode_opWord (w : OpWord) : decode (.opWord w) = decodeOp w := rfl
@[simp] theorem decode_line (b : List Byte) : decode (.line b) = decodeLine b := rfl

@[simp] theorem decodeLine_requestOn : decodeLine requestOnLine = .ok .requestOn := rfl
@[simp] theorem decodeLine_requestOff : decodeLine requestOffLine = .ok .requestOff := rfl
@[simp] theorem decodeLine_confirmOn_lf : decodeLine (confirmOnLine 0x0A) = .ok (.confirmOn 0x0A) := rfl
@[simp] theorem decodeLine_confirmOn_cr : decodeLine (confirmOnLine 0x0D) = .ok (.confirmOn 0x0D) := rfl
@[simp] theorem decodeLine_confirmOff_lf : decodeLine (confirmOffLine 0x0A) = .ok (.confirmOff 0x0A) := rfl
@[simp] theorem decodeLine_confirmOff_cr : decodeLine (confirmOffLine 0x0D) = .ok (.confirmOff 0x0D) := rfl

/-- R106: what the decoder read, by code. -/
theorem decodeOp_cases {w : OpWord} {i : Instr} (h : decodeOp w = .ok i) :
    (opCode w = codeNop ∧ i = .nop) ∨
    (opCode w = codePwmCfgMotor ∧ i = .pwmCfgMotor (opArg w)) ∨
    (opCode w = codePwmCfgServo ∧ i = .pwmCfgServo (opArg w)) ∨
    (opCode w = codePwmDutyMotor ∧ i = .pwmDutyMotor (opArg w)) ∨
    (opCode w = codePwmDutyServo ∧ i = .pwmDutyServo (opArg w)) ∨
    (opCode w = codePwmAngleServo ∧ i = .pwmAngleServo (opArg w)) ∨
    (opCode w = codeSerSend ∧ Arg.isSendSelect (opArg w) ∧ i = .serSend (opArg w)) ∨
    (opCode w = codeSerRecv ∧ i = .serRecv) ∨
    (opCode w = codeBtnPoll ∧ i = .btnPoll) ∨
    (opCode w = codeCtlPress ∧ i = .ctlPress) ∨
    (opCode w = codeDlyMs ∧ i = .dlyMs (opArg w)) := by
  unfold decodeOp at h
  dsimp only at h
  by_cases h1 : opCode w = codeNop
  · rw [if_pos h1] at h; cases h; exact .inl ⟨h1, rfl⟩
  rw [if_neg h1] at h; refine .inr ?_
  by_cases h1 : opCode w = codePwmCfgMotor
  · rw [if_pos h1] at h; cases h; exact .inl ⟨h1, rfl⟩
  rw [if_neg h1] at h; refine .inr ?_
  by_cases h1 : opCode w = codePwmCfgServo
  · rw [if_pos h1] at h; cases h; exact .inl ⟨h1, rfl⟩
  rw [if_neg h1] at h; refine .inr ?_
  by_cases h1 : opCode w = codePwmDutyMotor
  · rw [if_pos h1] at h; cases h; exact .inl ⟨h1, rfl⟩
  rw [if_neg h1] at h; refine .inr ?_
  by_cases h1 : opCode w = codePwmDutyServo
  · rw [if_pos h1] at h; cases h; exact .inl ⟨h1, rfl⟩
  rw [if_neg h1] at h; refine .inr ?_
  by_cases h1 : opCode w = codePwmAngleServo
  · rw [if_pos h1] at h; cases h; exact .inl ⟨h1, rfl⟩
  rw [if_neg h1] at h; refine .inr ?_
  by_cases h1 : opCode w = codeSerSend
  · rw [if_pos h1] at h
    by_cases h2 : Arg.isSendSelect (opArg w)
    · rw [if_pos h2] at h; cases h; exact .inl ⟨h1, h2, rfl⟩
    · rw [if_neg h2] at h; cases h
  rw [if_neg h1] at h; refine .inr ?_
  by_cases h1 : opCode w = codeSerRecv
  · rw [if_pos h1] at h; cases h; exact .inl ⟨h1, rfl⟩
  rw [if_neg h1] at h; refine .inr ?_
  by_cases h1 : opCode w = codeBtnPoll
  · rw [if_pos h1] at h; cases h; exact .inl ⟨h1, rfl⟩
  rw [if_neg h1] at h; refine .inr ?_
  by_cases h1 : opCode w = codeCtlPress
  · rw [if_pos h1] at h; cases h; exact .inl ⟨h1, rfl⟩
  rw [if_neg h1] at h; refine .inr ?_
  by_cases h1 : opCode w = codeDlyMs
  · rw [if_pos h1] at h; cases h; exact ⟨h1, rfl⟩
  rw [if_neg h1] at h; cases h

/-- R102: what the decoder read, by line. -/
theorem decodeLine_cases {b : List Byte} {i : Instr} (h : decodeLine b = .ok i) :
    (b = requestOnLine ∧ i = .requestOn) ∨ (b = requestOffLine ∧ i = .requestOff) ∨
    (∃ t, Byte.isLineEnd t ∧ b = confirmOnLine t ∧ i = .confirmOn t) ∨
    (∃ t, Byte.isLineEnd t ∧ b = confirmOffLine t ∧ i = .confirmOff t) := by
  unfold decodeLine at h
  split at h
  · cases h; exact .inl ⟨‹_›, rfl⟩
  split at h
  · cases h; exact .inr (.inl ⟨‹_›, rfl⟩)
  split at h
  · cases h; exact .inr (.inr (.inl ⟨_, .inl rfl, ‹_›, rfl⟩))
  split at h
  · cases h; exact .inr (.inr (.inl ⟨_, .inr rfl, ‹_›, rfl⟩))
  split at h
  · cases h; exact .inr (.inr (.inr ⟨_, .inl rfl, ‹_›, rfl⟩))
  split at h
  · cases h; exact .inr (.inr (.inr ⟨_, .inr rfl, ‹_›, rfl⟩))
  · cases h

end Sys2Proof
end

