-- ==== Sys2Proof/Laws/Memory.lean ====
section
/-! SUPPORT. The response buffer as a memory: a read after a write, and the canonical form kept by every operation. -/

namespace Sys2Proof.Machine

@[simp] theorem Memory.read_nil (a : Nat) : Memory.read [] a = 0x00 := rfl

theorem Memory.read_cons (c : Host.Cell) (m : Memory) (a : Nat) :
    Memory.read (c :: m) a = if c.1 = a then c.2 else m.read a := rfl

/-- A cell below every listed one holds 0x00. -/
theorem Memory.read_eq_zero_of_lt (m : Memory) (a : Nat) (h : ∀ c ∈ m, a < c.1) : m.read a = 0x00 := by
  induction m with
  | nil => rfl
  | cons c m ih =>
    have hc := h c (by simp)
    rw [Memory.read_cons, if_neg (by omega)]
    exact ih fun d hd => h d (by simp [hd])

/-- The listed cells of a write are among the old ones and the one written. -/
theorem Memory.mem_write {m : Memory} {a : Nat} {b : Byte} {c : Host.Cell} (h : c ∈ m.write a b) :
    c ∈ m ∨ (c = (a, b) ∧ b ≠ 0x00) := by
  induction m with
  | nil =>
    rw [Memory.write] at h
    split at h
    · cases h
    · rename_i hb
      exact .inr ⟨List.mem_singleton.mp h, hb⟩
  | cons d m ih =>
    obtain ⟨k, v⟩ := d
    rw [Memory.write] at h
    split at h
    · split at h
      · exact .inl h
      · rename_i hb
        rcases List.mem_cons.mp h with h | h
        · exact .inr ⟨h, hb⟩
        · exact .inl h
    · split at h
      · split at h
        · exact .inl (List.mem_cons_of_mem _ h)
        · rename_i hak hb
          rcases List.mem_cons.mp h with h | h
          · exact .inr ⟨by rw [h, hak], hb⟩
          · exact .inl (List.mem_cons_of_mem _ h)
      · rcases List.mem_cons.mp h with h | h
        · exact .inl (h ▸ List.mem_cons_self)
        · exact (ih h).imp_left (List.mem_cons_of_mem _)

/-- R75: a write reads back at its index and leaves every other index as it was. -/
theorem Memory.read_write {m : Memory} (hm : m.wf) (a : Nat) (b : Byte) (i : Nat) :
    (m.write a b).read i = if i = a then b else m.read i := by
  induction m with
  | nil =>
    rw [Memory.write]
    split
    · rename_i hb
      subst hb
      simp
    · rw [Memory.read_cons]
      simp only [eq_comm, Memory.read_nil]
  | cons d m ih =>
    obtain ⟨k, v⟩ := d
    obtain ⟨hp, hz⟩ := hm
    rw [List.pairwise_cons] at hp
    have hlow : ∀ j, j ≤ k → Memory.read m j = 0x00 := fun j hj =>
      Memory.read_eq_zero_of_lt m j fun c hc => lt_of_le_of_lt hj (hp.1 c hc)
    have ih' := ih ⟨hp.2, fun c hc => hz c (by simp [hc])⟩
    rw [Memory.write]
    split
    · rename_i hak
      split
      · rename_i hb
        subst hb
        by_cases hi : i = a
        · subst hi
          rw [if_pos rfl, Memory.read_cons, if_neg (by simp only; omega), hlow i (by omega)]
        · rw [if_neg hi]
      · rw [Memory.read_cons]
        simp only [eq_comm]
    · split
      · rename_i hak
        subst hak
        split
        · rename_i hb
          subst hb
          rw [Memory.read_cons]
          by_cases hi : i = a
          · subst hi
            rw [if_pos rfl, hlow i (le_refl i)]
          · rw [if_neg hi, if_neg (by simp only; omega)]
        · rw [Memory.read_cons, Memory.read_cons]
          by_cases hi : i = a
          · subst hi; simp
          · have : ¬ a = i := fun h => hi h.symm
            simp [hi, this]
      · rw [Memory.read_cons, Memory.read_cons, ih']
        by_cases hi : i = a
        · subst hi
          rw [if_neg (by simp only; omega), if_pos rfl, if_pos rfl]
        · simp [hi]

/-- A write keeps the canonical form. -/
theorem Memory.wf_write {m : Memory} (hm : m.wf) (a : Nat) (b : Byte) : (m.write a b).wf := by
  refine ⟨?_, fun c hc => ?_⟩
  · induction m with
    | nil =>
      rw [Memory.write]
      split
      · exact List.Pairwise.nil
      · exact List.pairwise_singleton _ _
    | cons d m ih =>
      obtain ⟨k, v⟩ := d
      obtain ⟨hp, hz⟩ := hm
      have hp' := List.pairwise_cons.mp hp
      have ih' := ih ⟨hp'.2, fun c hc => hz c (by simp [hc])⟩
      rw [Memory.write]
      split
      · rename_i hak
        split
        · exact hp
        · refine List.pairwise_cons.mpr ⟨fun c hc => ?_, hp⟩
          rcases List.mem_cons.mp hc with hc | hc
          · simp only [hc]; exact hak
          · exact lt_trans hak (hp'.1 c hc)
      · split
        · split
          · exact hp'.2
          · exact List.pairwise_cons.mpr ⟨hp'.1, hp'.2⟩
        · refine List.pairwise_cons.mpr ⟨fun c hc => ?_, ih'⟩
          rcases Memory.mem_write hc with hc | ⟨hc, -⟩
          · exact hp'.1 c hc
          · simp only [hc]; omega
  · rcases Memory.mem_write hc with hc | ⟨hc, hb⟩
    · exact hm.2 c hc
    · simpa [hc] using hb

/-- Clearing keeps the canonical form. -/
theorem Memory.wf_clear {m : Memory} (hm : m.wf) (n : Nat) : (m.clear n).wf :=
  ⟨hm.1.sublist List.filter_sublist, fun c hc => hm.2 c (List.mem_filter.mp hc).1⟩

/-- R216: the cleared cells hold 0x00, the others what they held. -/
theorem Memory.read_clear {m : Memory} (n i : Nat) : (m.clear n).read i = if i < n then 0x00 else m.read i := by
  induction m with
  | nil => simp [Memory.clear]
  | cons c m ih =>
    have hcl : Memory.clear (c :: m) n = if n ≤ c.1 then c :: Memory.clear m n else Memory.clear m n := by
      simp [Memory.clear, List.filter_cons]
    rw [hcl, Memory.read_cons]
    split
    · rw [Memory.read_cons, ih]
      by_cases h : c.1 = i
      · rw [if_pos h, if_pos h, if_neg (by omega)]
      · rw [if_neg h, if_neg h]
    · rw [ih]
      split
      · rfl
      · rw [if_neg (by omega)]

/-- A buffer with no listed cell at `n` or above is empty after clearing `n` cells. -/
theorem Memory.clear_eq_nil {m : Memory} {n : Nat} (h : ∀ c ∈ m, c.1 < n) : m.clear n = [] := by
  refine List.filter_eq_nil_iff.mpr fun c hc => ?_
  have := h c hc
  simpa using this

theorem Memory.wf_nil : Memory.wf [] := ⟨List.Pairwise.nil, fun _ h => absurd h List.not_mem_nil⟩

end Sys2Proof.Machine
end

