-- ==== Sys2Proof/Laws/State.lean ====
section
/-! SUPPORT. One lemma per field of each named update of the state: what it writes and what it leaves. -/

namespace Sys2Proof.Machine

/-! ## `complete`: completion, R282 -/

@[simp] theorem complete_cfg (st : Status) (r : Arg) (s : State) : (complete st r s).cfg = s.cfg := rfl
@[simp] theorem complete_seq (st : Status) (r : Arg) (s : State) : (complete st r s).seq = .idle := rfl
@[simp] theorem complete_curOp (st : Status) (r : Arg) (s : State) : (complete st r s).curOp = 0x00 := rfl
@[simp] theorem complete_fault (st : Status) (r : Arg) (s : State) : (complete st r s).fault = s.fault := rfl
@[simp] theorem complete_opStatus (st : Status) (r : Arg) (s : State) : (complete st r s).opStatus = st := rfl
@[simp] theorem complete_opResult (st : Status) (r : Arg) (s : State) : (complete st r s).opResult = r := rfl
@[simp] theorem complete_txSel (st : Status) (r : Arg) (s : State) : (complete st r s).txSel = s.txSel := rfl
@[simp] theorem complete_txPtr (st : Status) (r : Arg) (s : State) : (complete st r s).txPtr = s.txPtr := rfl
@[simp] theorem complete_rxBuf (st : Status) (r : Arg) (s : State) : (complete st r s).rxBuf = s.rxBuf := rfl
@[simp] theorem complete_rxIdx (st : Status) (r : Arg) (s : State) : (complete st r s).rxIdx = s.rxIdx := rfl
@[simp] theorem complete_rxOvf (st : Status) (r : Arg) (s : State) : (complete st r s).rxOvf = s.rxOvf := rfl
@[simp] theorem complete_rxTmoCnt (st : Status) (r : Arg) (s : State) : (complete st r s).rxTmoCnt = s.rxTmoCnt := rfl
@[simp] theorem complete_expSel (st : Status) (r : Arg) (s : State) : (complete st r s).expSel = s.expSel := rfl
@[simp] theorem complete_led (st : Status) (r : Arg) (s : State) : (complete st r s).led = s.led := rfl
@[simp] theorem complete_dlyCnt (st : Status) (r : Arg) (s : State) : (complete st r s).dlyCnt = s.dlyCnt := rfl
@[simp] theorem complete_motor (st : Status) (r : Arg) (s : State) : (complete st r s).motor = s.motor := rfl
@[simp] theorem complete_servo (st : Status) (r : Arg) (s : State) : (complete st r s).servo = s.servo := rfl
@[simp] theorem complete_angleCur (st : Status) (r : Arg) (s : State) : (complete st r s).angleCur = s.angleCur := rfl
@[simp] theorem complete_rxStream (st : Status) (r : Arg) (s : State) : (complete st r s).rxStream = s.rxStream := rfl
@[simp] theorem complete_txStream (st : Status) (r : Arg) (s : State) : (complete st r s).txStream = s.txStream := rfl
@[simp] theorem complete_txReady (st : Status) (r : Arg) (s : State) : (complete st r s).txReady = s.txReady := rfl
@[simp] theorem complete_btnIn (st : Status) (r : Arg) (s : State) : (complete st r s).btnIn = s.btnIn := rfl
@[simp] theorem complete_schedule (st : Status) (r : Arg) (s : State) : (complete st r s).schedule = s.schedule := rfl
@[simp] theorem complete_eventNo (st : Status) (r : Arg) (s : State) : (complete st r s).eventNo = s.eventNo := rfl
@[simp] theorem complete_opDone (st : Status) (r : Arg) (s : State) : (complete st r s).opDone = true := rfl

/-! ## `recvStart`: the start of a receive, R216 -/

@[simp] theorem recvStart_cfg (s : State) : (recvStart s).cfg = s.cfg := rfl
@[simp] theorem recvStart_seq (s : State) : (recvStart s).seq = .rx := rfl
@[simp] theorem recvStart_curOp (s : State) : (recvStart s).curOp = s.curOp := rfl
@[simp] theorem recvStart_fault (s : State) : (recvStart s).fault = s.fault := rfl
@[simp] theorem recvStart_opStatus (s : State) : (recvStart s).opStatus = s.opStatus := rfl
@[simp] theorem recvStart_opResult (s : State) : (recvStart s).opResult = s.opResult := rfl
@[simp] theorem recvStart_txSel (s : State) : (recvStart s).txSel = s.txSel := rfl
@[simp] theorem recvStart_txPtr (s : State) : (recvStart s).txPtr = s.txPtr := rfl
@[simp] theorem recvStart_rxBuf (s : State) : (recvStart s).rxBuf = s.rxBuf.clear s.cfg.rxCap := rfl
@[simp] theorem recvStart_rxIdx (s : State) : (recvStart s).rxIdx = 0 := rfl
@[simp] theorem recvStart_rxOvf (s : State) : (recvStart s).rxOvf = false := rfl
@[simp] theorem recvStart_rxTmoCnt (s : State) : (recvStart s).rxTmoCnt = s.cfg.rxTimeoutMs.getD s.rxTmoCnt := rfl
@[simp] theorem recvStart_expSel (s : State) : (recvStart s).expSel = s.expSel := rfl
@[simp] theorem recvStart_led (s : State) : (recvStart s).led = s.led := rfl
@[simp] theorem recvStart_dlyCnt (s : State) : (recvStart s).dlyCnt = s.dlyCnt := rfl
@[simp] theorem recvStart_motor (s : State) : (recvStart s).motor = s.motor := rfl
@[simp] theorem recvStart_servo (s : State) : (recvStart s).servo = s.servo := rfl
@[simp] theorem recvStart_angleCur (s : State) : (recvStart s).angleCur = s.angleCur := rfl
@[simp] theorem recvStart_rxStream (s : State) : (recvStart s).rxStream = s.rxStream := rfl
@[simp] theorem recvStart_txStream (s : State) : (recvStart s).txStream = s.txStream := rfl
@[simp] theorem recvStart_txReady (s : State) : (recvStart s).txReady = s.txReady := rfl
@[simp] theorem recvStart_btnIn (s : State) : (recvStart s).btnIn = s.btnIn := rfl
@[simp] theorem recvStart_schedule (s : State) : (recvStart s).schedule = s.schedule := rfl
@[simp] theorem recvStart_eventNo (s : State) : (recvStart s).eventNo = s.eventNo := rfl
@[simp] theorem recvStart_opDone (s : State) : (recvStart s).opDone = s.opDone := rfl

/-! ## `setOverflow`: R220, R224 -/

@[simp] theorem setOverflow_cfg (s : State) : (setOverflow s).cfg = s.cfg := rfl
@[simp] theorem setOverflow_seq (s : State) : (setOverflow s).seq = s.seq := rfl
@[simp] theorem setOverflow_curOp (s : State) : (setOverflow s).curOp = s.curOp := rfl
@[simp] theorem setOverflow_fault (s : State) : (setOverflow s).fault = s.fault := rfl
@[simp] theorem setOverflow_opStatus (s : State) : (setOverflow s).opStatus = s.opStatus := rfl
@[simp] theorem setOverflow_opResult (s : State) : (setOverflow s).opResult = s.opResult := rfl
@[simp] theorem setOverflow_txSel (s : State) : (setOverflow s).txSel = s.txSel := rfl
@[simp] theorem setOverflow_txPtr (s : State) : (setOverflow s).txPtr = s.txPtr := rfl
@[simp] theorem setOverflow_rxBuf (s : State) : (setOverflow s).rxBuf = s.rxBuf := rfl
@[simp] theorem setOverflow_rxIdx (s : State) : (setOverflow s).rxIdx = s.rxIdx := rfl
@[simp] theorem setOverflow_rxOvf (s : State) : (setOverflow s).rxOvf = true := rfl
@[simp] theorem setOverflow_rxTmoCnt (s : State) : (setOverflow s).rxTmoCnt = s.rxTmoCnt := rfl
@[simp] theorem setOverflow_expSel (s : State) : (setOverflow s).expSel = s.expSel := rfl
@[simp] theorem setOverflow_led (s : State) : (setOverflow s).led = s.led := rfl
@[simp] theorem setOverflow_dlyCnt (s : State) : (setOverflow s).dlyCnt = s.dlyCnt := rfl
@[simp] theorem setOverflow_motor (s : State) : (setOverflow s).motor = s.motor := rfl
@[simp] theorem setOverflow_servo (s : State) : (setOverflow s).servo = s.servo := rfl
@[simp] theorem setOverflow_angleCur (s : State) : (setOverflow s).angleCur = s.angleCur := rfl
@[simp] theorem setOverflow_rxStream (s : State) : (setOverflow s).rxStream = s.rxStream := rfl
@[simp] theorem setOverflow_txStream (s : State) : (setOverflow s).txStream = s.txStream := rfl
@[simp] theorem setOverflow_txReady (s : State) : (setOverflow s).txReady = s.txReady := rfl
@[simp] theorem setOverflow_btnIn (s : State) : (setOverflow s).btnIn = s.btnIn := rfl
@[simp] theorem setOverflow_schedule (s : State) : (setOverflow s).schedule = s.schedule := rfl
@[simp] theorem setOverflow_eventNo (s : State) : (setOverflow s).eventNo = s.eventNo := rfl
@[simp] theorem setOverflow_opDone (s : State) : (setOverflow s).opDone = s.opDone := rfl

/-! ## `txPut`: R78 -/

@[simp] theorem txPut_cfg (b : Byte) (s : State) : (txPut b s).cfg = s.cfg := rfl
@[simp] theorem txPut_seq (b : Byte) (s : State) : (txPut b s).seq = s.seq := rfl
@[simp] theorem txPut_curOp (b : Byte) (s : State) : (txPut b s).curOp = s.curOp := rfl
@[simp] theorem txPut_fault (b : Byte) (s : State) : (txPut b s).fault = s.fault := rfl
@[simp] theorem txPut_opStatus (b : Byte) (s : State) : (txPut b s).opStatus = s.opStatus := rfl
@[simp] theorem txPut_opResult (b : Byte) (s : State) : (txPut b s).opResult = s.opResult := rfl
@[simp] theorem txPut_txSel (b : Byte) (s : State) : (txPut b s).txSel = s.txSel := rfl
@[simp] theorem txPut_txPtr (b : Byte) (s : State) : (txPut b s).txPtr = s.txPtr := rfl
@[simp] theorem txPut_rxBuf (b : Byte) (s : State) : (txPut b s).rxBuf = s.rxBuf := rfl
@[simp] theorem txPut_rxIdx (b : Byte) (s : State) : (txPut b s).rxIdx = s.rxIdx := rfl
@[simp] theorem txPut_rxOvf (b : Byte) (s : State) : (txPut b s).rxOvf = s.rxOvf := rfl
@[simp] theorem txPut_rxTmoCnt (b : Byte) (s : State) : (txPut b s).rxTmoCnt = s.rxTmoCnt := rfl
@[simp] theorem txPut_expSel (b : Byte) (s : State) : (txPut b s).expSel = s.expSel := rfl
@[simp] theorem txPut_led (b : Byte) (s : State) : (txPut b s).led = s.led := rfl
@[simp] theorem txPut_dlyCnt (b : Byte) (s : State) : (txPut b s).dlyCnt = s.dlyCnt := rfl
@[simp] theorem txPut_motor (b : Byte) (s : State) : (txPut b s).motor = s.motor := rfl
@[simp] theorem txPut_servo (b : Byte) (s : State) : (txPut b s).servo = s.servo := rfl
@[simp] theorem txPut_angleCur (b : Byte) (s : State) : (txPut b s).angleCur = s.angleCur := rfl
@[simp] theorem txPut_rxStream (b : Byte) (s : State) : (txPut b s).rxStream = s.rxStream := rfl
@[simp] theorem txPut_txStream (b : Byte) (s : State) : (txPut b s).txStream = s.txStream ++ [b] := rfl
@[simp] theorem txPut_txReady (b : Byte) (s : State) : (txPut b s).txReady = s.txReady := rfl
@[simp] theorem txPut_btnIn (b : Byte) (s : State) : (txPut b s).btnIn = s.btnIn := rfl
@[simp] theorem txPut_schedule (b : Byte) (s : State) : (txPut b s).schedule = s.schedule := rfl
@[simp] theorem txPut_eventNo (b : Byte) (s : State) : (txPut b s).eventNo = s.eventNo := rfl
@[simp] theorem txPut_opDone (b : Byte) (s : State) : (txPut b s).opDone = s.opDone := rfl

/-! ## `peerBytes`: R76 -/

@[simp] theorem peerBytes_cfg (bs : List Byte) (s : State) : (peerBytes bs s).cfg = s.cfg := rfl
@[simp] theorem peerBytes_seq (bs : List Byte) (s : State) : (peerBytes bs s).seq = s.seq := rfl
@[simp] theorem peerBytes_curOp (bs : List Byte) (s : State) : (peerBytes bs s).curOp = s.curOp := rfl
@[simp] theorem peerBytes_fault (bs : List Byte) (s : State) : (peerBytes bs s).fault = s.fault := rfl
@[simp] theorem peerBytes_opStatus (bs : List Byte) (s : State) : (peerBytes bs s).opStatus = s.opStatus := rfl
@[simp] theorem peerBytes_opResult (bs : List Byte) (s : State) : (peerBytes bs s).opResult = s.opResult := rfl
@[simp] theorem peerBytes_txSel (bs : List Byte) (s : State) : (peerBytes bs s).txSel = s.txSel := rfl
@[simp] theorem peerBytes_txPtr (bs : List Byte) (s : State) : (peerBytes bs s).txPtr = s.txPtr := rfl
@[simp] theorem peerBytes_rxBuf (bs : List Byte) (s : State) : (peerBytes bs s).rxBuf = s.rxBuf := rfl
@[simp] theorem peerBytes_rxIdx (bs : List Byte) (s : State) : (peerBytes bs s).rxIdx = s.rxIdx := rfl
@[simp] theorem peerBytes_rxOvf (bs : List Byte) (s : State) : (peerBytes bs s).rxOvf = s.rxOvf := rfl
@[simp] theorem peerBytes_rxTmoCnt (bs : List Byte) (s : State) : (peerBytes bs s).rxTmoCnt = s.rxTmoCnt := rfl
@[simp] theorem peerBytes_expSel (bs : List Byte) (s : State) : (peerBytes bs s).expSel = s.expSel := rfl
@[simp] theorem peerBytes_led (bs : List Byte) (s : State) : (peerBytes bs s).led = s.led := rfl
@[simp] theorem peerBytes_dlyCnt (bs : List Byte) (s : State) : (peerBytes bs s).dlyCnt = s.dlyCnt := rfl
@[simp] theorem peerBytes_motor (bs : List Byte) (s : State) : (peerBytes bs s).motor = s.motor := rfl
@[simp] theorem peerBytes_servo (bs : List Byte) (s : State) : (peerBytes bs s).servo = s.servo := rfl
@[simp] theorem peerBytes_angleCur (bs : List Byte) (s : State) : (peerBytes bs s).angleCur = s.angleCur := rfl
@[simp] theorem peerBytes_rxStream (bs : List Byte) (s : State) : (peerBytes bs s).rxStream = s.rxStream ++ bs := rfl
@[simp] theorem peerBytes_txStream (bs : List Byte) (s : State) : (peerBytes bs s).txStream = s.txStream := rfl
@[simp] theorem peerBytes_txReady (bs : List Byte) (s : State) : (peerBytes bs s).txReady = s.txReady := rfl
@[simp] theorem peerBytes_btnIn (bs : List Byte) (s : State) : (peerBytes bs s).btnIn = s.btnIn := rfl
@[simp] theorem peerBytes_schedule (bs : List Byte) (s : State) : (peerBytes bs s).schedule = s.schedule := rfl
@[simp] theorem peerBytes_eventNo (bs : List Byte) (s : State) : (peerBytes bs s).eventNo = s.eventNo := rfl
@[simp] theorem peerBytes_opDone (bs : List Byte) (s : State) : (peerBytes bs s).opDone = s.opDone := rfl

/-! ## `setChan`: one channel, R140 -/

@[simp] theorem setChan_cfg (s : State) (ch : Ch) (c : Channel) : (s.setChan ch c).cfg = s.cfg := by cases ch <;> rfl
@[simp] theorem setChan_seq (s : State) (ch : Ch) (c : Channel) : (s.setChan ch c).seq = s.seq := by cases ch <;> rfl
@[simp] theorem setChan_curOp (s : State) (ch : Ch) (c : Channel) : (s.setChan ch c).curOp = s.curOp := by cases ch <;> rfl
@[simp] theorem setChan_fault (s : State) (ch : Ch) (c : Channel) : (s.setChan ch c).fault = s.fault := by cases ch <;> rfl
@[simp] theorem setChan_opStatus (s : State) (ch : Ch) (c : Channel) : (s.setChan ch c).opStatus = s.opStatus := by cases ch <;> rfl
@[simp] theorem setChan_opResult (s : State) (ch : Ch) (c : Channel) : (s.setChan ch c).opResult = s.opResult := by cases ch <;> rfl
@[simp] theorem setChan_txSel (s : State) (ch : Ch) (c : Channel) : (s.setChan ch c).txSel = s.txSel := by cases ch <;> rfl
@[simp] theorem setChan_txPtr (s : State) (ch : Ch) (c : Channel) : (s.setChan ch c).txPtr = s.txPtr := by cases ch <;> rfl
@[simp] theorem setChan_rxBuf (s : State) (ch : Ch) (c : Channel) : (s.setChan ch c).rxBuf = s.rxBuf := by cases ch <;> rfl
@[simp] theorem setChan_rxIdx (s : State) (ch : Ch) (c : Channel) : (s.setChan ch c).rxIdx = s.rxIdx := by cases ch <;> rfl
@[simp] theorem setChan_rxOvf (s : State) (ch : Ch) (c : Channel) : (s.setChan ch c).rxOvf = s.rxOvf := by cases ch <;> rfl
@[simp] theorem setChan_rxTmoCnt (s : State) (ch : Ch) (c : Channel) : (s.setChan ch c).rxTmoCnt = s.rxTmoCnt := by cases ch <;> rfl
@[simp] theorem setChan_expSel (s : State) (ch : Ch) (c : Channel) : (s.setChan ch c).expSel = s.expSel := by cases ch <;> rfl
@[simp] theorem setChan_led (s : State) (ch : Ch) (c : Channel) : (s.setChan ch c).led = s.led := by cases ch <;> rfl
@[simp] theorem setChan_dlyCnt (s : State) (ch : Ch) (c : Channel) : (s.setChan ch c).dlyCnt = s.dlyCnt := by cases ch <;> rfl
@[simp] theorem setChan_angleCur (s : State) (ch : Ch) (c : Channel) : (s.setChan ch c).angleCur = s.angleCur := by cases ch <;> rfl
@[simp] theorem setChan_rxStream (s : State) (ch : Ch) (c : Channel) : (s.setChan ch c).rxStream = s.rxStream := by cases ch <;> rfl
@[simp] theorem setChan_txStream (s : State) (ch : Ch) (c : Channel) : (s.setChan ch c).txStream = s.txStream := by cases ch <;> rfl
@[simp] theorem setChan_txReady (s : State) (ch : Ch) (c : Channel) : (s.setChan ch c).txReady = s.txReady := by cases ch <;> rfl
@[simp] theorem setChan_btnIn (s : State) (ch : Ch) (c : Channel) : (s.setChan ch c).btnIn = s.btnIn := by cases ch <;> rfl
@[simp] theorem setChan_schedule (s : State) (ch : Ch) (c : Channel) : (s.setChan ch c).schedule = s.schedule := by cases ch <;> rfl
@[simp] theorem setChan_eventNo (s : State) (ch : Ch) (c : Channel) : (s.setChan ch c).eventNo = s.eventNo := by cases ch <;> rfl
@[simp] theorem setChan_opDone (s : State) (ch : Ch) (c : Channel) : (s.setChan ch c).opDone = s.opDone := by cases ch <;> rfl

@[simp] theorem chan_setChan_same (s : State) (ch : Ch) (c : Channel) : (s.setChan ch c).chan ch = c := by
  cases ch <;> rfl

/-- R140: "the two channels share nothing". -/
theorem chan_setChan_other (s : State) {ch ch' : Ch} (h : ch' ≠ ch) (c : Channel) :
    (s.setChan ch c).chan ch' = s.chan ch' := by
  cases ch <;> cases ch' <;> first | rfl | exact absurd rfl h

@[simp] theorem chan_motor (s : State) : s.chan .motor = s.motor := rfl
@[simp] theorem chan_servo (s : State) : s.chan .servo = s.servo := rfl

/-! ## `raise`: taking an exception, R314 -/

@[simp] theorem raise_illegalOperation (code : Byte) (s : State) :
    raise (.illegalOperation code) s = complete .illegalOp (code.setWidth 32) s := rfl
@[simp] theorem raise_badArgument (s : State) : raise .badArgument s = complete .badArg 0 s := rfl
@[simp] theorem raise_rxBufferOverrun (s : State) : raise .rxBufferOverrun s = { s with fault := true } := rfl

/-! ## `takeEvent`: the event leaves the schedule -/

@[simp] theorem takeEvent_cfg (s : State) : (takeEvent s).cfg = s.cfg := by
  unfold takeEvent; split <;> rfl
@[simp] theorem takeEvent_seq (s : State) : (takeEvent s).seq = s.seq := by
  unfold takeEvent; split <;> rfl
@[simp] theorem takeEvent_curOp (s : State) : (takeEvent s).curOp = s.curOp := by
  unfold takeEvent; split <;> rfl
@[simp] theorem takeEvent_fault (s : State) : (takeEvent s).fault = s.fault := by
  unfold takeEvent; split <;> rfl
@[simp] theorem takeEvent_opStatus (s : State) : (takeEvent s).opStatus = s.opStatus := by
  unfold takeEvent; split <;> rfl
@[simp] theorem takeEvent_opResult (s : State) : (takeEvent s).opResult = s.opResult := by
  unfold takeEvent; split <;> rfl
@[simp] theorem takeEvent_txSel (s : State) : (takeEvent s).txSel = s.txSel := by
  unfold takeEvent; split <;> rfl
@[simp] theorem takeEvent_txPtr (s : State) : (takeEvent s).txPtr = s.txPtr := by
  unfold takeEvent; split <;> rfl
@[simp] theorem takeEvent_rxBuf (s : State) : (takeEvent s).rxBuf = s.rxBuf := by
  unfold takeEvent; split <;> rfl
@[simp] theorem takeEvent_rxIdx (s : State) : (takeEvent s).rxIdx = s.rxIdx := by
  unfold takeEvent; split <;> rfl
@[simp] theorem takeEvent_rxOvf (s : State) : (takeEvent s).rxOvf = s.rxOvf := by
  unfold takeEvent; split <;> rfl
@[simp] theorem takeEvent_rxTmoCnt (s : State) : (takeEvent s).rxTmoCnt = s.rxTmoCnt := by
  unfold takeEvent; split <;> rfl
@[simp] theorem takeEvent_expSel (s : State) : (takeEvent s).expSel = s.expSel := by
  unfold takeEvent; split <;> rfl
@[simp] theorem takeEvent_led (s : State) : (takeEvent s).led = s.led := by
  unfold takeEvent; split <;> rfl
@[simp] theorem takeEvent_dlyCnt (s : State) : (takeEvent s).dlyCnt = s.dlyCnt := by
  unfold takeEvent; split <;> rfl
@[simp] theorem takeEvent_motor (s : State) : (takeEvent s).motor = s.motor := by
  unfold takeEvent; split <;> rfl
@[simp] theorem takeEvent_servo (s : State) : (takeEvent s).servo = s.servo := by
  unfold takeEvent; split <;> rfl
@[simp] theorem takeEvent_angleCur (s : State) : (takeEvent s).angleCur = s.angleCur := by
  unfold takeEvent; split <;> rfl
@[simp] theorem takeEvent_rxStream (s : State) : (takeEvent s).rxStream = s.rxStream := by
  unfold takeEvent; split <;> rfl
@[simp] theorem takeEvent_txStream (s : State) : (takeEvent s).txStream = s.txStream := by
  unfold takeEvent; split <;> rfl
@[simp] theorem takeEvent_txReady (s : State) : (takeEvent s).txReady = s.txReady := by
  unfold takeEvent; split <;> rfl
@[simp] theorem takeEvent_btnIn (s : State) : (takeEvent s).btnIn = s.btnIn := by
  unfold takeEvent; split <;> rfl
@[simp] theorem takeEvent_opDone (s : State) : (takeEvent s).opDone = false := by
  unfold takeEvent; split <;> rfl

/-! ## `andThen` -/

@[simp] theorem andThen_next (s : State) (k : State → Result) : andThen (.next s) k = k s := rfl
@[simp] theorem andThen_fault (f : Fault) (k : State → Result) : andThen (.fault f) k = .fault f := rfl
@[simp] theorem andThen_refused (f : Refusal) (k : State → Result) : andThen (.refused f) k = .refused f := rfl

/-- A sequence answers a next state only through one of its first part. -/
theorem andThen_eq_next {r : Result} {k : State → Result} {t : State} (h : andThen r k = .next t) :
    ∃ s, r = .next s ∧ k s = .next t := by
  cases r with
  | next s => exact ⟨s, rfl, h⟩
  | fault f => cases h
  | refused f => cases h

end Sys2Proof.Machine
end

