-- ==== Sys2Proof/Laws/Invariant.lean ====
section
/-! SUPPORT. The invariant of Safety.lean, operation by operation: each shared operation and each event, from a state of
the invariant, answers a next state of the invariant. -/

namespace Sys2Proof.Machine

theorem PwmInv.of_eq {s t : State} (h : PwmInv s) (hc : t.cfg = s.cfg) (hm : t.motor = s.motor)
    (hs : t.servo = s.servo) (ha : t.angleCur = s.angleCur) : PwmInv t :=
  ⟨by rw [hc, hm]; exact h.motor, by rw [hc, hs]; exact h.servo, by rw [ha]; exact h.angle_le⟩

/-- The buffer's last cell holds 0x00. -/
abbrev EndZero (s : State) : Prop := memRead s (s.cfg.rxCap - 1) = 0x00

theorem BufferInv.of_eq {s t : State} (h : BufferInv s) (hc : t.cfg = s.cfg) (hi : t.rxIdx = s.rxIdx)
    (hb : t.rxBuf = s.rxBuf) (hs : t.seq = s.seq) (ho : t.rxOvf = s.rxOvf) : BufferInv t := by
  obtain ⟨a, b, c, d, e, f, g, j, k⟩ := h
  constructor <;> simp_all [memRead] <;> assumption

theorem BufferInv.leave {s t : State} (h : BufferInv s) (hc : t.cfg = s.cfg) (hi : t.rxIdx = s.rxIdx)
    (hb : t.rxBuf = s.rxBuf) (hs : t.seq ≠ .rx) (ho : t.rxOvf = s.rxOvf) (he : EndZero s)
    (hd : t.seq = .rxDrain → s.rxIdx = s.cfg.rxCap - 1 ∧ s.rxOvf = true) : BufferInv t := by
  obtain ⟨a, b, c, d, e, f, g, -, k⟩ := h
  constructor <;> simp_all [memRead, EndZero] <;> assumption

theorem BufferInv.endZero {s : State} (h : BufferInv s) (hs : s.seq ≠ .rx) : EndZero s := by
  cases hp : s.cfg.overflowPolicy with
  | capAndFlag => exact h.end_cap hp
  | legacyFault => exact h.end_legacy hp hs

theorem BufferInv.endZero_of_room {s : State} (h : BufferInv s) (hs : s.rxOvf = false) : EndZero s := by
  cases hp : s.cfg.overflowPolicy with
  | capAndFlag => exact h.end_cap hp
  | legacyFault => exact h.end_room hp hs

/-- R282: completing leaves the invariant, once the buffer ends in 0x00. -/
theorem BlockInv.complete {s : State} (h : BlockInv s) (he : EndZero s) (hf : s.fault = false) (st : Status) (r : Arg) :
    BlockInv (complete st r s) := by
  refine ⟨h.params, h.buffer.leave rfl rfl rfl (by simp) rfl he (by simp), ?_, h.pwm.of_eq rfl rfl rfl rfl⟩
  have := h.control.ptr_le
  have h2 := h.control.timeout_none
  constructor <;> simp_all [codeCtlPress, codeSerSend, timeoutRuns, receiving]

theorem opReady_iff {s : State} : opReady s = true ↔ s.seq = .idle ∧ s.fault = false := by
  simp [opReady]

theorem BlockInv.recvStart {s : State} (h : BlockInv s) (hop : s.curOp = codeSerRecv ∨ s.curOp = codeCtlPress)
    (hf : s.fault = false) : BlockInv (recvStart s) := by
  have hnil : s.rxBuf.clear s.cfg.rxCap = [] := Memory.clear_eq_nil h.buffer.in_buf
  refine ⟨h.params, ?_, ?_, h.pwm.of_eq rfl rfl rfl rfl⟩
  · have := h.params
    constructor <;> simp [memRead, hnil, isTerminator]
    · omega
    · exact Memory.wf_nil
  · obtain ⟨a, b, c, d, e, f, g, k, l, m, n, o⟩ := h.control
    have hp := h.params.2.2.2.1
    constructor <;> simp_all [timeoutRuns, receiving]
    · rcases hop with h | h <;> simp [h, codeSerRecv, codeCtlPress]
    · intro hs
      cases ht : s.cfg.rxTimeoutMs <;> simp_all


theorem ChannelInv.reset (b : Bool) : ChannelInv b Channel.reset := by
  constructor <;> simp [Channel.reset]

/-- Counting up below the largest value does not wrap. -/
theorem Half.toNat_succ {x : Half} (h : x.toNat < 65535) : BitVec.toNat (x + 1) = x.toNat + 1 := by
  rw [BitVec.toNat_add]
  simp
  omega

theorem ChannelInv.timTick {b : Bool} {c : Channel} (h : ChannelInv b c) : ChannelInv b c.timTick := by
  obtain ⟨h1, h2, h3, h4, h5⟩ := h
  unfold Channel.timTick
  split
  · split
    · refine ⟨h1, h2, ?_, h4, h5⟩
      have := c.psc.isLt
      show BitVec.toNat (c.pcnt + 1) ≤ c.psc.toNat
      rw [Half.toNat_succ (by omega)]
      omega
    · split
      · refine ⟨h1, ?_, by simp, h4, h5⟩
        show BitVec.toNat (c.cnt + 1) ≤ c.arr.toNat
        rw [Half.toNat_succ (by omega)]
        omega
      · exact ⟨h1, by simp, by simp, h4, h5⟩
  · exact ⟨h1, h2, h3, h4, h5⟩

theorem PwmInv.setChan {s : State} (h : PwmInv s) (ch : Ch) (c : Channel) (hc : ChannelInv (hasMoe s.cfg ch) c) :
    PwmInv (s.setChan ch c) := by
  cases ch
  · exact ⟨hc, h.servo, h.angle_le⟩
  · exact ⟨h.motor, hc, h.angle_le⟩

theorem PwmInv.chan {s : State} (h : PwmInv s) (ch : Ch) : ChannelInv (hasMoe s.cfg ch) (s.chan ch) := by
  cases ch
  · exact h.motor
  · exact h.servo

theorem ControlInv.of_eq {s t : State} (h : ControlInv s) (hc : t.cfg = s.cfg) (h1 : t.seq = s.seq)
    (h2 : t.curOp = s.curOp) (h3 : t.txPtr = s.txPtr) (h4 : t.txSel = s.txSel) (h5 : t.expSel = s.expSel)
    (h6 : t.led = s.led) (h7 : t.fault = s.fault) (h8 : t.dlyCnt = s.dlyCnt) (h9 : t.rxTmoCnt = s.rxTmoCnt) :
    ControlInv t := by
  have hr : timeoutRuns t = timeoutRuns s := by simp [timeoutRuns, receiving, *]
  obtain ⟨a, b, c, d, e, f, g, k, l, m, n, o⟩ := h
  constructor <;> (try simp only [hr]) <;> simp_all

/-- A change of one channel alone. -/
theorem BlockInv.setChan {s : State} (h : BlockInv s) (ch : Ch) (c : Channel) (hc : ChannelInv (hasMoe s.cfg ch) c) :
    BlockInv (s.setChan ch c) :=
  ⟨by simpa using h.params, h.buffer.of_eq (by simp) (by simp) (by simp) (by simp) (by simp),
   h.control.of_eq (by simp) (by simp) (by simp) (by simp) (by simp) (by simp) (by simp) (by simp) (by simp) (by simp),
   h.pwm.setChan ch c hc⟩

theorem dutyPercent_le (a : Arg) : dutyPercent a ≤ 100 := by
  unfold dutyPercent clamp; split
  · simp
  · split <;> omega

theorem angleDegrees_le (a : Arg) : angleDegrees a ≤ 180 := by
  unfold angleDegrees clamp; split
  · simp
  · split <;> omega

theorem BlockInv.pwmDuty {s : State} (h : BlockInv s) (hr : opReady s = true) (ch : Ch) (p : Arg) : BlockInv (pwmDuty ch p s) := by
  obtain ⟨hs, hf⟩ := opReady_iff.mp hr
  have hc := h.pwm.chan ch
  have hq := dutyPercent_le p
  unfold Machine.pwmDuty
  have h1 : BlockInv (s.setChan ch { s.chan ch with
      ccrPre := BitVec.ofNat 16 (dutyCompare (s.chan ch).arr.toNat (dutyPercent p))
      dutyCur := BitVec.ofNat 7 (dutyPercent p), setKind := .duty }) := by
    refine h.setChan ch _ ⟨?_, hc.cnt_le, hc.pcnt_le, hc.arr_le, hc.moe_off⟩
    simp only [BitVec.toNat_ofNat]
    omega
  exact h1.complete (h1.buffer.endZero (by simp [hs])) (by simp [hf]) _ _

theorem BlockInv.pwmAngle {s : State} (h : BlockInv s) (hr : opReady s = true) (a : Arg) : BlockInv (pwmAngle a s) := by
  obtain ⟨hs, hf⟩ := opReady_iff.mp hr
  have hq := angleDegrees_le a
  unfold Machine.pwmAngle
  have h1 : BlockInv { s with
      servo := { s.servo with ccrPre := BitVec.ofNat 16 (angleCompare s.cfg (angleDegrees a)), setKind := .angle }
      angleCur := BitVec.ofNat 8 (angleDegrees a) } := by
    have hc := h.pwm.servo
    refine ⟨h.params, h.buffer.of_eq rfl rfl rfl rfl rfl,
      h.control.of_eq rfl rfl rfl rfl rfl rfl rfl rfl rfl rfl, h.pwm.motor,
      ⟨hc.duty_le, hc.cnt_le, hc.pcnt_le, hc.arr_le, hc.moe_off⟩, ?_⟩
    simp only [BitVec.toNat_ofNat]
    omega
  exact h1.complete (h1.buffer.endZero (by simp [hs])) hf _ _

theorem BlockInv.pwmCfg {s : State} (h : BlockInv s) (hr : opReady s = true) (ch : Ch) (f : Arg) : BlockInv (pwmCfg ch f s) := by
  obtain ⟨hs, hf⟩ := opReady_iff.mp hr
  have hz := h.buffer.endZero (by simp [hs])
  unfold Machine.pwmCfg
  simp only
  split
  · rename_i hl
    have h1 : BlockInv (s.setChan ch ((s.chan ch).configure (hasMoe s.cfg ch)
        (cfgPrescaler (timerClockHz s.cfg ch) (tickRateHz s.cfg ch)) (cfgPeriod (tickRateHz s.cfg ch) (zext32 f)) f)) := by
      refine h.setChan ch _ ?_
      have hc := h.pwm.chan ch
      simp [cfgLegal] at hl
      constructor <;> simp [Channel.configure]
      · rw [Nat.mod_eq_of_lt] <;> simp [cfgPeriod] <;> omega
      · intro hm; simp [hm, hc.moe_off hm]
    exact h1.complete (h1.buffer.endZero (by simp [hs])) (by simp [hf]) _ _
  · exact h.complete hz hf _ _

/-- Every operation of the host port, from a ready state. -/
theorem BlockInv.execOp {s : State} (h : BlockInv s) (hr : opReady s = true) (i : Instr) (hi : ∀ b, encode i ≠ .line b) :
    ∃ t, exec i s = .next t ∧ BlockInv t := by
  obtain ⟨hs, hf⟩ := opReady_iff.mp hr
  have hz := h.buffer.endZero (by simp [hs])
  obtain ⟨hpar, hbuf, hctl, hpwm⟩ := h
  have h : BlockInv s := ⟨hpar, hbuf, hctl, hpwm⟩
  obtain ⟨a, b, c, d, e, f, g, k, l, m, n, o⟩ := hctl
  cases i with
  | nop => exact ⟨_, rfl, h.complete hz hf _ _⟩
  | pwmCfgMotor f => exact ⟨_, rfl, h.pwmCfg hr _ _⟩
  | pwmCfgServo f => exact ⟨_, rfl, h.pwmCfg hr _ _⟩
  | pwmDutyMotor f => exact ⟨_, rfl, h.pwmDuty hr _ _⟩
  | pwmDutyServo f => exact ⟨_, rfl, h.pwmDuty hr _ _⟩
  | pwmAngleServo a => exact ⟨_, rfl, h.pwmAngle hr _⟩
  | serSend arg =>
    show ∃ t, execSerSend arg s = .next t ∧ BlockInv t
    unfold execSerSend
    split
    · refine ⟨_, rfl, hpar, hbuf.leave rfl rfl rfl (by simp) rfl hz (by simp), ?_, hpwm.of_eq rfl rfl rfl rfl⟩
      constructor <;> simp_all [codeSerSend, codeCtlPress, timeoutRuns, receiving]
    · exact ⟨_, rfl, h.complete hz hf _ _⟩
  | serRecv =>
    show ∃ t, execSerRecv s = .next t ∧ BlockInv t
    refine ⟨_, rfl, ?_⟩
    have hnil : s.rxBuf.clear s.cfg.rxCap = [] := Memory.clear_eq_nil hbuf.in_buf
    refine ⟨h.params, ?_, ?_, h.pwm.of_eq rfl rfl rfl rfl⟩
    · constructor <;> simp [memRead, hnil, isTerminator]
      · omega
      · exact Memory.wf_nil
    · have hp := h.params.2.2.2.1
      constructor <;> simp_all [timeoutRuns, receiving, codeSerRecv, codeCtlPress]
      cases ht : s.cfg.rxTimeoutMs <;> simp_all
  | btnPoll =>
    show ∃ t, execBtnPoll s = .next t ∧ BlockInv t
    unfold execBtnPoll
    split
    · refine ⟨_, rfl, hpar, hbuf.leave rfl rfl rfl (by simp) rfl hz (by simp), ?_, hpwm.of_eq rfl rfl rfl rfl⟩
      constructor <;> simp_all [codeBtnPoll, codeCtlPress, timeoutRuns, receiving]
    · exact ⟨_, rfl, h.complete hz hf _ _⟩
  | ctlPress =>
    refine ⟨_, rfl, hpar, hbuf.leave rfl rfl rfl (by simp) rfl hz (by simp), ?_, hpwm.of_eq rfl rfl rfl rfl⟩
    constructor <;> simp_all [codeSerSend, codeCtlPress, timeoutRuns, receiving]
  | dlyMs n =>
    show ∃ t, execDlyMs n s = .next t ∧ BlockInv t
    unfold execDlyMs
    split
    · exact ⟨_, rfl, h.complete hz hf _ _⟩
    · rename_i hn
      refine ⟨_, rfl, hpar, hbuf.leave rfl rfl rfl (by simp) rfl hz (by simp), ?_, hpwm.of_eq rfl rfl rfl rfl⟩
      constructor <;> simp_all [codeDlyMs, codeCtlPress, timeoutRuns, receiving]
      intro h0; exact hn (by simp [zext32, h0])
  | requestOn => exact absurd rfl (hi _)
  | requestOff => exact absurd rfl (hi _)
  | confirmOn t => exact absurd rfl (hi _)
  | confirmOff t => exact absurd rfl (hi _)


/-- Writing 0x00 or a payload byte below the last cell. -/
theorem BlockInv.memWrite {s : State} (h : BlockInv s) {i : Nat} {b : Byte} (hi : i < s.cfg.rxCap)
    (hb : isTerminator b = false) (hz : b = 0x00 ∨ i < s.cfg.rxCap - 1) :
    memWrite s i b = .next { s with rxBuf := s.rxBuf.write i b } ∧ BlockInv { s with rxBuf := s.rxBuf.write i b } := by
  refine ⟨if_pos hi, h.params, ?_, h.control.of_eq rfl rfl rfl rfl rfl rfl rfl rfl rfl rfl, h.pwm.of_eq rfl rfl rfl rfl⟩
  have hrw := Memory.read_write h.buffer.wf i b
  have hend : ∀ j, (s.rxBuf.write i b).read j = if j = i then b else memRead s j := hrw
  have hlast : memRead s (s.cfg.rxCap - 1) = 0#8 → (s.rxBuf.write i b).read (s.cfg.rxCap - 1) = 0#8 := by
    intro h0
    rw [hend]; split
    · rcases hz with hz | hz
      · exact hz
      · omega
    · exact h0
  refine ⟨h.buffer.idx_lt, Memory.wf_write h.buffer.wf i b, fun c hc => ?_, fun j => ?_, fun hp => ?_, fun hp hs => ?_,
    fun hp ho => ?_, h.buffer.drain_idx, h.buffer.full_idx⟩
  · rcases Memory.mem_write hc with hc | ⟨hc, -⟩
    · exact h.buffer.in_buf c hc
    · rw [hc]; exact hi
  · show isTerminator ((s.rxBuf.write i b).read j) = false
    rw [hend]; split
    · exact hb
    · exact h.buffer.no_terminator j
  · exact hlast (h.buffer.end_cap hp)
  · exact hlast (h.buffer.end_legacy hp hs)
  · exact hlast (h.buffer.end_room hp ho)

theorem BlockInv.ctlFinish {s : State} (h : BlockInv s) (hz : EndZero s) (hf : s.fault = false) (st : Status) :
    BlockInv (ctlFinish st s) := by
  unfold Machine.ctlFinish
  refine ⟨h.params, h.buffer.leave rfl rfl rfl (by simp) rfl hz (by simp), ?_, h.pwm.of_eq rfl rfl rfl rfl⟩
  have := h.control.ptr_le
  have h2 := h.control.timeout_none
  constructor <;> simp_all [codeCtlPress, codeSerSend, timeoutRuns, receiving]

theorem BlockInv.recvEnd {s : State} (h : BlockInv s) (hz : EndZero s) (hf : s.fault = false) (st : Status) :
    BlockInv (recvEnd st s) := by
  unfold Machine.recvEnd
  split
  · exact h.complete hz hf _ _
  · exact h.ctlFinish hz hf _

theorem BlockInv.rxStream {s : State} (h : BlockInv s) (r : List Byte) : BlockInv { s with rxStream := r } :=
  ⟨h.params, h.buffer.of_eq rfl rfl rfl rfl rfl, h.control.of_eq rfl rfl rfl rfl rfl rfl rfl rfl rfl rfl,
   h.pwm.of_eq rfl rfl rfl rfl⟩

theorem cmdByte_some {sel : Bool} {p : BitVec 4} (h : p.toNat ≤ cmdLength sel) :
    ∃ c, cmdByte sel p.toNat = some c ∧ (c ≠ 0x00 → p.toNat < cmdLength sel) := by
  revert h
  cases sel <;> revert p <;> decide

theorem isTerminator_zero : isTerminator 0x00 = false := by decide

theorem BlockInv.txStep {s : State} (h : BlockInv s) (hs : s.seq = .tx) (hf : s.fault = false) :
    ∃ t, txStep s = .next t ∧ BlockInv t := by
  obtain ⟨c, hc, hlt⟩ := cmdByte_some h.control.ptr_le
  have hop := h.control.tx_op hs
  unfold Machine.txStep
  rw [hc]
  simp only
  split
  · split
    · exact ⟨_, rfl, h.complete (h.buffer.endZero (by simp [hs])) hf _ _⟩
    · exact ⟨_, rfl, h.recvStart (hop.imp_left (fun h => absurd h ‹_›)) hf⟩
  · split
    · rename_i hc0 _
      refine ⟨_, rfl, h.params, h.buffer.of_eq rfl rfl rfl rfl rfl, ?_, h.pwm.of_eq rfl rfl rfl rfl⟩
      have := hlt hc0
      have hle : cmdLength s.txSel ≤ 10 := by cases s.txSel <;> decide
      obtain ⟨a, b, c, d, e, f, g, k, l, m, n, o⟩ := h.control
      constructor <;> simp_all [timeoutRuns, receiving]
      omega
    · exact ⟨_, rfl, h⟩

theorem BlockInv.store {s : State} (h : BlockInv s) {b : Byte} (hb : isTerminator b = false) (hi : s.rxIdx < s.cfg.rxCap - 1)
    (hs : s.cfg.overflowPolicy = .legacyFault → s.rxOvf = false) :
    ∃ t, andThen (Machine.memWrite s s.rxIdx b) (fun t => .next { t with rxIdx := t.rxIdx + 1 }) = .next t ∧ BlockInv t := by
  obtain ⟨h1, h2⟩ := h.memWrite (i := s.rxIdx) (by omega) hb (.inr hi)
  rw [h1]
  refine ⟨_, rfl, h2.params, ?_, h2.control.of_eq rfl rfl rfl rfl rfl rfl rfl rfl rfl rfl, h2.pwm.of_eq rfl rfl rfl rfl⟩
  obtain ⟨a, b, c, d, e, f, g, j, k⟩ := h2.buffer
  refine ⟨?_, b, c, d, e, f, g, ?_, ?_⟩
  · show s.rxIdx + 1 < s.cfg.rxCap
    omega
  · intro hd
    have hidx : s.rxIdx = s.cfg.rxCap - 1 := (j hd).1
    omega
  · intro hp _ ho
    exact absurd ho (by simp [hs hp])

theorem BlockInv.endLine {s : State} (h : BlockInv s) (hf : s.fault = false) (ho : s.rxOvf = false) :
    ∃ t, andThen (Machine.memWrite s s.rxIdx 0x00) (fun t => .next (Machine.recvEnd .ok t)) = .next t ∧ BlockInv t := by
  obtain ⟨h1, h2⟩ := h.memWrite (i := s.rxIdx) h.buffer.idx_lt isTerminator_zero (.inl rfl)
  rw [h1]
  exact ⟨_, rfl, h2.recvEnd (h2.buffer.endZero_of_room ho) hf _⟩

theorem BlockInv.rxStep {s : State} (h : BlockInv s) (hs : s.seq = .rx) (hf : s.fault = false) :
    ∃ t, rxStep s = .next t ∧ BlockInv t := by
  unfold Machine.rxStep
  split
  · exact ⟨_, rfl, h⟩
  · rename_i b rest hr
    have h' := h.rxStream rest
    split
    · rename_i hp
      unfold rxStepCap
      split
      · obtain ⟨h1, h2⟩ := h'.memWrite (i := s.rxIdx) h.buffer.idx_lt isTerminator_zero (.inl rfl)
        rw [h1]
        exact ⟨_, rfl, h2.recvEnd (h2.buffer.end_cap hp) hf _⟩
      · rename_i hb
        have hb : isTerminator b = false := by simpa using hb
        split
        · rename_i hi
          exact h'.store hb hi (fun hl => by simp [hp] at hl)
        · have h2 : BlockInv (setOverflow { s with rxStream := rest }) := by
            refine ⟨h.params, ?_, h.control.of_eq rfl rfl rfl rfl rfl rfl rfl rfl rfl rfl, h.pwm.of_eq rfl rfl rfl rfl⟩
            obtain ⟨a, b, c, d, e, f, g, j, k⟩ := h.buffer
            refine ⟨a, b, c, d, e, f, fun hl => ?_, fun hd => ⟨(j hd).1, rfl⟩, fun hl => ?_⟩ <;> simp [hp] at hl
          have hlast : s.rxIdx = s.cfg.rxCap - 1 := by
            have h1 := h.buffer.idx_lt
            have h2 : ¬ s.rxIdx < s.cfg.rxCap - 1 := ‹_›
            omega
          obtain ⟨h3, h4⟩ := h2.memWrite (i := s.rxIdx) h.buffer.idx_lt isTerminator_zero (.inl rfl)
          rw [show ({ s with rxStream := rest } : State).rxIdx = s.rxIdx from rfl, h3]
          refine ⟨_, rfl, h4.params, h4.buffer.leave rfl rfl rfl (by simp) rfl (h4.buffer.end_cap hp)
            (fun _ => ⟨hlast, rfl⟩), ?_, h4.pwm.of_eq rfl rfl rfl rfl⟩
          obtain ⟨a, b, c, d, e, f, g, k, l, m, n, o⟩ := h.control
          have hop := c (.inl hs)
          constructor <;> simp_all [timeoutRuns, receiving]
    · rename_i hp
      unfold rxStepLegacy
      split
      · refine ⟨_, rfl, h.params, h.buffer.of_eq rfl rfl rfl rfl rfl, ?_, h.pwm.of_eq rfl rfl rfl rfl⟩
        obtain ⟨a, b, c, d, e, f, g, k, l, m, n, o⟩ := h.control
        constructor <;> simp_all [timeoutRuns, receiving]
      · rename_i ho
        have ho : s.rxOvf = false := by simpa using ho
        split
        · exact h'.endLine hf ho
        · rename_i hb
          have hb : isTerminator b = false := by simpa using hb
          split
          · rename_i hi
            exact h'.store hb hi (fun _ => ho)
          · rename_i hi
            have hi : ¬ s.rxIdx < s.cfg.rxCap - 1 := hi
            have hidx := h.buffer.idx_lt
            have hcap := h.params.1
            have hmw : Machine.memWrite { s with rxStream := rest } (s.cfg.rxCap - 1) b =
              .next { s with rxStream := rest, rxBuf := s.rxBuf.write (s.cfg.rxCap - 1) b } := if_pos (show s.cfg.rxCap - 1 < s.cfg.rxCap by omega)
            rw [show ({ s with rxStream := rest } : State).cfg.rxCap = s.cfg.rxCap from rfl, hmw]
            refine ⟨_, rfl, h.params, ?_, h.control.of_eq rfl rfl rfl rfl rfl rfl rfl rfl rfl rfl, h.pwm.of_eq rfl rfl rfl rfl⟩
            have hrw := Memory.read_write h.buffer.wf (s.cfg.rxCap - 1) b
            refine ⟨hidx, Memory.wf_write h.buffer.wf _ _, fun c hc => ?_, fun j => ?_, fun hl => ?_, fun _ hl => ?_, fun _ hl => ?_,
              fun hl => (by rw [show _ = SeqState.rx from hs] at hl; cases hl), fun _ _ _ => ?_⟩
            · rcases Memory.mem_write hc with hc | ⟨hc, -⟩
              · exact h.buffer.in_buf c hc
              · rw [hc]; show s.cfg.rxCap - 1 < s.cfg.rxCap; omega
            · show isTerminator ((s.rxBuf.write (s.cfg.rxCap - 1) b).read j) = false
              rw [hrw]; split
              · exact hb
              · exact h.buffer.no_terminator j
            · simp [hp] at hl
            · exact absurd hs hl
            · simp at hl
            · show s.rxIdx = s.cfg.rxCap - 1
              omega

theorem BlockInv.drainStep {s : State} (h : BlockInv s) (hs : s.seq = .rxDrain) (hf : s.fault = false) :
    ∃ t, drainStep s = .next t ∧ BlockInv t := by
  unfold Machine.drainStep
  split
  · exact ⟨_, rfl, h⟩
  · rename_i b rest hr
    have h' := h.rxStream rest
    split
    · exact ⟨_, rfl, h'.recvEnd (h'.buffer.endZero (by simp [hs])) hf _⟩
    · exact ⟨_, rfl, h'⟩

theorem BlockInv.dbPressedStep {s : State} (h : BlockInv s) (hs : s.seq = .dbPressed) (hf : s.fault = false) :
    BlockInv (dbPressedStep s) := by
  unfold Machine.dbPressedStep
  split
  · exact h
  · refine ⟨h.params, h.buffer.leave rfl rfl rfl (by simp) rfl (h.buffer.endZero (by simp [hs])) (by simp), ?_, h.pwm.of_eq rfl rfl rfl rfl⟩
    have hp := h.params.2.2.1
    obtain ⟨a, b, c, d, e, f, g, k, l, m, n, o⟩ := h.control
    constructor <;> simp_all [timeoutRuns, receiving, codeBtnPoll, codeCtlPress]

theorem BlockInv.seqEvent {s : State} (h : BlockInv s) : ∃ t, seqEvent s = .next t ∧ BlockInv t := by
  unfold Machine.seqEvent
  split
  · exact ⟨_, rfl, h⟩
  · rename_i hf
    have hf : s.fault = false := by simpa using hf
    split
    · exact ⟨_, rfl, h⟩
    · exact h.txStep ‹_› hf
    · exact h.rxStep ‹_› hf
    · exact h.drainStep ‹_› hf
    · exact ⟨_, rfl, h.dbPressedStep ‹_› hf⟩
    · exact ⟨_, rfl, h⟩
    · exact ⟨_, rfl, h⟩

theorem BlockInv.delayTick {s : State} (h : BlockInv s) (hs : s.seq = .dly ∨ s.seq = .dbReleased) :
    BlockInv (delayTick s) := by
  have hrx : s.seq ≠ .rx := by rcases hs with h | h <;> simp [h]
  have hf : s.fault = false := by
    by_contra hc
    exact hrx (h.control.fault_rx (by simpa using hc)).2
  unfold Machine.delayTick
  simp only
  split
  · split <;>
    · refine ⟨h.params, h.buffer.leave rfl rfl rfl (by simp) rfl (h.buffer.endZero hrx) (by simp), ?_, h.pwm.of_eq rfl rfl rfl rfl⟩
      have := h.control.ptr_le
      have h2 := h.control.timeout_none
      constructor <;> simp_all [codeCtlPress, codeSerSend, timeoutRuns, receiving]
  · rename_i hd
    refine ⟨h.params, h.buffer.of_eq rfl rfl rfl rfl rfl, ?_, h.pwm.of_eq rfl rfl rfl rfl⟩
    obtain ⟨a, b, c, d, e, f, g, k, l, m, n, o⟩ := h.control
    constructor <;> simp_all [timeoutRuns, receiving]

theorem BlockInv.timeoutTick {s : State} (h : BlockInv s) (hr : timeoutRuns s = true) : ∃ t, timeoutTick s = .next t ∧ BlockInv t := by
  have hr' := hr
  simp [timeoutRuns, receiving] at hr'
  obtain ⟨⟨hs, ht⟩, hf⟩ := hr'
  unfold Machine.timeoutTick
  split
  · have hidx := h.buffer.idx_lt
    have hmw : Machine.memWrite { s with rxTmoCnt := s.rxTmoCnt - 1 } s.rxIdx 0x00 =
       .next { s with rxTmoCnt := s.rxTmoCnt - 1, rxBuf := s.rxBuf.write s.rxIdx 0x00 } := if_pos hidx
    rw [hmw]
    refine ⟨_, rfl, ?_⟩
    obtain ⟨h1, h2⟩ := h.memWrite (i := s.rxIdx) hidx isTerminator_zero (.inl rfl)
    have hz : EndZero { s with rxBuf := s.rxBuf.write s.rxIdx 0x00 } := by
      rcases hs with hs | hs
      · cases ho : s.rxOvf with
        | false => exact h2.buffer.endZero_of_room ho
        | true =>
          cases hp : s.cfg.overflowPolicy with
          | capAndFlag => exact h2.buffer.end_cap hp
          | legacyFault =>
            show (s.rxBuf.write s.rxIdx 0x00).read (s.cfg.rxCap - 1) = 0x00
            rw [Memory.read_write h.buffer.wf, if_pos (h.buffer.full_idx hp hs ho).symm]
      · exact h2.buffer.endZero (by simp [hs])
    have hc : ∀ (u : State) (st : Status), ControlInv s → u.seq = .idle → u.curOp = 0 → u.txPtr = s.txPtr → u.txSel = s.txSel
        → u.fault = false → u.cfg = s.cfg → u.rxTmoCnt = s.rxTmoCnt - 1 → ControlInv u := by
      intro u st hc h1 h2 h3 h4 h5 h6 h7
      have := hc.ptr_le
      constructor <;> simp_all [codeCtlPress, codeSerSend, timeoutRuns, receiving]
    unfold Machine.recvEnd
    split
    · exact ⟨h2.params, h2.buffer.leave rfl rfl rfl (by simp) rfl hz (by simp), hc _ .rxTimeout h.control rfl rfl rfl rfl hf rfl rfl, h.pwm.of_eq rfl rfl rfl rfl⟩
    · exact ⟨h2.params, h2.buffer.leave rfl rfl rfl (by simp [Machine.ctlFinish]) rfl hz (by simp [Machine.ctlFinish]), hc _ .rxTimeout h.control rfl rfl rfl rfl hf rfl rfl, h.pwm.of_eq rfl rfl rfl rfl⟩
  · refine ⟨_, rfl, h.params, h.buffer.of_eq rfl rfl rfl rfl rfl, ?_, h.pwm.of_eq rfl rfl rfl rfl⟩
    obtain ⟨a, b, c, d, e, f, g, k, l, m, n, o⟩ := h.control
    constructor <;> simp_all [timeoutRuns, receiving]

theorem BlockInv.tick1ms {s : State} (h : BlockInv s) : ∃ t, tick1ms s = .next t ∧ BlockInv t := by
  unfold Machine.tick1ms
  split
  · exact ⟨_, rfl, h.delayTick ‹_›⟩
  · split
    · exact h.timeoutTick ‹_›
    · exact ⟨_, rfl, h⟩

theorem BlockInv.seqBurst {s : State} (h : BlockInv s) (k : Nat) : ∃ t, seqBurst k s = .next t ∧ BlockInv t := by
  induction k generalizing s with
  | zero => exact ⟨_, rfl, h⟩
  | succ k ih =>
    obtain ⟨t, h1, h2⟩ := h.seqEvent
    obtain ⟨u, h3, h4⟩ := ih h2
    exact ⟨u, by rw [Machine.seqBurst, h1, andThen_next, h3], h4⟩

theorem BlockInv.recvBurst {s : State} (h : BlockInv s) (k : Nat) : ∃ t, recvBurst k s = .next t ∧ BlockInv t := by
  induction k generalizing s with
  | zero => exact ⟨_, rfl, h⟩
  | succ k ih =>
    rw [Machine.recvBurst]
    split
    · obtain ⟨t, h1, h2⟩ := h.seqEvent
      obtain ⟨u, h3, h4⟩ := ih h2
      exact ⟨u, by rw [h1, andThen_next, h3], h4⟩
    · exact ⟨_, rfl, h⟩

theorem BlockInv.receiveLine {s : State} (h : BlockInv s) (b : List Byte) : ∃ t, receiveLine b s = .next t ∧ BlockInv t :=
  (h.rxStream _).recvBurst _

theorem BlockInv.sendLine {s : State} (h : BlockInv s) (b : Bool) : ∃ t, sendLine b s = .next t ∧ BlockInv t := by
  unfold Machine.sendLine
  split
  · exact h.seqBurst _
  · exact ⟨_, rfl, h⟩

theorem decodeOp_not_line {w : OpWord} {i : Instr} (h : decodeOp w = .ok i) : ∀ b, encode i ≠ .line b := by
  unfold decodeOp at h
  simp only at h
  (repeat' split at h) <;> cases h
  all_goals
    intro b hb
    cases hb

theorem BlockInv.hostEvent {s : State} (h : BlockInv s) (w : OpWord) : ∃ t, hostEvent w s = .next t ∧ BlockInv t := by
  unfold Machine.hostEvent
  split
  · rename_i hr
    obtain ⟨hs, hf⟩ := opReady_iff.mp hr
    split
    · rename_i i hi
      exact h.execOp hr i (decodeOp_not_line hi)
    · exact ⟨_, rfl, h.complete (h.buffer.endZero (by simp [hs])) hf _ _⟩
  · exact ⟨_, rfl, h⟩

theorem BlockInv.env {s : State} (h : BlockInv s) (a b : List Byte) (c d : Bool) (e : List Event) (f : Nat) (g : Bool) :
    BlockInv { s with rxStream := a, txStream := b, txReady := c, btnIn := d, schedule := e, eventNo := f, opDone := g } :=
  ⟨h.params, h.buffer.of_eq rfl rfl rfl rfl rfl, h.control.of_eq rfl rfl rfl rfl rfl rfl rfl rfl rfl rfl,
   h.pwm.of_eq rfl rfl rfl rfl⟩

theorem BlockInv.resetWith {p : Params} (hp : p.InRange) : BlockInv (State.resetWith p) := by
  refine ⟨hp, ?_, ?_, ⟨ChannelInv.reset _, ChannelInv.reset _, by simp [State.resetWith]⟩⟩
  · constructor <;> simp [State.resetWith, memRead, isTerminator]
    · have := hp.1; omega
    · exact Memory.wf_nil
  · constructor <;> simp [State.resetWith, codeCtlPress, timeoutRuns, receiving]

theorem BlockInv.lineEvent {s : State} (h : BlockInv s) (b : List Byte) : ∃ t, lineEvent b s = .next t ∧ BlockInv t := by
  unfold Machine.lineEvent
  split
  · rename_i i hi
    simp only [decode, decodeLine] at hi
    (repeat' split at hi) <;> simp at hi <;> subst hi
    · exact h.sendLine true
    · exact h.sendLine false
    all_goals exact h.receiveLine _
  · exact h.receiveLine _

theorem BlockInv.applyEvent {s : State} (h : BlockInv s) (e : Event) : ∃ t, applyEvent e s = .next t ∧ BlockInv t := by
  cases e with
  | host w => exact h.hostEvent w
  | hostIfPressed w =>
    show ∃ t, hostIfPressedEvent w s = .next t ∧ BlockInv t
    unfold hostIfPressedEvent
    split
    · exact h.hostEvent w
    · exact ⟨_, rfl, h⟩
  | line b => exact h.lineEvent b
  | seq => exact h.seqEvent
  | tick1ms => exact h.tick1ms
  | timTick ch => exact ⟨_, rfl, h.setChan ch _ (h.pwm.chan ch).timTick⟩
  | peerByte b => exact ⟨_, rfl, h.rxStream _⟩
  | peerTake => exact ⟨_, rfl, h.env _ _ _ _ _ _ _⟩
  | refPeer =>
    refine ⟨_, rfl, ?_⟩
    unfold refPeer
    split
    · exact h.env _ _ _ _ _ _ _
    · exact h
  | txReady v => exact ⟨_, rfl, h.env _ _ _ _ _ _ _⟩
  | btn v => exact ⟨_, rfl, h.env _ _ _ _ _ _ _⟩
  | reset => exact ⟨_, rfl, (BlockInv.resetWith h.params).env _ _ _ _ _ _ _⟩

end Sys2Proof.Machine
end

