-- ==== Sys2Proof/Laws/PerInstr.lean ====
section
/-! SUPPORT. Facts about every instruction as syntax, one lemma per constructor. The family `TableEncoding`: the code of a
well-formed instruction has the width of its row of spec/opcode_table.json and agrees with the row's match under its
mask (the rows of the inbound messages give the free terminator byte a value in `match`). -/

namespace Sys2Proof.Laws.TableEncoding

/-- The encoding fits the instruction's row of the opcode table. -/
def Statement (i : Instr) : Prop :=
  i.wf = true →
    bitsOfCode (encode i) = (tableRow i).widthBits ∧
    numberOfCode (encode i) &&& (tableRow i).mask = (tableRow i).pattern &&& (tableRow i).mask

/-- A word under a mask that covers its code and, of its operand, only bits that are 0. -/
theorem masked (c : Byte) (a m : Arg) (h : a &&& m = 0) :
    (opWordOf c a).toNat &&& (opWordOf 0xFF m).toNat = (opWordOf c 0).toNat := by
  rw [← BitVec.toNat_and]
  congr 1
  refine BitVec.eq_of_getLsbD_eq fun i hi => ?_
  rw [BitVec.getLsbD_and, getLsbD_opWordOf, getLsbD_opWordOf, getLsbD_opWordOf]
  split
  · rw [← BitVec.getLsbD_and, h]
  · have h8 : i - 32 < 8 := by omega
    have : ∀ k, k < 8 → (0xFF#8).getLsbD k = true := by decide
    rw [show (0xFF : Byte) = 0xFF#8 from rfl, this _ h8, Bool.and_true]

/-- The row's mask covers the code alone. -/
theorem masked_code (c : Byte) (a : Arg) :
    (opWordOf c a).toNat &&& 0xFF00000000 = (opWordOf c 0).toNat &&& 0xFF00000000 :=
  (masked c a 0 (by simp)).trans (masked c 0 0 (by simp)).symm

theorem nop : Statement .nop := fun _ => ⟨rfl, masked_code codeNop 0⟩
theorem pwmCfgMotor (f : Arg) : Statement (.pwmCfgMotor f) := fun _ => ⟨rfl, masked_code codePwmCfgMotor f⟩
theorem pwmCfgServo (f : Arg) : Statement (.pwmCfgServo f) := fun _ => ⟨rfl, masked_code codePwmCfgServo f⟩
theorem pwmDutyMotor (p : Arg) : Statement (.pwmDutyMotor p) := fun _ => ⟨rfl, masked_code codePwmDutyMotor p⟩
theorem pwmDutyServo (p : Arg) : Statement (.pwmDutyServo p) := fun _ => ⟨rfl, masked_code codePwmDutyServo p⟩
theorem pwmAngleServo (a : Arg) : Statement (.pwmAngleServo a) := fun _ => ⟨rfl, masked_code codePwmAngleServo a⟩

theorem serSend (arg : Arg) : Statement (.serSend arg) := by
  intro hwf
  refine ⟨rfl, (masked codeSerSend arg 0xFFFFFFFE ?_).trans (show _ = 0x2000000000 &&& 0xFFFFFFFFFE by decide)⟩
  have h : arg.extractLsb' 1 31 = 0#31 := by simpa [Instr.wf] using hwf
  refine BitVec.eq_of_getLsbD_eq fun i hi => ?_
  rw [BitVec.getLsbD_and]
  cases i with
  | zero => simp
  | succ k =>
    have hk := congrArg (fun v => v.getLsbD k) h
    simp only [BitVec.getLsbD_extractLsb', BitVec.getLsbD_zero, show k < 31 by omega, decide_true, Bool.true_and] at hk
    simp [Nat.add_comm k 1, hk]

theorem serRecv : Statement .serRecv := fun _ => ⟨rfl, masked_code codeSerRecv 0⟩
theorem btnPoll : Statement .btnPoll := fun _ => ⟨rfl, masked_code codeBtnPoll 0⟩
theorem ctlPress : Statement .ctlPress := fun _ => ⟨rfl, masked_code codeCtlPress 0⟩
theorem dlyMs (n : Arg) : Statement (.dlyMs n) := fun _ => ⟨rfl, masked_code codeDlyMs n⟩
theorem requestOn : Statement .requestOn := fun _ => by decide
theorem requestOff : Statement .requestOff := fun _ => by decide

theorem confirmOn (t : Byte) : Statement (.confirmOn t) := by
  intro hwf
  have h : t = 0x0A#8 ∨ t = 0x0D#8 := by simpa [Instr.wf] using hwf
  rcases h with h | h <;> subst h <;> decide

theorem confirmOff (t : Byte) : Statement (.confirmOff t) := by
  intro hwf
  have h : t = 0x0A#8 ∨ t = 0x0D#8 := by simpa [Instr.wf] using hwf
  rcases h with h | h <;> subst h <;> decide

end Sys2Proof.Laws.TableEncoding
end

