-- ==== Sys2Proof/Laws/Steps.lean ====
section
/-! SUPPORT. One inversion lemma for each event that moves the block: everything it can do when it answers a next state,
guards included. A proof about every step cites these and unfolds no operation. -/

namespace Sys2Proof.Machine

theorem memWrite_eq_next {s t : State} {i : Nat} {b : Byte} (h : memWrite s i b = .next t) :
    i < s.cfg.rxCap ∧ t = { s with rxBuf := s.rxBuf.write i b } := by
  unfold memWrite at h
  split at h
  · exact ⟨‹_›, by cases h; rfl⟩
  · cases h

/-- R228, R256: the end of a receive completes; the LED changes only in a confirmed `CTL.PRESS`. -/
theorem recvEnd_cases (st : Status) (s : State) : ∃ r l, recvEnd st s = complete st r { s with led := l } ∧
    (l = s.led ∨ s.curOp ≠ codeSerRecv ∧ st = .ok ∧ response s = strOf (confRom s.expSel) ∧ l = !s.led) := by
  unfold recvEnd
  split
  · exact ⟨_, s.led, rfl, .inl rfl⟩
  · unfold ctlFinish
    refine ⟨_, _, rfl, ?_⟩
    by_cases hm : confirmed st s = true
    · refine .inr ⟨‹_›, ?_⟩
      have h := hm
      simp only [confirmed, Bool.and_eq_true, decide_eq_true_eq] at h
      exact ⟨h.1, h.2, by simp [hm]⟩
    · exact .inl (by simp [hm])

/-! ## `recvEnd`: the end of a receive, R228 -/

@[simp] theorem recvEnd_cfg (st : Status) (s : State) : (recvEnd st s).cfg = s.cfg := by
  obtain ⟨r, l, h, -⟩ := recvEnd_cases st s
  rw [h]
  rfl

@[simp] theorem recvEnd_seq (st : Status) (s : State) : (recvEnd st s).seq = .idle := by
  obtain ⟨r, l, h, -⟩ := recvEnd_cases st s
  rw [h]
  rfl

@[simp] theorem recvEnd_curOp (st : Status) (s : State) : (recvEnd st s).curOp = 0x00 := by
  obtain ⟨r, l, h, -⟩ := recvEnd_cases st s
  rw [h]
  rfl

@[simp] theorem recvEnd_fault (st : Status) (s : State) : (recvEnd st s).fault = s.fault := by
  obtain ⟨r, l, h, -⟩ := recvEnd_cases st s
  rw [h]
  rfl

@[simp] theorem recvEnd_opStatus (st : Status) (s : State) : (recvEnd st s).opStatus = st := by
  obtain ⟨r, l, h, -⟩ := recvEnd_cases st s
  rw [h]
  rfl

@[simp] theorem recvEnd_txSel (st : Status) (s : State) : (recvEnd st s).txSel = s.txSel := by
  obtain ⟨r, l, h, -⟩ := recvEnd_cases st s
  rw [h]
  rfl

@[simp] theorem recvEnd_txPtr (st : Status) (s : State) : (recvEnd st s).txPtr = s.txPtr := by
  obtain ⟨r, l, h, -⟩ := recvEnd_cases st s
  rw [h]
  rfl

@[simp] theorem recvEnd_rxBuf (st : Status) (s : State) : (recvEnd st s).rxBuf = s.rxBuf := by
  obtain ⟨r, l, h, -⟩ := recvEnd_cases st s
  rw [h]
  rfl

@[simp] theorem recvEnd_rxIdx (st : Status) (s : State) : (recvEnd st s).rxIdx = s.rxIdx := by
  obtain ⟨r, l, h, -⟩ := recvEnd_cases st s
  rw [h]
  rfl

@[simp] theorem recvEnd_rxOvf (st : Status) (s : State) : (recvEnd st s).rxOvf = s.rxOvf := by
  obtain ⟨r, l, h, -⟩ := recvEnd_cases st s
  rw [h]
  rfl

@[simp] theorem recvEnd_rxTmoCnt (st : Status) (s : State) : (recvEnd st s).rxTmoCnt = s.rxTmoCnt := by
  obtain ⟨r, l, h, -⟩ := recvEnd_cases st s
  rw [h]
  rfl

@[simp] theorem recvEnd_expSel (st : Status) (s : State) : (recvEnd st s).expSel = s.expSel := by
  obtain ⟨r, l, h, -⟩ := recvEnd_cases st s
  rw [h]
  rfl

@[simp] theorem recvEnd_dlyCnt (st : Status) (s : State) : (recvEnd st s).dlyCnt = s.dlyCnt := by
  obtain ⟨r, l, h, -⟩ := recvEnd_cases st s
  rw [h]
  rfl

@[simp] theorem recvEnd_motor (st : Status) (s : State) : (recvEnd st s).motor = s.motor := by
  obtain ⟨r, l, h, -⟩ := recvEnd_cases st s
  rw [h]
  rfl

@[simp] theorem recvEnd_servo (st : Status) (s : State) : (recvEnd st s).servo = s.servo := by
  obtain ⟨r, l, h, -⟩ := recvEnd_cases st s
  rw [h]
  rfl

@[simp] theorem recvEnd_angleCur (st : Status) (s : State) : (recvEnd st s).angleCur = s.angleCur := by
  obtain ⟨r, l, h, -⟩ := recvEnd_cases st s
  rw [h]
  rfl

@[simp] theorem recvEnd_rxStream (st : Status) (s : State) : (recvEnd st s).rxStream = s.rxStream := by
  obtain ⟨r, l, h, -⟩ := recvEnd_cases st s
  rw [h]
  rfl

@[simp] theorem recvEnd_txStream (st : Status) (s : State) : (recvEnd st s).txStream = s.txStream := by
  obtain ⟨r, l, h, -⟩ := recvEnd_cases st s
  rw [h]
  rfl

@[simp] theorem recvEnd_txReady (st : Status) (s : State) : (recvEnd st s).txReady = s.txReady := by
  obtain ⟨r, l, h, -⟩ := recvEnd_cases st s
  rw [h]
  rfl

@[simp] theorem recvEnd_btnIn (st : Status) (s : State) : (recvEnd st s).btnIn = s.btnIn := by
  obtain ⟨r, l, h, -⟩ := recvEnd_cases st s
  rw [h]
  rfl

@[simp] theorem recvEnd_schedule (st : Status) (s : State) : (recvEnd st s).schedule = s.schedule := by
  obtain ⟨r, l, h, -⟩ := recvEnd_cases st s
  rw [h]
  rfl

@[simp] theorem recvEnd_eventNo (st : Status) (s : State) : (recvEnd st s).eventNo = s.eventNo := by
  obtain ⟨r, l, h, -⟩ := recvEnd_cases st s
  rw [h]
  rfl

@[simp] theorem recvEnd_opDone (st : Status) (s : State) : (recvEnd st s).opDone = true := by
  obtain ⟨r, l, h, -⟩ := recvEnd_cases st s
  rw [h]
  rfl

/-! ## The events -/

/-- R262: everything the `Seq` event can do. -/
theorem seqEvent_cases {s t : State} (h : seqEvent s = .next t) : t = s ∨ s.fault = false ∧ (
    (s.seq = .tx ∧ ∃ c, cmdByte s.txSel s.txPtr.toNat = some c ∧
      (c = 0x00#8 ∧ s.curOp = codeSerSend ∧ t = complete .ok (s.txPtr.setWidth 32) s ∨
       c = 0x00#8 ∧ s.curOp ≠ codeSerSend ∧ t = recvStart s ∨
       c ≠ 0x00#8 ∧ s.txReady = true ∧ t = { txPut c s with txPtr := s.txPtr + 1 })) ∨
    (s.seq = .rx ∧ ∃ b rest, s.rxStream = b :: rest ∧
      (isTerminator b = true ∧ s.rxIdx < s.cfg.rxCap ∧
          t = recvEnd .ok { s with rxStream := rest, rxBuf := s.rxBuf.write s.rxIdx 0x00 } ∨
       isTerminator b = false ∧ s.rxIdx < s.cfg.rxCap - 1 ∧
          t = { s with rxStream := rest, rxBuf := s.rxBuf.write s.rxIdx b, rxIdx := s.rxIdx + 1 } ∨
       s.cfg.overflowPolicy = .capAndFlag ∧ isTerminator b = false ∧ s.rxIdx < s.cfg.rxCap ∧
          t = { s with
            rxStream := rest, rxOvf := true, rxBuf := s.rxBuf.write s.rxIdx 0x00, seq := .rxDrain } ∨
       s.cfg.overflowPolicy = .legacyFault ∧ s.rxOvf = true ∧ t = { s with rxStream := rest, fault := true } ∨
       s.cfg.overflowPolicy = .legacyFault ∧ s.rxOvf = false ∧ isTerminator b = false ∧ 0 < s.cfg.rxCap ∧
          t = { s with rxStream := rest, rxBuf := s.rxBuf.write (s.cfg.rxCap - 1) b, rxOvf := true })) ∨
    (s.seq = .rxDrain ∧ ∃ b rest, s.rxStream = b :: rest ∧
      (isTerminator b = true ∧ t = recvEnd .lineTooLong { s with rxStream := rest } ∨
       isTerminator b = false ∧ t = { s with rxStream := rest })) ∨
    (s.seq = .dbPressed ∧ btnPressed s = false ∧ t = { s with dlyCnt := s.cfg.settleMs, seq := .dbReleased })) := by
  unfold seqEvent at h
  split at h
  · cases h; exact .inl rfl
  rename_i hf
  have hf : s.fault = false := by simpa using hf
  split at h
  · cases h; exact .inl rfl
  · rename_i hs
    unfold txStep at h
    split at h
    · cases h
    · rename_i c hc
      split at h
      · rename_i h0
        split at h
        · cases h; exact .inr ⟨hf, .inl ⟨hs, c, hc, .inl ⟨h0, ‹_›, rfl⟩⟩⟩
        · cases h; exact .inr ⟨hf, .inl ⟨hs, c, hc, .inr (.inl ⟨h0, ‹_›, rfl⟩)⟩⟩
      · split at h
        · cases h; exact .inr ⟨hf, .inl ⟨hs, c, hc, .inr (.inr ⟨‹_›, ‹_›, rfl⟩)⟩⟩
        · cases h; exact .inl rfl
  · rename_i hs
    unfold rxStep at h
    split at h
    · cases h; exact .inl rfl
    · rename_i b rest hr
      refine .inr ⟨hf, .inr (.inl ⟨hs, b, rest, hr, ?_⟩)⟩
      split at h
      · rename_i hp
        unfold rxStepCap at h
        split at h
        · obtain ⟨u, h1, h2⟩ := andThen_eq_next h
          obtain ⟨h3, rfl⟩ := memWrite_eq_next h1
          cases h2
          exact .inl ⟨‹_›, h3, rfl⟩
        · rename_i hb
          have hb : isTerminator b = false := by simpa using hb
          split at h <;>
          · obtain ⟨u, h1, h2⟩ := andThen_eq_next h
            obtain ⟨h3, rfl⟩ := memWrite_eq_next h1
            cases h2
            first
              | exact .inr (.inl ⟨hb, ‹_›, rfl⟩)
              | exact .inr (.inr (.inl ⟨hp, hb, h3, rfl⟩))
      · rename_i hp
        unfold rxStepLegacy at h
        split at h
        · cases h
          exact .inr (.inr (.inr (.inl ⟨hp, ‹_›, rfl⟩)))
        · rename_i ho
          have ho : s.rxOvf = false := by simpa using ho
          split at h
          · obtain ⟨u, h1, h2⟩ := andThen_eq_next h
            obtain ⟨h3, rfl⟩ := memWrite_eq_next h1
            cases h2
            exact .inl ⟨‹_›, h3, rfl⟩
          · rename_i hb
            have hb : isTerminator b = false := by simpa using hb
            split at h <;>
            · obtain ⟨u, h1, h2⟩ := andThen_eq_next h
              obtain ⟨h3, rfl⟩ := memWrite_eq_next h1
              cases h2
              first
                | exact .inr (.inl ⟨hb, ‹_›, rfl⟩)
                | exact .inr (.inr (.inr (.inr ⟨hp, ho, hb, Nat.zero_lt_of_lt h3, rfl⟩)))
  · rename_i hs
    unfold drainStep at h
    split at h
    · cases h; exact .inl rfl
    · rename_i b rest hr
      refine .inr ⟨hf, .inr (.inr (.inl ⟨hs, b, rest, hr, ?_⟩))⟩
      split at h
      · cases h; exact .inl ⟨‹_›, rfl⟩
      · rename_i hb
        cases h; exact .inr ⟨by simpa using hb, rfl⟩
  · rename_i hs
    cases h
    unfold dbPressedStep
    split
    · exact .inl rfl
    · rename_i hb
      exact .inr ⟨hf, .inr (.inr (.inr ⟨hs, by simpa using hb, rfl⟩))⟩
  · cases h; exact .inl rfl
  · cases h; exact .inl rfl

/-- R192, R226: everything the `Tick1ms` event can do. -/
theorem tick1ms_cases {s t : State} (h : tick1ms s = .next t) : t = s ∨
    ((s.seq = .dly ∨ s.seq = .dbReleased) ∧
      (s.dlyCnt - 1 ≠ 0 ∧ t = { s with dlyCnt := s.dlyCnt - 1 } ∨
       s.dlyCnt - 1 = 0 ∧ s.seq = .dly ∧ t = complete .ok 0 { s with dlyCnt := s.dlyCnt - 1 } ∨
       s.dlyCnt - 1 = 0 ∧ s.seq = .dbReleased ∧ t = complete .ok 1 { s with dlyCnt := s.dlyCnt - 1 })) ∨
    (timeoutRuns s = true ∧
      (s.rxTmoCnt - 1 ≠ 0 ∧ t = { s with rxTmoCnt := s.rxTmoCnt - 1 } ∨
       s.rxTmoCnt - 1 = 0 ∧ s.rxIdx < s.cfg.rxCap ∧ t = recvEnd .rxTimeout
          { s with rxTmoCnt := s.rxTmoCnt - 1, rxBuf := s.rxBuf.write s.rxIdx 0x00 })) := by
  unfold tick1ms at h
  split at h
  · rename_i hs
    refine .inr (.inl ⟨hs, ?_⟩)
    cases h
    unfold delayTick
    simp only
    split
    · rename_i h0
      split
      · exact .inr (.inl ⟨h0, ‹_›, rfl⟩)
      · exact .inr (.inr ⟨h0, hs.resolve_left ‹_›, rfl⟩)
    · exact .inl ⟨‹_›, rfl⟩
  · split at h
    · refine .inr (.inr ⟨‹_›, ?_⟩)
      unfold timeoutTick at h
      split at h
      · obtain ⟨u, h1, h2⟩ := andThen_eq_next h
        obtain ⟨h3, rfl⟩ := memWrite_eq_next h1
        cases h2
        exact .inr ⟨‹_›, h3, rfl⟩
      · cases h
        exact .inl ⟨‹_›, rfl⟩
    · cases h; exact .inl rfl

/-- R280: everything the `Host` event can do. -/
theorem hostEvent_cases {w : OpWord} {s t : State} (h : hostEvent w s = .next t) : t = s ∨
    s.seq = .idle ∧ s.fault = false ∧ (
    (∃ st r m v a, t = complete st r { s with motor := m, servo := v, angleCur := a } ∧
      (m.ccrAct ≠ s.motor.ccrAct → opCode w = codePwmCfgMotor) ∧
      (v.ccrAct ≠ s.servo.ccrAct → opCode w = codePwmCfgServo)) ∨
    (opCode w = codeSerSend ∧
      t = { s with txSel := sendSelect (opArg w), txPtr := 0, curOp := codeSerSend, seq := .tx }) ∨
    (opCode w = codeSerRecv ∧ t = recvStart { s with curOp := codeSerRecv }) ∨
    (opCode w = codeBtnPoll ∧ btnPressed s = true ∧ t = { s with curOp := codeBtnPoll, seq := .dbPressed }) ∨
    (opCode w = codeCtlPress ∧
      t = { s with txSel := !s.led, expSel := !s.led, txPtr := 0, curOp := codeCtlPress, seq := .tx }) ∨
    (opCode w = codeDlyMs ∧ opArg w ≠ 0 ∧ t = { s with dlyCnt := opArg w, curOp := codeDlyMs, seq := .dly })) := by
  unfold hostEvent at h
  split at h
  swap
  · cases h; exact .inl rfl
  rename_i hr
  simp only [opReady, Bool.and_eq_true, decide_eq_true_eq, Bool.not_eq_true'] at hr
  refine .inr ⟨hr.1, hr.2, ?_⟩
  split at h
  swap
  · cases h; exact .inl ⟨_, _, s.motor, s.servo, s.angleCur, rfl, fun h => absurd rfl h, fun h => absurd rfl h⟩
  rename_i i hi
  rcases decodeOp_cases hi with ⟨hc, rfl⟩ | ⟨hc, rfl⟩ | ⟨hc, rfl⟩ | ⟨hc, rfl⟩ | ⟨hc, rfl⟩ | ⟨hc, rfl⟩ |
    ⟨hc, hsel, rfl⟩ | ⟨hc, rfl⟩ | ⟨hc, rfl⟩ | ⟨hc, rfl⟩ | ⟨hc, rfl⟩
  · cases h; exact .inl ⟨_, _, s.motor, s.servo, s.angleCur, rfl, fun h => absurd rfl h, fun h => absurd rfl h⟩
  · cases h
    unfold pwmCfg
    simp only
    split
    · exact .inl ⟨_, _, _, s.servo, s.angleCur, rfl, fun _ => hc, fun h => absurd rfl h⟩
    · exact .inl ⟨_, _, s.motor, s.servo, s.angleCur, rfl, fun h => absurd rfl h, fun h => absurd rfl h⟩
  · cases h
    unfold pwmCfg
    simp only
    split
    · exact .inl ⟨_, _, s.motor, _, s.angleCur, rfl, fun h => absurd rfl h, fun _ => hc⟩
    · exact .inl ⟨_, _, s.motor, s.servo, s.angleCur, rfl, fun h => absurd rfl h, fun h => absurd rfl h⟩
  · cases h
    exact .inl ⟨_, _, _, s.servo, s.angleCur, rfl, fun h => absurd rfl h, fun h => absurd rfl h⟩
  · cases h
    exact .inl ⟨_, _, s.motor, _, s.angleCur, rfl, fun h => absurd rfl h, fun h => absurd rfl h⟩
  · cases h
    exact .inl ⟨_, _, s.motor, _, _, rfl, fun h => absurd rfl h, fun h => absurd rfl h⟩
  · have h : execSerSend (opArg w) s = .next t := h
    rw [execSerSend, if_pos hsel] at h
    cases h
    exact .inr (.inl ⟨hc, rfl⟩)
  · cases h
    exact .inr (.inr (.inl ⟨hc, rfl⟩))
  · have h : execBtnPoll s = .next t := h
    unfold execBtnPoll at h
    split at h
    · cases h
      exact .inr (.inr (.inr (.inl ⟨hc, ‹_›, rfl⟩)))
    · cases h
      exact .inl ⟨_, _, s.motor, s.servo, s.angleCur, rfl, fun h => absurd rfl h, fun h => absurd rfl h⟩
  · cases h
    exact .inr (.inr (.inr (.inr (.inl ⟨hc, rfl⟩))))
  · have h : execDlyMs (opArg w) s = .next t := h
    unfold execDlyMs at h
    split at h
    · cases h
      exact .inl ⟨_, _, s.motor, s.servo, s.angleCur, rfl, fun h => absurd rfl h, fun h => absurd rfl h⟩
    · rename_i hz
      cases h
      exact .inr (.inr (.inr (.inr (.inr ⟨hc, fun h0 => hz (by simp [zext32, h0]), rfl⟩))))

/-- What every micro-step keeps, a run of micro-steps keeps. -/
theorem seqBurst_keeps {R : State → State → Prop} (hr : ∀ s, R s s) (ht : ∀ s t u, R s t → R t u → R s u)
    (hs : ∀ s t, seqEvent s = .next t → R s t) {k : Nat} {s t : State} (h : seqBurst k s = .next t) : R s t := by
  induction k generalizing s with
  | zero => cases h; exact hr _
  | succ k ih =>
    obtain ⟨u, h1, h2⟩ := andThen_eq_next h
    exact ht _ u _ (hs _ u h1) (ih h2)

/-- What every micro-step of a receive keeps, a run of a receive's micro-steps keeps. -/
theorem recvBurst_keeps {R : State → State → Prop} (hr : ∀ s, R s s) (ht : ∀ s t u, R s t → R t u → R s u)
    (hs : ∀ s t, receiving s = true → seqEvent s = .next t → R s t) {k : Nat} {s t : State}
    (h : recvBurst k s = .next t) : R s t := by
  induction k generalizing s with
  | zero => cases h; exact hr _
  | succ k ih =>
    unfold recvBurst at h
    split at h
    · obtain ⟨u, h1, h2⟩ := andThen_eq_next h
      exact ht _ u _ (hs _ u ‹_› h1) (ih h2)
    · cases h; exact hr _

/-- R102: everything the passing of a line can do: the micro-steps of the send of that command, or the arrival of the
bytes with the micro-steps of the receive in progress. -/
theorem lineEvent_cases {bytes : List Byte} {s t : State} (h : lineEvent bytes s = .next t) :
    (∃ sel, bytes = (if sel then requestOnLine else requestOffLine) ∧ sendLine sel s = .next t) ∨
    receiveLine bytes s = .next t := by
  unfold lineEvent at h
  split at h
  · rename_i i hi
    rcases decodeLine_cases hi with ⟨rfl, rfl⟩ | ⟨rfl, rfl⟩ | ⟨t, -, rfl, rfl⟩ | ⟨t, -, rfl, rfl⟩
    · exact .inl ⟨true, rfl, h⟩
    · exact .inl ⟨false, rfl, h⟩
    · exact .inr h
    · exact .inr h
  · exact .inr h

/-- R102: a message that goes out changes something only while its command is being sent. -/
theorem sendLine_cases {sel : Bool} {s t : State} (h : sendLine sel s = .next t) :
    t = s ∨ s.seq = .tx ∧ s.txSel = sel ∧ seqBurst (cmdLength sel - s.txPtr.toNat) s = .next t := by
  unfold sendLine at h
  split at h
  · rename_i hs
    exact .inr ⟨hs.1, hs.2, h⟩
  · cases h; exact .inl rfl

/-- R8: everything an event can do. -/
theorem applyEvent_cases {e : Event} {s t : State} (h : applyEvent e s = .next t) :
    (∃ w, (e = .host w ∨ e = .hostIfPressed w) ∧ (hostEvent w s = .next t ∨ t = s)) ∨
    (∃ bytes, e = .line bytes ∧ lineEvent bytes s = .next t) ∨
    (e = .seq ∧ seqEvent s = .next t) ∨
    (e = .tick1ms ∧ tick1ms s = .next t) ∨
    (∃ ch, e = .timTick ch ∧ t = timTick ch s) ∨
    (∃ b, e = .peerByte b ∧ t = peerBytes [b] s) ∨
    (e = .peerTake ∧ t = peerTake s) ∨
    (e = .refPeer ∧ t = refPeer s) ∨
    (∃ v, e = .txReady v ∧ t = { s with txReady := v }) ∨
    (∃ v, e = .btn v ∧ t = { s with btnIn := v }) ∨
    (e = .reset ∧ t = resetEvent s) := by
  cases e with
  | host w => exact .inl ⟨w, .inl rfl, .inl h⟩
  | hostIfPressed w =>
    refine .inl ⟨w, .inr rfl, ?_⟩
    have h : hostIfPressedEvent w s = .next t := h
    unfold hostIfPressedEvent at h
    split at h
    · exact .inl h
    · cases h; exact .inr rfl
  | line b => exact .inr (.inl ⟨b, rfl, h⟩)
  | seq => exact .inr (.inr (.inl ⟨rfl, h⟩))
  | tick1ms => exact .inr (.inr (.inr (.inl ⟨rfl, h⟩)))
  | timTick ch => cases h; exact .inr (.inr (.inr (.inr (.inl ⟨ch, rfl, rfl⟩))))
  | peerByte b => cases h; exact .inr (.inr (.inr (.inr (.inr (.inl ⟨b, rfl, rfl⟩)))))
  | peerTake => cases h; exact .inr (.inr (.inr (.inr (.inr (.inr (.inl ⟨rfl, rfl⟩))))))
  | refPeer => cases h; exact .inr (.inr (.inr (.inr (.inr (.inr (.inr (.inl ⟨rfl, rfl⟩)))))))
  | txReady v => cases h; exact .inr (.inr (.inr (.inr (.inr (.inr (.inr (.inr (.inl ⟨v, rfl, rfl⟩))))))))
  | btn v => cases h; exact .inr (.inr (.inr (.inr (.inr (.inr (.inr (.inr (.inr (.inl ⟨v, rfl, rfl⟩)))))))))
  | reset => cases h; exact .inr (.inr (.inr (.inr (.inr (.inr (.inr (.inr (.inr (.inr ⟨rfl, rfl⟩)))))))))

/-- R326: the reference peer takes bytes off `tx_stream` and appends bytes to `rx_stream`. -/
theorem refPeer_cases (s : State) :
    refPeer s = s ∨ ∃ n bytes, refPeer s = peerBytes bytes { s with txStream := s.txStream.drop n } := by
  unfold refPeer
  split
  · exact .inr ⟨_, _, rfl⟩
  · exact .inl rfl

/-- A relation that every single event keeps, the passing of a line and the reference peer keep. -/
theorem applyEvent_keeps {R : State → State → Prop} (hr : ∀ s, R s s) (ht : ∀ s t u, R s t → R t u → R s u)
    (hhost : ∀ w s t, hostEvent w s = .next t → R s t) (hseq : ∀ s t, seqEvent s = .next t → R s t)
    (htick : ∀ s t, tick1ms s = .next t → R s t) (htim : ∀ s ch, R s (timTick ch s))
    (hbytes : ∀ s b, R s (peerBytes b s)) (htake : ∀ (s : State) n, R s { s with txStream := s.txStream.drop n })
    (htxr : ∀ (s : State) v, R s { s with txReady := v }) (hbtn : ∀ (s : State) v, R s { s with btnIn := v })
    (hres : ∀ s, R s (resetEvent s)) {e : Event} {s t : State} (h : applyEvent e s = .next t) : R s t := by
  rcases applyEvent_cases h with ⟨w, -, h | rfl⟩ | ⟨b, -, h⟩ | ⟨-, h⟩ | ⟨-, h⟩ | ⟨ch, -, rfl⟩ | ⟨b, -, rfl⟩ |
    ⟨-, rfl⟩ | ⟨-, rfl⟩ | ⟨v, -, rfl⟩ | ⟨v, -, rfl⟩ | ⟨-, rfl⟩
  · exact hhost _ _ _ h
  · exact hr _
  · rcases lineEvent_cases h with ⟨sel, -, h⟩ | h
    · rcases sendLine_cases h with rfl | ⟨-, -, h⟩
      · exact hr _
      · exact seqBurst_keeps hr ht hseq h
    · exact ht _ _ _ (hbytes _ _) (recvBurst_keeps hr ht (fun s t _ h => hseq s t h) h)
  · exact hseq _ _ h
  · exact htick _ _ h
  · exact htim _ _
  · exact hbytes _ _
  · exact htake _ _
  · rcases refPeer_cases s with h | ⟨n, bytes, h⟩ <;> rw [h]
    · exact hr _
    · exact ht _ _ _ (htake s n) (hbytes _ _)
  · exact htxr _ _
  · exact hbtn _ _
  · exact hres _

end Sys2Proof.Machine
end

