-- ==== Sys2Proof/Laws/Runs.lean ====
section
/-! SUPPORT. Steps of a schedule: what a step does with the head of the schedule, and runs cut into parts. -/

namespace Sys2Proof.Machine

/-- The step of a state whose schedule names the next event. -/
theorem step_of_schedule {s : State} {e : Event} {rest : List Event} (h : s.schedule = e :: rest) :
    step s = applyEvent e { s with schedule := rest, opDone := false } := by
  simp only [step, nextEvent, takeEvent, h]

/-- The step of a state whose schedule is empty: the environment chooses. -/
theorem step_of_free {s : State} (h : s.schedule = []) :
    step s = applyEvent (Config.freeEvent s.eventNo) { s with eventNo := s.eventNo + 1, opDone := false } := by
  simp only [step, nextEvent, takeEvent, h]

theorem run_zero (s : State) : Host.Core.run Sys2Proof.core 0 s = .next s := rfl

theorem run_succ {s t : State} (h : step s = .next t) (k : Nat) :
    Host.Core.run Sys2Proof.core (k + 1) s = Host.Core.run Sys2Proof.core k t := by
  have h' : Sys2Proof.core.step s = .next t := h
  simp only [Host.Core.run, h']

/-- A run of `j + k` steps is a run of `j` steps and one of `k` from where it ends. -/
theorem run_add {s t : State} {j : Nat} (h : Host.Core.run Sys2Proof.core j s = .next t) (k : Nat) :
    Host.Core.run Sys2Proof.core (j + k) s = Host.Core.run Sys2Proof.core k t := by
  induction j generalizing s with
  | zero =>
    cases h
    rw [Nat.zero_add]
  | succ j ih =>
    cases hs : step s with
    | next u =>
      rw [run_succ hs] at h
      rw [Nat.add_right_comm, run_succ hs, ih h]
    | fault f =>
      have h' : Sys2Proof.core.step s = .fault f := hs
      simp only [Host.Core.run, h'] at h
      cases h
    | refused f =>
      have h' : Sys2Proof.core.step s = .refused f := hs
      simp only [Host.Core.run, h'] at h
      cases h

end Sys2Proof.Machine
end

