-- ==== Sys2Proof/Tests/Slice0.lean ====
section
/-! SUPPORT. The model's own tests. Expected results are the vectors of 95_test_vectors.md (each docstring names its
vector) or are read off the encodings of 30_encoding.md. Then, for each obligation with hypotheses, a named witness. -/

namespace Sys2Proof.Tests

open Sys2Proof Sys2Proof.Machine

/-- What a test looks at in the next state. -/
def see {α : Type} (r : Result) (look : State → α) : Option α :=
  match r with
  | .next s => some (look s)
  | .fault _ => none
  | .refused _ => none

/-- The completion a test looks at: status, result and `op_done`. -/
def done (s : State) : Status × Arg × Bool := (s.opStatus, s.opResult, s.opDone)

/-- One word presented to a block in the state `s`. -/
def present (w : OpWord) (s : State) : Result := step { s with schedule := [.host w] }

/-- One event of the environment. -/
def happen (e : Event) (s : State) : Result := step { s with schedule := [e] }

/-! ## WellFormed refuses ill-formed terms -/

theorem test_wf_select_two : (Instr.serSend 2).wf = false := by decide
theorem test_wf_select_high_bit : (Instr.serSend 0x80000001).wf = false := by decide
theorem test_wf_confirm_on_null : (Instr.confirmOn 0x00).wf = false := by decide
theorem test_wf_confirm_off_letter : (Instr.confirmOff 0x41).wf = false := by decide
/-- 40_pwm.md R154: `MAX_PULSE <= T/50`, 20000 ticks at 1 MHz and 20 at 1 kHz, at the bound and one above it. -/
theorem test_params_legal :
    Config.vectorParams.Legal ∧ { Config.vectorParams with maxPulse := 20000 : Params }.Legal ∧
    ¬ { Config.vectorParams with maxPulse := 20001 : Params }.Legal ∧
    { Config.vectorParams with servoTick := .khz1, minPulse := 1, maxPulse := 20 : Params }.Legal ∧
    ¬ { Config.vectorParams with servoTick := .khz1, minPulse := 1, maxPulse := 21 : Params }.Legal := by decide
theorem test_wf_accepts : (Instr.serSend 1).wf = true ∧ (Instr.confirmOn 0x0D).wf = true := by decide

/-! ## Decoding words written out from the encodings of 30_encoding.md R105, R106, R102 -/

theorem test_decode_nop : decodeTableWord 40 0b0000000000000000000000000000000000000000 = some .nop := by decide
theorem test_decode_cfg_motor :
    decodeTableWord 40 0b0001000000000000000000000000001111101000 = some (.pwmCfgMotor 1000) := by decide
theorem test_decode_cfg_servo :
    decodeTableWord 40 0b0001000100000000000000000000000000110010 = some (.pwmCfgServo 50) := by decide
theorem test_decode_duty_motor :
    decodeTableWord 40 0b0001001000000000000000000000000010010110 = some (.pwmDutyMotor 150) := by decide
theorem test_decode_duty_servo :
    decodeTableWord 40 0b0001001110000000000000000000000000000000 = some (.pwmDutyServo 0x80000000) := by decide
theorem test_decode_angle :
    decodeTableWord 40 0b0001010111111111111111111111111111110110 = some (.pwmAngleServo 0xFFFFFFF6) := by decide
theorem test_decode_send :
    decodeTableWord 40 0b0010000000000000000000000000000000000001 = some (.serSend 1) := by decide
theorem test_decode_recv :
    decodeTableWord 40 0b0010000100000000000000000000000000000111 = some .serRecv := by decide
theorem test_decode_poll :
    decodeTableWord 40 0b0011000000000000000000000000000000000000 = some .btnPoll := by decide
theorem test_decode_press :
    decodeTableWord 40 0b0100000000000000000000000000000000000000 = some .ctlPress := by decide
theorem test_decode_delay :
    decodeTableWord 40 0b0101000000000000000000000000000000000011 = some (.dlyMs 3) := by decide
theorem test_decode_request_on : decodeTableWord 72 0x4D204C4544204F4E0A = some .requestOn := by decide
theorem test_decode_request_off : decodeTableWord 80 0x4D204C4544204F46460A = some .requestOff := by decide
theorem test_decode_confirm_on :
    decodeTableWord 72 0x53204C4544204F4E0A = some (.confirmOn 0x0A) ∧
    decodeTableWord 72 0x53204C4544204F4E0D = some (.confirmOn 0x0D) := by decide
theorem test_decode_confirm_off :
    decodeTableWord 80 0x53204C4544204F46460A = some (.confirmOff 0x0A) ∧
    decodeTableWord 80 0x53204C4544204F46460D = some (.confirmOff 0x0D) := by decide
/-- R108: 0x14, an unused `fn`, a reserved `unit`, a select with `arg[31:1]` not 0. -/
theorem test_decode_reserved :
    decodeTableWord 40 0x140000005A = none ∧ decodeTableWord 40 0x0100000000 = none ∧
    decodeTableWord 40 0x6000000000 = none ∧ decodeTableWord 40 0x2000000002 = none := by decide
/-- R102: an outbound line ends in 0x0A only; the match is case-sensitive (R103). -/
theorem test_decode_other_lines :
    decodeTableWord 72 0x4D204C4544204F4E0D = none ∧ decodeTableWord 72 0x73206C6564206F6E0A = none := by decide
/-- 20_memory.md R72: the ROM's strings are the messages of R102. -/
theorem test_rom_strings :
    strOf (cmdRom true) = requestOnLine ∧ strOf (cmdRom false) = requestOffLine ∧
    strOf (confRom true) = confirmOnPayload ∧ strOf (confRom false) = confirmOffPayload := by decide

/-! ## One step of each operation -/

/-- V-SYS-2: `NOP` with a non-zero operand. -/
theorem test_nop : see (present 0x00DEADBEEF State.reset) done = some (.ok, 0, true) := by decide
/-- V-SYS-3. -/
theorem test_illegal_code : see (present 0x0100000000 State.reset) done = some (.illegalOp, 0x01, true) := by decide
/-- V-ANG-10. -/
theorem test_illegal_angle_motor :
    see (present 0x1400000000 State.reset) (fun s => (done s, s.motor)) =
      some ((.illegalOp, 0x14, true), Channel.reset) := by decide
/-- V-DLY-3: no word is accepted while an operation runs. -/
theorem test_not_ready :
    see (present 0x0000000000 { State.reset with seq := .dly, curOp := 0x50, dlyCnt := 1 })
      (fun s => (done s, s.seq, s.dlyCnt)) = some ((.ok, 0, false), .dly, 1) := by decide

/-- V-CFG-1. -/
theorem test_cfg_motor :
    see (present 0x10000003E8 State.reset) (fun s => (done s, s.motor.psc, s.motor.arr, s.motor.ccrPre, s.motor.ccrAct)) =
      some ((.ok, 0x000F03E7, true), 15, 999, 500, 500) := by decide
/-- V-CFG-7. -/
theorem test_cfg_motor_bad :
    see (present 0x100000000F State.reset) (fun s => (done s, s.motor)) =
      some ((.badArg, 0, true), Channel.reset) := by decide
/-- V-CFG-3. -/
theorem test_cfg_servo :
    see (present 0x1100000032 { State.reset with cfg := { Config.vectorParams with servoTick := .khz1 } })
      (fun s => (done s, s.servo.psc, s.servo.arr, s.servo.ccrPre)) =
      some ((.ok, 0x3E7F0013, true), 15999, 19, 10) := by decide
/-- V-CFG-5. -/
theorem test_cfg_servo_bad :
    see (present 0x1100000032
        { State.reset with cfg := { Config.vectorParams with servoTick := .khz1, timerClockServo := 72000000 } })
      (fun s => (done s, s.servo)) = some ((.badArg, 0, true), Channel.reset) := by decide
/-- V-DUTY-9: the operand is clamped and the active compare keeps its value. -/
theorem test_duty_motor_clamped :
    see (present 0x1200000096
        { State.reset with motor := { Channel.reset with arr := 999, ccrPre := 500, ccrAct := 500 } })
      (fun s => (done s, s.motor.ccrPre, s.motor.ccrAct)) = some ((.ok, 1000, true), 1000, 500) := by decide
/-- V-DUTY-2: the operand is signed. -/
theorem test_duty_motor_negative :
    see (present 0x12FFFFFFFF { State.reset with motor := { Channel.reset with arr := 999 } })
      (fun s => (done s, s.motor.ccrPre)) = some ((.ok, 0, true), 0) := by decide
/-- V-DUTY-19: multiplied before divided, and the division is floor. -/
theorem test_duty_servo_floor :
    see (present 0x1300000063 { State.reset with servo := { Channel.reset with arr := 3332 } })
      (fun s => (done s, s.servo.ccrPre)) = some ((.ok, 3299, true), 3299) := by decide
/-- V-DUTY-21: a channel never configured. -/
theorem test_duty_servo_unconfigured :
    see (present 0x1300000064 State.reset) (fun s => (done s, s.servo.ccrPre, pwmActive s .servo)) =
      some ((.ok, 1, true), 1, false) := by decide
/-- V-ANG-6. -/
theorem test_angle :
    see (present 0x150000005B State.reset) (fun s => (done s, s.servo.ccrPre, s.angleCur, s.servo.setKind)) =
      some ((.ok, 1505, true), 1505, 91, .angle) := by decide
/-- V-ANG-14, with the pulse bounds 544 and 2400. -/
theorem test_angle_other_bounds :
    see (present 0x15000000B3
        { State.reset with cfg := { Config.vectorParams with minPulse := 544, maxPulse := 2400 } })
      (fun s => (done s, s.angleCur)) = some ((.ok, 2389, true), 179) := by decide

/-- V-TX-1, its first event. -/
theorem test_send_starts :
    see (present 0x2000000001 { State.reset with txPtr := 7 }) (fun s => (s.seq, s.curOp, s.txSel, s.txPtr, s.opDone)) =
      some (.tx, 0x20, true, 0, false) := by decide
/-- V-TX-4. -/
theorem test_send_illegal :
    see (present 0x2000000002 { State.reset with txPtr := 7 }) (fun s => (done s, s.seq, s.txPtr)) =
      some ((.illegalOp, 0x20, true), .idle, 7) := by decide
/-- V-TX-1, its last event. -/
theorem test_send_completes :
    see (happen .seq { State.reset with seq := .tx, curOp := 0x20, txSel := true, txPtr := 9 })
      (fun s => (done s, s.txStream)) = some ((.ok, 9, true), []) := by decide
/-- V-TX-3: the transmitter is not ready. -/
theorem test_send_holds :
    see (happen .seq { State.reset with seq := .tx, curOp := 0x20, txSel := true, txPtr := 3, txReady := false })
      (fun s => (s.seq, s.txPtr, s.txStream)) = some (.tx, 3, []) := by decide
/-- V-SYS-5, V-RX-13: a receive starts with every cell 0x00. -/
theorem test_recv_starts :
    see (present 0x2100000007 { State.reset with rxBuf := [(3, 0x41), (19, 0x42)], rxIdx := 5, rxOvf := true })
      (fun s => (s.seq, s.curOp, s.rxBuf.length, s.rxIdx, s.rxOvf)) = some (.rx, 0x21, 0, 0, false) := by decide
/-- V-RX-1, its last event: the byte after the terminator stays. -/
theorem test_recv_ends :
    see (happen .seq { State.reset with
        seq := .rx, curOp := 0x21, rxBuf := [(0, 0x4F), (1, 0x4B)], rxIdx := 2, rxStream := [0x0A, 0x58] })
      (fun s => (done s, response s, s.rxStream)) = some ((.ok, 2, true), [0x4F, 0x4B], [0x58]) := by decide
/-- V-RX-8: payload byte number `RX_CAP`. -/
theorem test_recv_too_long :
    see (happen .seq { State.reset with seq := .rx, curOp := 0x21, rxIdx := 19, rxStream := [0x41, 0x0A] })
      (fun s => (s.seq, s.rxIdx, s.rxOvf, s.rxStream)) = some (.rxDrain, 19, true, [0x0A]) := by decide
/-- V-RX-8, its last event. -/
theorem test_drain_ends :
    see (happen .seq { State.reset with seq := .rxDrain, curOp := 0x21, rxIdx := 19, rxOvf := true, rxStream := [0x0A] })
      (fun s => (done s, s.rxStream)) = some ((.lineTooLong, 19, true), []) := by decide
/-- V-RX-10: the 21st byte, a terminator, with the buffer full. -/
theorem test_legacy_fault :
    see (happen .seq { State.reset with
        cfg := { Config.vectorParams with overflowPolicy := .legacyFault }
        seq := .rx, curOp := 0x21, rxIdx := 19, rxOvf := true, rxStream := [0x0A] })
      (fun s => (s.fault, s.seq, s.opDone, s.rxStream)) = some (true, .rx, false, []) := by decide
/-- V-RX-12, the 100th tick. -/
theorem test_timeout :
    see (happen .tick1ms { State.reset with
        cfg := { Config.vectorParams with rxTimeoutMs := some 100 }
        seq := .rx, curOp := 0x21, rxIdx := 2, rxBuf := [(0, 0x53), (1, 0x20)], rxTmoCnt := 1 })
      (fun s => (done s, response s)) = some ((.rxTimeout, 2, true), [0x53, 0x20]) := by decide

/-- V-BTN-1. -/
theorem test_poll_inactive : see (present 0x3000000000 State.reset) done = some (.ok, 0, true) := by decide
/-- V-BTN-8: the active level is 1. -/
theorem test_poll_active :
    see (present 0x3000000000
        { State.reset with cfg := { Config.vectorParams with btnActiveLevel := true }, btnIn := true })
      (fun s => (s.seq, s.curOp, dbState s)) = some (.dbPressed, 0x30, .pressed) := by decide
/-- V-BTN-2, the `Seq` after the release and the 50th tick. -/
theorem test_debounce :
    see (happen .seq { State.reset with seq := .dbPressed, curOp := 0x30 }) (fun s => (s.seq, s.dlyCnt)) =
      some (.dbReleased, 50) ∧
    see (happen .tick1ms { State.reset with seq := .dbReleased, curOp := 0x30, dlyCnt := 1 }) done =
      some (.ok, 1, true) := by decide
/-- V-CTL-2, its first event: ON asks for `REQUEST_OFF`. -/
theorem test_press_on :
    see (present 0x4000000000 { State.reset with led := true, txSel := true })
      (fun s => (s.seq, s.curOp, s.txSel, s.expSel, s.led)) = some (.tx, 0x40, false, false, true) := by decide
/-- V-CTL-3, its end: the wrong confirmation. -/
theorem test_press_mismatch :
    see (happen (.line (confirmOffLine 0x0A)) { State.reset with seq := .rx, curOp := 0x40, txSel := true, expSel := true })
      (fun s => (done s, s.led)) = some ((.ok, 0, true), false) := by decide
/-- V-DLY-1. -/
theorem test_delay_zero : see (present 0x5000000000 State.reset) done = some (.ok, 0, true) := by decide
/-- V-DLY-4. -/
theorem test_delay_longest :
    see (present 0x50FFFFFFFF State.reset) (fun s => (s.seq, s.curOp, s.dlyCnt)) = some (.dly, 0x50, 0xFFFFFFFF) := by
  decide

/-- V-TX-3's string: the bytes still to go, and none with the transmitter not ready. -/
theorem test_request_on :
    see (happen (.line requestOnLine) { State.reset with seq := .tx, curOp := 0x20, txSel := true, txPtr := 6 })
      (fun s => (s.txStream, s.txPtr, s.seq)) = some ([0x4F, 0x4E, 0x0A], 9, .tx) := by decide
/-- V-TX-2's string. -/
theorem test_request_off :
    see (happen (.line requestOffLine) { State.reset with seq := .tx, curOp := 0x20 }) (fun s => (s.txStream, s.txPtr)) =
      some ([0x4D, 0x20, 0x4C, 0x45, 0x44, 0x20, 0x4F, 0x46, 0x46, 0x0A], 10) := by decide
/-- V-CTL-7, its end: the terminator 0x0D. -/
theorem test_confirm_on :
    see (happen (.line (confirmOnLine 0x0D)) { State.reset with seq := .rx, curOp := 0x40, txSel := true, expSel := true })
      (fun s => (done s, s.led, s.rxStream)) = some ((.ok, 3, true), true, []) := by decide
/-- V-CTL-15: a byte was waiting already. -/
theorem test_confirm_on_leftover :
    see (happen (.line (confirmOnLine 0x0A))
        { State.reset with seq := .rx, curOp := 0x40, txSel := true, expSel := true, rxStream := [0x58] })
      (fun s => (done s, s.led, s.rxIdx)) = some ((.ok, 0, true), false, 9) := by decide
/-- V-CTL-2, its end. -/
theorem test_confirm_off :
    see (happen (.line (confirmOffLine 0x0A)) { State.reset with seq := .rx, curOp := 0x40, led := true })
      (fun s => (done s, s.led)) = some ((.ok, 1, true), false) := by decide

/-- Rows 6 and 7 of 95_test_vectors.md section 2.4: the period boundary takes the preload. -/
theorem test_tim_tick :
    (Channel.timTick { Channel.reset with arr := 3, ccrPre := 4, ccrAct := 2, cnt := 2, en := true }).cnt = 3 ∧
    (Channel.timTick { Channel.reset with arr := 3, ccrPre := 4, ccrAct := 2, cnt := 3, en := true }) =
      { Channel.reset with arr := 3, ccrPre := 4, ccrAct := 4, cnt := 0, en := true } := by decide
/-- V-SYS-6. -/
theorem test_reset_event :
    see (happen .reset { State.reset with
        seq := .rx, curOp := 0x21, rxIdx := 3, rxBuf := [(0, 0x41)], led := true, rxStream := [0x42]
        motor := { Channel.reset with en := true } })
      (fun s => ((s.seq, memRead s 0, s.led), s.motor.en, s.opDone, s.rxStream)) =
      some ((.idle, 0x00, false), false, false, [0x42]) := by decide
/-- 60_exceptions.md R326: the reference peer answers a request. -/
theorem test_reference_peer :
    see (happen .refPeer { State.reset with txStream := requestOffLine }) (fun s => (s.txStream, s.rxStream)) =
      some ([], [0x53, 0x20, 0x4C, 0x45, 0x44, 0x20, 0x4F, 0x46, 0x46, 0x0A]) := by decide
/-- The very next step after `withFetchWord` runs the word (V-CFG-1 again). -/
theorem test_fetch_word :
    see (step (State.reset.withFetchWord 40 0x10000003E8)) done = some (.ok, 0x000F03E7, true) := by decide
/-- 30_encoding.md R111: the lines of P3 and V-DUTY-1. -/
theorem test_assembler :
    assemble "PWM.CFG MOTOR, 1000".toList = some 0x10000003E8 ∧
    assemble "PWM.ANGLE SERVO, -10 ; below".toList = some 0x15FFFFFFF6 ∧
    assemble "DLY.MS 0xA".toList = some 0x500000000A ∧
    hexDigits 0x10000003E8 = "10000003E8".toList := by decide
/-- The canonical form: a cell at 0x00 is not listed, and the list is sorted. -/
theorem test_memory_canonical :
    (Memory.write [(1, 0x41), (4, 0x42)] 2 0x43) = [(1, 0x41), (2, 0x43), (4, 0x42)] ∧
    (Memory.write [(1, 0x41), (4, 0x42)] 4 0x00) = [(1, 0x41)] := by decide

/-! ## Witnesses: states and operands that meet all the hypotheses of an obligation together -/

/-- A block that receives the response of a `CTL.PRESS` that sent `REQUEST_ON`. -/
def receivingPress : State :=
  { State.reset with seq := .rx, curOp := 0x40, txSel := true, expSel := true, txPtr := 9 }

/-- The same with the smallest capacity a confirmation fits in. -/
def receivingPressTen : State := { receivingPress with cfg := { Config.vectorParams with rxCap := 10 } }

/-- A block that discards the rest of a long line for a `SER.RECV`. -/
def draining : State := { State.reset with seq := .rxDrain, curOp := 0x21, rxIdx := 19, rxOvf := true }

/-- The parameters with the policy `LEGACY_FAULT`. -/
def legacyParams : Params := { Config.vectorParams with overflowPolicy := .legacyFault }

/-- A receive under `LEGACY_FAULT` whose buffer is full. -/
def legacyFull : State := { State.reset with cfg := legacyParams, seq := .rx, curOp := 0x21, rxIdx := 19, rxOvf := true }

/-- The same after the overrun. -/
def legacyFaulted : State := { legacyFull with fault := true }

/-- A block that sends `REQUEST_ON` for a `SER.SEND`. -/
def sending : State := { State.reset with seq := .tx, curOp := 0x20, txSel := true }

/-- A block in a delay of one tick. -/
def delaying : State := { State.reset with seq := .dly, curOp := 0x50, dlyCnt := 1 }

/-- A block that waits for the button's release, and one in its settle delay's last tick. -/
def pressed : State := { State.reset with seq := .dbPressed, curOp := 0x30 }
def settling : State := { State.reset with seq := .dbReleased, curOp := 0x30, dlyCnt := 1 }

/-- A block about to send the last byte of a `CTL.PRESS`'s command. -/
def pressing : State := { receivingPress with seq := .tx, txPtr := 8 }

/-- A receive with one tick of its timeout left. -/
def timingOut : State :=
  { State.reset with
    cfg := { Config.vectorParams with rxTimeoutMs := some 100 }, seq := .rx, curOp := 0x21, rxTmoCnt := 1 }

/-- The parameters at 1 kHz, which R154 refuses: a pulse of 2000 ticks in a period of 20. -/
def illFittedParams : Params := { Config.vectorParams with servoTick := .khz1 }

/-- The invariant of a state with an empty buffer, reset channels, and control and index as given. -/
theorem blockInv_of_empty {s : State} (hp : s.cfg.InRange) (hb : s.rxBuf = []) (hi : s.rxIdx < s.cfg.rxCap)
    (hd : s.seq = .rxDrain → s.rxIdx = s.cfg.rxCap - 1 ∧ s.rxOvf = true)
    (hf : s.cfg.overflowPolicy = .legacyFault → s.seq = .rx → s.rxOvf = true → s.rxIdx = s.cfg.rxCap - 1)
    (hm : s.motor = Channel.reset) (hv : s.servo = Channel.reset) (ha : s.angleCur = 0) (hc : ControlInv s) :
    BlockInv s := by
  have hr : ∀ i, memRead s i = 0x00 := fun i => by rw [memRead, hb]; rfl
  refine ⟨hp, ⟨hi, by rw [hb]; decide, by rw [hb]; simp, fun i => by rw [hr]; decide, fun _ => hr _, fun _ _ => hr _,
    fun _ _ => hr _, hd, hf⟩, hc, ⟨by rw [hm]; exact ChannelInv.reset _, by rw [hv]; exact ChannelInv.reset _, by
    rw [ha]; decide⟩⟩

theorem inv_reset : BlockInv State.reset := BlockInv.resetWith (by decide)
theorem inv_receivingPress : BlockInv receivingPress :=
  blockInv_of_empty (by decide) rfl (by decide) (by decide) (by decide) rfl rfl rfl (by constructor <;> decide)
theorem inv_receivingPressTen : BlockInv receivingPressTen :=
  blockInv_of_empty (by decide) rfl (by decide) (by decide) (by decide) rfl rfl rfl (by constructor <;> decide)
theorem inv_draining : BlockInv draining :=
  blockInv_of_empty (by decide) rfl (by decide) (by decide) (by decide) rfl rfl rfl (by constructor <;> decide)
theorem inv_legacyFull : BlockInv legacyFull :=
  blockInv_of_empty (by decide) rfl (by decide) (by decide) (by decide) rfl rfl rfl (by constructor <;> decide)
theorem inv_legacyFaulted : BlockInv legacyFaulted :=
  blockInv_of_empty (by decide) rfl (by decide) (by decide) (by decide) rfl rfl rfl (by constructor <;> decide)
theorem inv_sending : BlockInv sending :=
  blockInv_of_empty (by decide) rfl (by decide) (by decide) (by decide) rfl rfl rfl (by constructor <;> decide)
theorem inv_delaying : BlockInv delaying :=
  blockInv_of_empty (by decide) rfl (by decide) (by decide) (by decide) rfl rfl rfl (by constructor <;> decide)
theorem inv_pressed : BlockInv pressed :=
  blockInv_of_empty (by decide) rfl (by decide) (by decide) (by decide) rfl rfl rfl (by constructor <;> decide)
theorem inv_pressing : BlockInv pressing :=
  blockInv_of_empty (by decide) rfl (by decide) (by decide) (by decide) rfl rfl rfl (by constructor <;> decide)
theorem inv_timingOut : BlockInv timingOut :=
  blockInv_of_empty (by decide) rfl (by decide) (by decide) (by decide) rfl rfl rfl (by constructor <;> decide)

theorem witness_DecodeEncodeRoundTrip : (Instr.serSend 1).wf = true ∧ (Instr.confirmOff 0x0D).wf = true := by decide

theorem witness_DecodedInstructionsAreWellFormed :
    decode (.opWord 0x2000000001) = .ok (.serSend 1) ∧ decodeOp 0x50FFFFFFFF = .ok (.dlyMs 0xFFFFFFFF) ∧
    decodeLine (confirmOnLine 0x0D) = .ok (.confirmOn 0x0D) := ⟨rfl, rfl, rfl⟩

theorem witness_UnreadOperandBitsAreIgnored :
    (0x40#8 = 0x00#8 ∨ 0x40#8 = 0x21#8 ∨ 0x40#8 = 0x30#8 ∨ 0x40#8 = 0x40#8) ∧
    decodeOp (0x40#8 ++ 0xFFFFFFFF#32) = .ok .ctlPress := ⟨by decide, rfl⟩

/-- An unknown code, the least and the greatest illegal select. -/
theorem witness_IllegalWordsRaiseIllegalOperation :
    (BitVec.extractLsb' 32 8 0x140000005A#40 ∉ legalCodes ∧ BitVec.extractLsb' 32 8 0xFF00000000#40 ∉ legalCodes) ∧
    (BitVec.extractLsb' 32 8 0x2000000002#40 = 0x20#8 ∧ BitVec.extractLsb' 1 31 0x2000000002#40 ≠ 0#31) ∧
    (BitVec.extractLsb' 32 8 0x20FFFFFFFF#40 = 0x20#8 ∧ BitVec.extractLsb' 1 31 0x20FFFFFFFF#40 ≠ 0#31) ∧
    (State.reset.seq = .idle ∧ State.reset.curOp = 0x00#8 ∧ State.reset.fault = false) :=
  ⟨by decide, by decide, by decide, rfl, rfl, rfl⟩

theorem witness_StepRunsDecodedInstruction :
    (State.reset.seq = .idle ∧ State.reset.fault = false ∧ decode (.opWord 0x0000000000) = .ok .nop) ∧
    decode (.line requestOnLine) = .ok .requestOn := ⟨⟨rfl, rfl, rfl⟩, rfl⟩

/-- The three clauses: a legal word, an illegal word, a port that is not ready for either reason. -/
theorem witness_HostWordsAreAcceptedOnlyWhenReady :
    decodeOp 0x4000000000 = .ok .ctlPress ∧ decodeOp 0x1400000000 = .error (.unknownCode 0x14) ∧
    ¬ (delaying.seq = .idle ∧ delaying.fault = false) ∧
    ¬ (legacyFaulted.seq = .idle ∧ legacyFaulted.fault = false) := ⟨rfl, rfl, by decide, by decide⟩

theorem witness_FetchedInstructionRunsNext :
    decodeTableWord 40 0x5000000003 = some (.dlyMs 3) ∧ decodeTableWord 72 0x4D204C4544204F4E0A = some .requestOn := by
  decide

/-- V-CFG-9, V-CFG-8 and V-CFG-3 inside the domain, V-CFG-6, V-CFG-7, V-CFG-10 and V-CFG-5 outside. -/
theorem witness_PwmCfgConfiguresOrReportsBadArg :
    CfgDomain 16000000 1000000 1000000 ∧ CfgDomain 16000000 1000000 16 ∧ CfgDomain 16000000 1000 50 ∧
    ¬ CfgDomain 16000000 1000000 0 ∧ ¬ CfgDomain 16000000 1000000 15 ∧ ¬ CfgDomain 16000000 1000000 1000001 ∧
    ¬ CfgDomain 72000000 1000 50 := by
  unfold CfgDomain
  decide

theorem witness_DutyMapIsMonotoneAndExact :
    (65534 ≤ 65534 ∧ 100 ≤ 100) ∧ 99 ≤ 100 ∧ 100 ∣ 999 + 1 := by decide

/-- Also with both bounds equal. -/
theorem witness_AngleMapIsMonotoneAndBounded :
    Config.vectorParams.InRange ∧ { Config.vectorParams with minPulse := 1500, maxPulse := 1500 : Params }.InRange ∧
    179 ≤ 180 := by decide

theorem witness_SerSendStartsTheSend :
    (1#32).extractLsb' 1 31 = 0#31 ∧ (2#32).extractLsb' 1 31 ≠ 0#31 ∧ (0xFFFFFFFF#32).extractLsb' 1 31 ≠ 0#31 := by
  decide

theorem witness_ReceiveStartClearsTheBuffer :
    receivingPress.txPtr = 9 ∧ ∃ s : State, s.seq = .tx ∧ s.fault = false ∧ s.curOp = 0x40#8 ∧
      (cmdRom s.txSel)[s.txPtr.toNat]? = some 0x00#8 := ⟨rfl, { receivingPress with seq := .tx }, by decide⟩

/-- A pressed and a released line at the `Host` event, a release and a hold in `DB_PRESSED`, a tick that is not the last
and the last one. -/
theorem witness_BtnPollRunsTheDebounceSession :
    ({ State.reset with btnIn := false : State }.btnIn = State.reset.cfg.btnActiveLevel) ∧
    State.reset.btnIn ≠ State.reset.cfg.btnActiveLevel ∧
    (pressed.seq = .dbPressed ∧ pressed.fault = false ∧ pressed.btnIn ≠ pressed.cfg.btnActiveLevel) ∧
    { pressed with btnIn := false : State }.btnIn = pressed.cfg.btnActiveLevel ∧
    (settling.seq = .dbReleased ∧ settling.dlyCnt - 1 = 0) ∧
    { settling with dlyCnt := 2 : State }.dlyCnt - 1 ≠ 0 := by decide

theorem witness_DlyMsStartsOrCompletes :
    (1#32 ≠ 0 ∧ 0xFFFFFFFF#32 ≠ 0) ∧ (delaying.seq = .dly ∧ delaying.dlyCnt - 1 = 0) ∧
    { delaying with dlyCnt := 2 : State }.dlyCnt - 1 ≠ 0 := by decide

theorem witness_DelayCompletesAtTheLastTick :
    ∃ s : State, s.seq = .idle ∧ s.fault = false ∧ 1#32 ≠ 0#32 ∧ 0 < (1#32).toNat ∧
      s.schedule = .host (0x50#8 ++ 1#32) :: List.replicate (1#32).toNat .tick1ms ++ [] :=
  ⟨{ State.reset with schedule := [.host (0x50#8 ++ 1#32), .tick1ms] }, by decide⟩

/-- Each clause: both commands from their first and past their last byte, a block that sends another command or none,
and the two holds. -/
theorem witness_RequestLinesGoOut :
    (sending.seq = .tx ∧ sending.txSel = true ∧ sending.fault = false ∧ sending.txReady = true ∧
      sending.txPtr.toNat ≤ 9 ∧ (9#4).toNat ≤ 9) ∧
    (∃ s : State, s.seq = .tx ∧ s.txSel = false ∧ s.fault = false ∧ s.txReady = true ∧ s.txPtr.toNat = 10) ∧
    ¬ (State.reset.seq = .tx ∧ State.reset.txSel = true) ∧ ¬ (sending.seq = .tx ∧ sending.txSel = false) ∧
    (∃ s : State, s.seq = .tx ∧ s.txReady = false) ∧ (∃ s : State, s.seq = .tx ∧ s.fault = true) :=
  ⟨by decide, ⟨{ sending with txSel := false, txPtr := 10 }, by decide⟩, by decide, by decide,
    ⟨{ sending with txReady := false }, by decide⟩, ⟨{ sending with fault := true }, by decide⟩⟩

theorem witness_ConfirmLinesWaitForAReceive :
    (State.reset.seq ≠ .rx ∧ State.reset.seq ≠ .rxDrain) ∧ legacyFaulted.fault = true := by decide

theorem witness_ConfirmationLinesDecideTheToggle :
    BlockInv receivingPressTen ∧ receivingPressTen.seq = .rx ∧ receivingPressTen.curOp = 0x40#8 ∧
    receivingPressTen.fault = false ∧ receivingPressTen.rxIdx = 0 ∧ receivingPressTen.rxOvf = false ∧
    receivingPressTen.rxBuf = [] ∧ receivingPressTen.rxStream = [] ∧ 10 ≤ receivingPressTen.cfg.rxCap ∧
    (0x0D#8 = 0x0A#8 ∨ 0x0D#8 = 0x0D#8) :=
  ⟨inv_receivingPressTen, rfl, rfl, rfl, rfl, rfl, rfl, rfl, by decide, by decide⟩

/-- A receive at its start, one that drains, one whose buffer is full under `LEGACY_FAULT`. -/
theorem witness_ConfirmationLinesEndAnyReceive :
    (BlockInv receivingPress ∧ receivingPress.seq = .rx ∧ receivingPress.fault = false) ∧
    (BlockInv draining ∧ draining.seq = .rxDrain ∧ draining.fault = false) ∧
    (BlockInv legacyFull ∧ legacyFull.seq = .rx ∧ legacyFull.fault = false) :=
  ⟨⟨inv_receivingPress, rfl, rfl⟩, ⟨inv_draining, rfl, rfl⟩, ⟨inv_legacyFull, rfl, rfl⟩⟩

theorem witness_FalseGuardsHold :
    (∃ s : State, s.seq = .tx ∧ s.txReady = false ∧ (∀ c, cmdByte s.txSel s.txPtr.toNat = some c → c ≠ 0x00#8) ∧
      s.txPtr.toNat ≤ cmdLength s.txSel) ∧
    ((receivingPress.seq = .rx ∨ receivingPress.seq = .rxDrain) ∧ receivingPress.rxStream = []) ∧
    ((draining.seq = .rx ∨ draining.seq = .rxDrain) ∧ draining.rxStream = []) ∧
    (∃ s : State, s.seq = .dbPressed ∧ s.btnIn = s.cfg.btnActiveLevel) ∧
    (State.reset.seq = .idle ∧ settling.seq = .dbReleased ∧ delaying.seq = .dly) :=
  ⟨⟨{ sending with txReady := false }, rfl, rfl, fun c h => by cases h; decide, by decide⟩, ⟨.inl rfl, rfl⟩,
    ⟨.inr rfl, rfl⟩, ⟨{ pressed with btnIn := false }, by decide⟩, by decide⟩

/-- The first byte of a command and its 0x00, for both operations. -/
theorem witness_TxMicroStepSendsOneByte :
    (sending.seq = .tx ∧ sending.fault = false ∧ (cmdRom sending.txSel)[sending.txPtr.toNat]? = some 0x4D#8 ∧
      0x4D#8 ≠ 0x00#8 ∧ sending.txReady = true) ∧
    (∃ s : State, s.seq = .tx ∧ s.fault = false ∧ (cmdRom s.txSel)[s.txPtr.toNat]? = some 0x4D#8 ∧ s.txReady = false) ∧
    (∃ s : State, s.seq = .tx ∧ s.fault = false ∧ (cmdRom s.txSel)[s.txPtr.toNat]? = some 0x00#8 ∧ s.curOp = 0x20#8) ∧
    (∃ s : State, s.seq = .tx ∧ s.fault = false ∧ (cmdRom s.txSel)[s.txPtr.toNat]? = some 0x00#8 ∧ s.curOp = 0x40#8) :=
  ⟨by decide, ⟨{ sending with txReady := false }, by decide⟩, ⟨{ sending with txPtr := 9 }, by decide⟩,
    ⟨{ receivingPress with seq := .tx }, by decide⟩⟩

/-- No byte, a terminator, a byte where there is room for one more, a byte where there is none. -/
theorem witness_RxMicroStepStoresOrEndsTheLine :
    (receivingPress.seq = .rx ∧ receivingPress.fault = false ∧ receivingPress.cfg.overflowPolicy = .capAndFlag ∧
      receivingPress.rxIdx < receivingPress.cfg.rxCap ∧ receivingPress.rxStream = []) ∧
    (∃ s : State, s.seq = .rx ∧ s.fault = false ∧ s.cfg.overflowPolicy = .capAndFlag ∧ s.rxIdx < s.cfg.rxCap ∧
      s.rxStream = [0x0D#8] ∧ s.rxIdx = s.cfg.rxCap - 1) ∧
    (∃ s : State, s.seq = .rx ∧ s.fault = false ∧ s.cfg.overflowPolicy = .capAndFlag ∧ s.rxIdx < s.cfg.rxCap ∧
      s.rxStream = [0x00#8] ∧ s.rxIdx + 1 = s.cfg.rxCap - 1) ∧
    (∃ s : State, s.seq = .rx ∧ s.fault = false ∧ s.cfg.overflowPolicy = .capAndFlag ∧ s.rxIdx < s.cfg.rxCap ∧
      s.rxStream = [0x00#8] ∧ s.rxIdx = s.cfg.rxCap - 1) :=
  ⟨by decide, ⟨{ receivingPress with rxIdx := 19, rxStream := [0x0D#8] }, by decide⟩,
    ⟨{ receivingPress with rxIdx := 18, rxStream := [0x00#8] }, by decide⟩,
    ⟨{ receivingPress with rxIdx := 19, rxStream := [0x00#8] }, by decide⟩⟩

theorem witness_DrainDiscardsUpToTheTerminator :
    (draining.seq = .rxDrain ∧ draining.fault = false ∧ draining.rxStream = []) ∧
    { draining with rxStream := [0x0A#8, 0x58#8] : State }.rxStream = [0x0A#8, 0x58#8] ∧
    { draining with rxStream := [0x00#8] : State }.rxStream = [0x00#8] := by decide

/-- The overrun, a terminator in the last cell, room for one more byte, the byte that fills the buffer. -/
theorem witness_LegacyOverrunSetsTheStickyFault :
    (legacyFull.seq = .rx ∧ legacyFull.fault = false ∧ legacyFull.cfg.overflowPolicy = .legacyFault ∧
      legacyFull.rxIdx < legacyFull.cfg.rxCap ∧ legacyFull.rxOvf = true ∧
      { legacyFull with rxStream := [0x0A#8] : State }.rxStream = [0x0A#8]) ∧
    (∃ s : State, s.seq = .rx ∧ s.fault = false ∧ s.cfg.overflowPolicy = .legacyFault ∧ s.rxIdx < s.cfg.rxCap ∧
      s.rxOvf = false ∧ s.rxStream = [0x0A#8] ∧ s.rxIdx = s.cfg.rxCap - 1) ∧
    (∃ s : State, s.seq = .rx ∧ s.fault = false ∧ s.cfg.overflowPolicy = .legacyFault ∧ s.rxIdx < s.cfg.rxCap - 1 ∧
      s.rxOvf = false ∧ s.rxStream = [0x41#8]) ∧
    (∃ s : State, s.seq = .rx ∧ s.fault = false ∧ s.cfg.overflowPolicy = .legacyFault ∧ s.rxIdx = s.cfg.rxCap - 1 ∧
      s.rxOvf = false ∧ s.rxStream = [0x41#8]) :=
  ⟨by decide, ⟨{ legacyFull with rxOvf := false, rxStream := [0x0A#8] }, by decide⟩,
    ⟨{ legacyFull with rxOvf := false, rxIdx := 18, rxStream := [0x41#8] }, by decide⟩,
    ⟨{ legacyFull with rxOvf := false, rxStream := [0x41#8] }, by decide⟩⟩

/-- No timeout; a tick that is not the last one and the last one, in both states of a receive. -/
theorem witness_TimeoutEndsTheReceive :
    (receivingPress.seq = .rx ∧ receivingPress.fault = false ∧ receivingPress.rxIdx < receivingPress.cfg.rxCap ∧
      receivingPress.cfg.rxTimeoutMs = none) ∧
    (∃ s : State, s.seq = .rx ∧ s.fault = false ∧ s.rxIdx < s.cfg.rxCap ∧ s.cfg.rxTimeoutMs ≠ none ∧
      s.rxTmoCnt - 1 ≠ 0) ∧
    (∃ s : State, s.seq = .rxDrain ∧ s.fault = false ∧ s.rxIdx < s.cfg.rxCap ∧ s.cfg.rxTimeoutMs ≠ none ∧
      s.rxTmoCnt - 1 = 0) :=
  ⟨by decide,
    ⟨{ receivingPress with cfg := { Config.vectorParams with rxTimeoutMs := some 2 }, rxTmoCnt := 2 }, by decide⟩,
    ⟨{ draining with cfg := { Config.vectorParams with rxTimeoutMs := some 1 }, rxTmoCnt := 1 }, by decide⟩⟩

theorem witness_TickEventInFull :
    (delaying.seq = .dly ∧ delaying.dlyCnt - 1 = 0) ∧ (settling.seq = .dbReleased ∧ settling.dlyCnt - 1 = 0) ∧
    { settling with dlyCnt := 50 : State }.dlyCnt - 1 ≠ 0 ∧
    (∃ s : State, s.seq = .rx ∧ s.cfg.rxTimeoutMs ≠ none ∧ s.fault = false) ∧
    (¬ (sending.seq = .dly ∨ sending.seq = .dbReleased) ∧
      ¬ ((sending.seq = .rx ∨ sending.seq = .rxDrain) ∧ sending.cfg.rxTimeoutMs ≠ none ∧ sending.fault = false)) :=
  ⟨by decide, by decide, by decide,
    ⟨{ receivingPress with cfg := { Config.vectorParams with rxTimeoutMs := some 1 } }, by decide⟩, by decide⟩

/-- A `SER.RECV`, a confirmed press, a press that received another line. -/
theorem witness_ReceiveEndReportsOrCompares :
    draining.curOp = 0x21#8 ∧
    (∃ s : State, s.curOp = 0x40#8 ∧ response s = strOf (confRom s.expSel)) ∧
    (receivingPress.curOp = 0x40#8 ∧
      ¬ (Status.ok = .ok ∧ response receivingPress = strOf (confRom receivingPress.expSel))) :=
  ⟨rfl, ⟨{ receivingPress with
      rxBuf := [(0, 0x53), (1, 0x20), (2, 0x4C), (3, 0x45), (4, 0x44), (5, 0x20), (6, 0x4F), (7, 0x4E)] }, by decide⟩,
    by decide⟩

theorem witness_SendTransmitsTheWholeCommand :
    ∃ s : State, s.seq = .idle ∧ s.fault = false ∧ s.txReady = true ∧
      s.schedule = .host (0x20#8 ++ (if true then 1#32 else 0#32)) :: List.replicate (if true then 10 else 11) .seq ++ [] :=
  ⟨{ State.reset with schedule := .host (0x20#8 ++ 1#32) :: List.replicate 10 .seq }, by decide⟩

/-- A line of exactly `RX_CAP` payload bytes: here one of two with `RX_CAP = 2`. -/
theorem witness_ReceiveTakesExactlyOneLine :
    ∃ s : State, s.seq = .rx ∧ s.fault = false ∧ s.cfg.overflowPolicy = .capAndFlag ∧ 2 ≤ s.cfg.rxCap ∧
      s.rxIdx = 0 ∧ s.rxOvf = false ∧ s.rxBuf.wf ∧ (∀ i, memRead s i = 0x00#8) ∧
      (∀ b ∈ [0x41#8, 0x00#8], b ≠ 0x0A#8 ∧ b ≠ 0x0D#8) ∧ s.rxStream = [0x41#8, 0x00#8] ++ 0x0A#8 :: [] ∧
      s.schedule = List.replicate ([0x41#8, 0x00#8].length + 1) .seq ++ [] :=
  ⟨{ receivingPress with
      cfg := { Config.vectorParams with rxCap := 2 }, rxStream := [0x41, 0x00, 0x0A], schedule := List.replicate 3 .seq },
    rfl, rfl, rfl, by decide, rfl, rfl, by decide, fun _ => rfl, by decide, rfl, rfl⟩

theorem witness_ConfirmedPressTogglesTheLed :
    BlockInv State.reset ∧ State.reset.seq = .idle ∧ State.reset.fault = false ∧ State.reset.txReady = true ∧
    State.reset.rxStream = [] ∧ 10 ≤ State.reset.cfg.rxCap ∧ (0x0A#8 = 0x0A#8 ∨ 0x0A#8 = 0x0D#8) :=
  ⟨inv_reset, rfl, rfl, rfl, rfl, by decide, by decide⟩

/-- The empty line, and the other confirmation. -/
theorem witness_UnconfirmedPressLeavesTheLed :
    (BlockInv State.reset ∧ State.reset.seq = .idle ∧ State.reset.fault = false ∧ State.reset.txReady = true ∧
      State.reset.rxStream = []) ∧
    (∀ p ∈ [[], confirmOffPayload], p.length < State.reset.cfg.rxCap ∧ (∀ b ∈ p, b ≠ 0x0A#8 ∧ b ≠ 0x0D#8) ∧
      strOf p ≠ (if State.reset.led then confirmOffPayload else confirmOnPayload)) :=
  ⟨⟨inv_reset, rfl, rfl, rfl, rfl⟩, by decide⟩

/-- A stopped channel, a prescaler step, a counter step, a period boundary. -/
theorem witness_TimTickAdvancesTheCounter :
    Channel.reset.en = false ∧
    (∃ c : Channel, c.en = true ∧ c.pcnt.toNat < c.psc.toNat) ∧
    (∃ c : Channel, c.en = true ∧ c.psc.toNat ≤ c.pcnt.toNat ∧ c.cnt.toNat < c.arr.toNat) ∧
    (∃ c : Channel, c.en = true ∧ c.psc.toNat ≤ c.pcnt.toNat ∧ c.arr.toNat ≤ c.cnt.toNat) :=
  ⟨rfl, ⟨{ Channel.reset with en := true, psc := 1 }, by decide⟩, ⟨{ Channel.reset with en := true, arr := 1 }, by decide⟩,
    ⟨{ Channel.reset with en := true }, by decide⟩⟩

theorem witness_OnePeriodIsAllItsClocks :
    ∃ c : Channel, c.en = true ∧ c.cnt = 0 ∧ c.pcnt = 0 ∧ 0 < (c.psc.toNat + 1) * (c.arr.toNat + 1) :=
  ⟨{ Channel.reset with en := true, psc := 15, arr := 999 }, by decide⟩

theorem witness_PwmOutputFollowsTheActiveCompare :
    Channel.reset.ccrAct = 0 ∧
    ∃ c : Channel, c.en = true ∧ c.moe = true ∧ c.cnt.toNat ≤ c.arr.toNat ∧ c.arr.toNat + 1 ≤ c.ccrAct.toNat :=
  ⟨rfl, { Channel.reset with en := true, moe := true, arr := 3, cnt := 3, ccrAct := 4 }, by decide⟩

/-- A boundary, a reset and a `PWM.CFG` that change the active compare. -/
theorem witness_ActiveCompareChangesOnlyAtABoundary :
    see (happen (.timTick .motor) { State.reset with motor := { Channel.reset with en := true, ccrPre := 1 } })
      (fun s => decide (s.motor.ccrAct ≠ 0)) = some true ∧
    see (happen .reset { State.reset with motor := { Channel.reset with ccrAct := 1 } })
      (fun s => decide (s.motor.ccrAct ≠ 1)) = some true ∧
    see (present 0x10000003E8 State.reset) (fun s => decide (s.motor.ccrAct ≠ 0)) = some true := by decide

/-- A confirmed press changes the LED, and so does a reset. -/
theorem witness_LedChangesOnlyWhenConfirmed :
    (BlockInv receivingPress ∧ see (happen (.line (confirmOnLine 0x0A)) receivingPress) (fun s => s.led) = some true) ∧
    see (happen .reset { State.reset with led := true }) (fun s => s.led) = some false :=
  ⟨⟨inv_receivingPress, by decide⟩, by decide⟩

/-- The overrun sets the fault; a faulted state takes an event and keeps it. -/
theorem witness_FaultIsSticky :
    see (happen .seq { legacyFull with rxStream := [0x41] }) (fun s => s.fault) = some true ∧
    (BlockInv legacyFaulted ∧ legacyFaulted.fault = true ∧
      see (happen .seq legacyFaulted) (fun s => s.fault) = some true) ∧
    nextEvent { legacyFaulted with schedule := [.reset] } = .reset ∧
    nextEvent { legacyFaulted with schedule := [.seq] } = .seq :=
  ⟨by decide, ⟨inv_legacyFaulted, rfl, by decide⟩, rfl, rfl⟩

theorem witness_SequencerTransitionsAreTheTable :
    see (happen .seq { sending with txPtr := 9 }) (fun s => s.seq) = some .idle := by decide

theorem witness_ParametersNeverChange :
    see (happen .reset { State.reset with cfg := legacyParams }) (fun s => s.cfg) = some legacyParams := by decide

theorem witness_OnlyAReceiveWritesTheBuffer :
    receivingPress.rxBuf.wf ∧
    see (happen .seq { receivingPress with rxStream := [0x53] }) (fun s => decide (memRead s 0 ≠ memRead receivingPress 0)) =
      some true := by decide

theorem witness_RxStreamIsFirstInFirstOut :
    see (happen .seq { receivingPress with rxStream := [0x53, 0x20] }) (fun s => s.rxStream) = some [0x20] ∧
    see (happen (.peerByte 0x58) receivingPress) (fun s => s.rxStream) = some [0x58] := by decide

theorem witness_TxStreamGetsOnlyTheCommand :
    see (happen .seq sending) (fun s => s.txStream) = some [0x4D] ∧
    see (happen .peerTake { sending with txStream := [0x4D] }) (fun s => s.txStream) = some [] := by decide

theorem witness_EnvironmentEventsAreAlwaysEnabled :
    ∃ s : State, s.fault = true ∧ s.schedule = [.peerByte 0xFF] :=
  ⟨{ legacyFaulted with schedule := [.peerByte 0xFF] }, rfl, rfl⟩

theorem witness_ResetWritesEveryElement : ∃ s : State, s.fault = true ∧ s.schedule = [.reset] :=
  ⟨{ legacyFaulted with schedule := [.reset] }, rfl, rfl⟩

/-- Parameters at their bounds, and the vectors' own. -/
theorem witness_ResetHasTheInvariant :
    { Config.vectorParams with rxCap := 2, settleMs := 1, rxTimeoutMs := some 1 : Params }.InRange ∧
    { Config.vectorParams with rxCap := 4294967296, minPulse := 0xFFFF, maxPulse := 0xFFFF : Params }.InRange ∧
    State.reset.cfg.InRange := by decide

/-- States of the invariant in five of the sequencer's states, the faulted one among them. -/
theorem witness_StepKeepsTheInvariant :
    BlockInv State.reset ∧ BlockInv sending ∧ BlockInv draining ∧ BlockInv delaying ∧ BlockInv legacyFaulted :=
  ⟨inv_reset, inv_sending, inv_draining, inv_delaying, inv_legacyFaulted⟩

theorem witness_NoRunStops : BlockInv legacyFull := inv_legacyFull

theorem witness_BufferStaysCanonical :
    Memory.wf [(0, 0x53)] ∧
    see (happen .seq { receivingPress with rxBuf := [(0, 0x53)], rxIdx := 1, rxStream := [0x20] })
      (fun s => s.rxBuf.length) = some 2 := by decide

theorem witness_PseudoOperationsExpand :
    ∃ s t : State, s.schedule = [.hostIfPressed 0x4000000000] ∧ s.opResult = 1 ∧
      t.schedule = [.hostIfPressed 0x4000000000] ∧ t.opResult ≠ 1 :=
  ⟨{ State.reset with schedule := [.hostIfPressed 0x4000000000], opResult := 1 },
    { State.reset with schedule := [.hostIfPressed 0x4000000000] }, by decide⟩

/-- An environment that ticks for ever, and one that steps for ever a block that sends to a ready transmitter. -/
theorem witness_WaitsEndUnderFairness :
    (FairTick (fun _ => .tick1ms) ∧ BlockInv delaying ∧ delaying.seq = .dly) ∧
    (FairTx (fun _ => .seq) sending ∧ BlockInv sending ∧ sending.seq = .tx) := by
  have ready : ∀ n, (stateAfter (fun _ => .seq) sending n).txReady = true := by
    intro n
    induction n with
    | zero => rfl
    | succ n ih =>
      rw [stateAfter]
      generalize stateAfter (fun _ => .seq) sending n = u at ih ⊢
      split
      · rename_i t h
        have h' : seqEvent { u with schedule := [], opDone := false } = .next t := h
        rcases seqEvent_cases h' with rfl | ⟨-, ⟨-, c, -, ⟨-, -, rfl⟩ | ⟨-, -, rfl⟩ | ⟨-, -, rfl⟩⟩ | ⟨-, b, r, -, ⟨-, -, rfl⟩ |
          ⟨-, -, rfl⟩ | ⟨-, -, -, rfl⟩ | ⟨-, -, rfl⟩ | ⟨-, -, -, -, rfl⟩⟩ | ⟨-, b, r, -, ⟨-, rfl⟩ | ⟨-, rfl⟩⟩ | ⟨-, -, rfl⟩⟩
          <;> simpa using ih
      · exact ih
      · exact ih
  exact ⟨⟨fun n => ⟨n, le_refl n, rfl⟩, inv_delaying, rfl⟩,
    ⟨fun n _ => ⟨n, le_refl n, .inr ⟨ready n, rfl⟩⟩, inv_sending, rfl⟩⟩

theorem witness_PressEdgeChatterStartsASecondSession :
    ∃ s : State, BlockInv s ∧ s.seq = .idle ∧ s.fault = false ∧ s.btnIn = s.cfg.btnActiveLevel :=
  ⟨{ State.reset with btnIn := false }, inv_reset.env [] [] true false [] 0 false, rfl, rfl, rfl⟩

/-- Parameters that fit and parameters that do not, each in the domain of a 50 Hz servo. -/
theorem witness_ServoPulseIsAWidthExactlyIfItFits :
    (State.reset.cfg.InRange ∧ CfgDomain State.reset.cfg.timerClockServo (servoRate State.reset.cfg) 50 ∧
      State.reset.cfg.Legal) ∧
    (illFittedParams.InRange ∧ CfgDomain illFittedParams.timerClockServo (servoRate illFittedParams) 50 ∧
      ¬ illFittedParams.Legal) := by
  unfold CfgDomain
  decide

/-- A completion with each of the codes 1 to 4, code 2 for a `SER.RECV`. -/
theorem witness_StatusCodesAreTheTable :
    (BlockInv State.reset ∧ see (present 0x1400000000 State.reset) (fun s => (s.opDone, opStatusOut s)) = some (true, 1)) ∧
    (BlockInv draining ∧ see (happen (.line [0x0A]) draining) (fun s => (s.opDone, opStatusOut s)) = some (true, 2)) ∧
    (BlockInv timingOut ∧ see (happen .tick1ms timingOut) (fun s => (s.opDone, opStatusOut s)) = some (true, 3)) ∧
    (BlockInv State.reset ∧ see (present 0x100000000F State.reset) (fun s => (s.opDone, opStatusOut s)) = some (true, 4)) :=
  ⟨⟨inv_reset, by decide⟩, ⟨inv_draining, by decide⟩, ⟨inv_timingOut, by decide⟩, ⟨inv_reset, by decide⟩⟩

/-- Where every later event leaves the state as it is, it stays. -/
theorem stateAfter_fixed {env : Nat → Event} {s f : State} {k : Nat} (h0 : stateAfter env s k = f)
    (h : ∀ n, k ≤ n → step { f with schedule := [env n] } = .next f) : ∀ n, stateAfter env s (k + n) = f := by
  intro n
  induction n with
  | zero => exact h0
  | succ n ih =>
    show (match step { stateAfter env s (k + n) with schedule := [env (k + n)] } with
      | .next t => t
      | .fault _ => stateAfter env s (k + n)
      | .refused _ => stateAfter env s (k + n)) = f
    rw [ih, h _ (Nat.le_add_right k n)]

/-- The button is released, and steps and ticks alternate for ever. -/
def releasing : Nat → Event
  | 0 => .btn true
  | n + 1 => if n % 2 = 0 then .seq else .tick1ms

/-- The peer answers an empty line once the command is out; otherwise the block steps for ever. -/
def answering : Nat → Event
  | 1 => .peerByte 0x0A
  | _ => .seq

/-- A block that waits for the button's release, the button held and the settle delay one tick long. -/
def held : State := { pressed with btnIn := false, cfg := { Config.vectorParams with settleMs := 1 } }

/-- A poll whose button is released, with a settle delay of one tick; a press whose peer answers. -/
theorem witness_SessionsEndUnderFairness :
    (∃ s : State, BlockInv s ∧ s.seq = .dbPressed ∧ btnPressed s = true ∧ FairSeq releasing s ∧
      ButtonReleased releasing s ∧ FairTick releasing) ∧
    (BlockInv pressing ∧ pressing.seq = .tx ∧ pressing.txPtr.toNat < cmdLength pressing.txSel ∧
      pressing.cfg.overflowPolicy = .capAndFlag ∧ FairSeq answering pressing ∧ FairTx answering pressing ∧
      PeerAnswers answering pressing ∧
      commandSent (stateAfter answering pressing 0) (stateAfter answering pressing 1)) := by
  have odd : ∀ n, releasing (2 * n + 1) = .seq := fun n => by simp [releasing]
  have even : ∀ n, releasing (2 * n + 2) = .tick1ms := fun n => by simp [releasing]
  have still := stateAfter_fixed (env := releasing)
    (s := held) (k := 4) rfl (by
      rintro (_ | n) h
      · omega
      · simp only [releasing]
        split <;> rfl)
  have ended := stateAfter_fixed (env := answering) (s := pressing) (k := 5) rfl (by
      rintro (_ | _ | n) h
      · omega
      · omega
      · rfl)
  refine ⟨⟨held, blockInv_of_empty (by decide) rfl (by decide) (by decide) (by decide) rfl rfl rfl (by constructor <;> decide),
    rfl, rfl, fun n => ⟨2 * n + 1, by omega, .inl (odd n)⟩, fun n _ => ⟨4 + (2 * n + 1), by omega, ?_, ?_⟩,
    fun n => ⟨2 * n + 2, by omega, even n⟩⟩, inv_pressing, rfl, by decide, rfl, fun n => ⟨n + 2, by omega, .inl rfl⟩,
    fun n _ => ⟨5 + n, by omega, .inl ?_⟩, ?_, by decide⟩
  · rw [still]; rfl
  · rw [show 4 + (2 * n + 1) = 2 * (n + 2) + 1 by omega]; exact odd _
  · rw [ended]; decide
  · rintro (_ | _ | _ | _ | _ | n) h
    · exact ⟨1, by omega, 0x0A, by decide, rfl⟩
    all_goals exfalso
    · exact absurd h (by decide)
    · exact absurd h (by decide)
    · exact absurd h (by decide)
    · exact absurd h (by decide)
    · rw [show n + 1 + 1 + 1 + 1 + 1 = 5 + n by omega, ended] at h
      exact absurd h.1 (by decide)

end Sys2Proof.Tests
end

section
/-! SUPPORT. The sticky fault (10_state.md R24): what every event does in a faulted state, and where a fault can come
from. -/

namespace Sys2Proof.Machine

/-! ## The parameters, R6: no event writes them -/

theorem seqEvent_cfg {s t : State} (h : seqEvent s = .next t) : t.cfg = s.cfg := by
  rcases seqEvent_cases h with rfl | ⟨-, ⟨-, c, -, ⟨-, -, rfl⟩ | ⟨-, -, rfl⟩ | ⟨-, -, rfl⟩⟩ | ⟨-, b, r, -, ⟨-, -, rfl⟩ |
    ⟨-, -, rfl⟩ | ⟨-, -, -, rfl⟩ | ⟨-, -, rfl⟩ | ⟨-, -, -, -, rfl⟩⟩ | ⟨-, b, r, -, ⟨-, rfl⟩ | ⟨-, rfl⟩⟩ | ⟨-, -, rfl⟩⟩
    <;> simp

theorem tick1ms_cfg {s t : State} (h : tick1ms s = .next t) : t.cfg = s.cfg := by
  rcases tick1ms_cases h with rfl | ⟨-, ⟨-, rfl⟩ | ⟨-, -, rfl⟩ | ⟨-, -, rfl⟩⟩ | ⟨-, ⟨-, rfl⟩ | ⟨-, -, rfl⟩⟩ <;> simp

theorem hostEvent_cfg {w : OpWord} {s t : State} (h : hostEvent w s = .next t) : t.cfg = s.cfg := by
  rcases hostEvent_cases h with rfl | ⟨-, -, ⟨st, r, m, v, a, rfl, -, -⟩ | ⟨-, rfl⟩ | ⟨-, rfl⟩ | ⟨-, -, rfl⟩ | ⟨-, rfl⟩ |
    ⟨-, -, rfl⟩⟩ <;> rfl

theorem applyEvent_cfg {e : Event} {s t : State} (h : applyEvent e s = .next t) : t.cfg = s.cfg :=
  applyEvent_keeps (R := fun s t => t.cfg = s.cfg) (fun _ => rfl) (fun _ _ _ h1 h2 => h2.trans h1)
    (fun _ _ _ => hostEvent_cfg) (fun _ _ => seqEvent_cfg) (fun _ _ => tick1ms_cfg) (fun _ _ => setChan_cfg _ _ _)
    (fun _ _ => rfl) (fun _ _ => rfl) (fun _ _ => rfl) (fun _ _ => rfl) (fun _ => rfl) h

theorem step_cfg {s t : State} (h : step s = .next t) : t.cfg = s.cfg := by
  simpa using applyEvent_cfg h

/-! ## The events in a faulted state -/

section
variable {s : State} (hf : s.fault = true)
include hf

theorem opReady_of_fault : opReady s = false := by simp [opReady, hf]

theorem timeoutRuns_of_fault : timeoutRuns s = false := by simp [timeoutRuns, hf]

theorem seqEvent_of_fault : seqEvent s = .next s := by simp [seqEvent, hf]

theorem hostEvent_of_fault (w : OpWord) : hostEvent w s = .next s := by simp [hostEvent, opReady_of_fault hf]

theorem recvBurst_of_fault (k : Nat) : recvBurst k s = .next s := by
  induction k with
  | zero => rfl
  | succ k ih =>
    rw [recvBurst, seqEvent_of_fault hf, andThen_next, ih]
    split <;> rfl

/-- The bytes of a line arrive and wait: a faulted receive takes none of them. -/
theorem receiveLine_of_fault (bytes : List Byte) : receiveLine bytes s = .next (peerBytes bytes s) :=
  recvBurst_of_fault (s := peerBytes bytes s) hf _

theorem tick1ms_of_fault (hs : s.seq = .rx) : tick1ms s = .next s := by
  simp [tick1ms, hs, timeoutRuns_of_fault hf]

theorem lineEvent_of_fault (hs : s.seq = .rx) {bytes : List Byte} {t : State} (h : lineEvent bytes s = .next t) :
    t = s ∨ t = peerBytes bytes s := by
  rcases lineEvent_cases h with ⟨sel, -, h⟩ | h
  · rcases sendLine_cases h with rfl | ⟨htx, -⟩
    · exact .inl rfl
    · exact absurd (hs.symm.trans htx) (by decide)
  · rw [receiveLine_of_fault hf] at h
    cases h
    exact .inr rfl

/-- R24: in a faulted receive no event but `Reset` moves the sequencer, completes the operation or clears the fault. -/
theorem applyEvent_of_fault (hs : s.seq = .rx) {e : Event} (he : e ≠ .reset) {t : State}
    (h : applyEvent e s = .next t) :
    t.fault = true ∧ t.seq = s.seq ∧ t.curOp = s.curOp ∧ t.opDone = s.opDone := by
  rcases applyEvent_cases h with ⟨w, -, h | rfl⟩ | ⟨bytes, -, h⟩ | ⟨-, h⟩ | ⟨-, h⟩ | ⟨ch, -, rfl⟩ | ⟨b, -, rfl⟩ |
    ⟨-, rfl⟩ | ⟨-, rfl⟩ | ⟨v, -, rfl⟩ | ⟨v, -, rfl⟩ | ⟨rfl, -⟩
  · rw [hostEvent_of_fault hf] at h
    cases h
    exact ⟨hf, rfl, rfl, rfl⟩
  · exact ⟨hf, rfl, rfl, rfl⟩
  · rcases lineEvent_of_fault hf hs h with rfl | rfl <;> exact ⟨hf, rfl, rfl, rfl⟩
  · rw [seqEvent_of_fault hf] at h
    cases h
    exact ⟨hf, rfl, rfl, rfl⟩
  · rw [tick1ms_of_fault hf hs] at h
    cases h
    exact ⟨hf, rfl, rfl, rfl⟩
  · simp [timTick, hf]
  · exact ⟨hf, rfl, rfl, rfl⟩
  · exact ⟨hf, rfl, rfl, rfl⟩
  · rcases refPeer_cases s with h | ⟨n, bytes, h⟩ <;> rw [h] <;> exact ⟨hf, rfl, rfl, rfl⟩
  · exact ⟨hf, rfl, rfl, rfl⟩
  · exact ⟨hf, rfl, rfl, rfl⟩
  · exact absurd rfl he

end

/-! ## Where a fault comes from -/

/-- A fault, where there is one, is that of a receive under `LEGACY_FAULT` whose buffer is full (R224, R306). -/
def FaultIsOverrun (s : State) : Prop :=
  s.fault = true → s.cfg.overflowPolicy = .legacyFault ∧ s.seq = .rx ∧ s.rxOvf = true

theorem FaultIsOverrun.of_noFault {s : State} (hf : s.fault = false) : FaultIsOverrun s :=
  fun h => absurd h (by simp [hf])

theorem hostEvent_fault {w : OpWord} {s t : State} (h : hostEvent w s = .next t) : t.fault = s.fault := by
  rcases hostEvent_cases h with rfl | ⟨-, -, ⟨st, r, m, v, a, rfl, -, -⟩ | ⟨-, rfl⟩ | ⟨-, rfl⟩ | ⟨-, -, rfl⟩ | ⟨-, rfl⟩ |
    ⟨-, -, rfl⟩⟩ <;> rfl

theorem tick1ms_fault {s t : State} (h : tick1ms s = .next t) : t.fault = s.fault := by
  rcases tick1ms_cases h with rfl | ⟨-, ⟨-, rfl⟩ | ⟨-, -, rfl⟩ | ⟨-, -, rfl⟩⟩ | ⟨-, ⟨-, rfl⟩ | ⟨-, -, rfl⟩⟩ <;> simp

theorem FaultIsOverrun.hostEvent {s t : State} (hs : FaultIsOverrun s) {w : OpWord} (h : hostEvent w s = .next t) :
    FaultIsOverrun t := by
  cases hf : s.fault with
  | false => exact .of_noFault (by rw [hostEvent_fault h, hf])
  | true =>
    rw [hostEvent_of_fault hf] at h
    cases h
    exact hs

theorem FaultIsOverrun.tick1ms {s t : State} (hs : FaultIsOverrun s) (h : tick1ms s = .next t) : FaultIsOverrun t := by
  cases hf : s.fault with
  | false => exact .of_noFault (by rw [tick1ms_fault h, hf])
  | true =>
    obtain ⟨-, hrx, -⟩ := hs hf
    rw [tick1ms_of_fault hf hrx] at h
    cases h
    exact hs

/-- The one micro-step that sets the fault takes a byte with the buffer full, R224. -/
theorem FaultIsOverrun.seqEvent {s t : State} (hs : FaultIsOverrun s) (h : seqEvent s = .next t) : FaultIsOverrun t := by
  rcases seqEvent_cases h with rfl | ⟨hf, ⟨-, c, -, sent⟩ | ⟨hrx, b, rest, -, taken⟩ | ⟨-, b, rest, -, drained⟩ |
    ⟨-, -, rfl⟩⟩
  · exact hs
  · rcases sent with ⟨-, -, rfl⟩ | ⟨-, -, rfl⟩ | ⟨-, -, rfl⟩ <;> exact .of_noFault hf
  · rcases taken with ⟨-, -, rfl⟩ | ⟨-, -, rfl⟩ | ⟨-, -, -, rfl⟩ | ⟨hp, hfull, rfl⟩ | ⟨-, -, -, -, rfl⟩
    · exact .of_noFault (by simpa using hf)
    · exact .of_noFault hf
    · exact .of_noFault hf
    · exact fun _ => ⟨hp, hrx, hfull⟩
    · exact .of_noFault hf
  · rcases drained with ⟨-, rfl⟩ | ⟨-, rfl⟩ <;> exact .of_noFault (by simpa using hf)
  · exact .of_noFault hf

/-- Every event keeps it, in any state: no invariant of the block is needed. -/
theorem FaultIsOverrun.applyEvent {e : Event} {s t : State} (hs : FaultIsOverrun s) (h : applyEvent e s = .next t) :
    FaultIsOverrun t :=
  applyEvent_keeps (R := fun s t => FaultIsOverrun s → FaultIsOverrun t) (fun _ => id) (fun _ _ _ h1 h2 => h2 ∘ h1)
    (fun _ _ _ h hs => hs.hostEvent h) (fun _ _ h hs => hs.seqEvent h) (fun _ _ h hs => hs.tick1ms h)
    (fun _ _ hs => by simpa [FaultIsOverrun, timTick] using hs) (fun _ _ => id) (fun _ _ => id) (fun _ _ => id)
    (fun _ _ => id) (fun _ _ => .of_noFault rfl) h hs

/-! ## The steps -/

theorem step_sets_fault {s t : State} (h : step s = .next t) (hf : s.fault = false) (hf' : t.fault = true) :
    s.cfg.overflowPolicy = .legacyFault ∧ t.seq = .rx ∧ t.rxOvf = true := by
  have ht : FaultIsOverrun t := .applyEvent (.of_noFault (by simpa using hf)) h
  rw [← step_cfg h]
  exact ht hf'

theorem step_of_fault {s t : State} (hi : BlockInv s) (hf : s.fault = true) (h : step s = .next t)
    (he : nextEvent s ≠ .reset) : t.fault = true ∧ t.seq = s.seq ∧ t.curOp = s.curOp ∧ t.opDone = false := by
  obtain ⟨-, hrx⟩ := hi.control.fault_rx hf
  simpa using applyEvent_of_fault (s := takeEvent s) (by simpa using hf) (by simpa using hrx) he h

theorem step_hold_of_fault {s : State} (hf : s.fault = true) (he : nextEvent s = .seq ∨ ∃ w, nextEvent s = .host w) :
    step s = .next (takeEvent s) := by
  have hf' : (takeEvent s).fault = true := by simpa using hf
  rcases he with he | ⟨w, he⟩ <;> rw [step, he]
  · exact seqEvent_of_fault hf'
  · exact hostEvent_of_fault hf' w

theorem step_reset {s : State} (he : nextEvent s = .reset) : step s = .next (resetEvent (takeEvent s)) := by
  rw [step, he]
  rfl

/-- Settles O42: a fault is an overrun's because every event keeps `FaultIsOverrun`; in a faulted receive every event but
`Reset` holds, or changes only what the environment and the timers own. -/
theorem faultIsSticky : Obligations.FaultIsSticky :=
  ⟨fun _ _ => step_sets_fault, fun _ _ => step_of_fault,
    fun _ hf => ⟨step_hold_of_fault hf, fun he => ⟨_, step_reset he, rfl⟩⟩, rfl⟩

end Sys2Proof.Machine
end

section
/-! SUPPORT. Operation words by their code (30_encoding.md R106 to R109): which words are illegal, what an illegal word does
at a ready host port, and the operations whose operand is not read. -/

namespace Sys2Proof.Machine

/-! ## Illegal words, R108 -/

theorem opCode_mem_legalCodes {w : OpWord} {i : Instr} (h : decodeOp w = .ok i) : opCode w ∈ legalCodes := by
  rcases decodeOp_cases h with ⟨hc, -⟩ | ⟨hc, -⟩ | ⟨hc, -⟩ | ⟨hc, -⟩ | ⟨hc, -⟩ | ⟨hc, -⟩ | ⟨hc, -⟩ | ⟨hc, -⟩ | ⟨hc, -⟩ |
    ⟨hc, -⟩ | ⟨hc, -⟩ <;> rw [hc] <;> decide

/-- R108: the one code whose operand the decoder checks. -/
theorem decodeOp_of_codeSerSend {w : OpWord} (hc : opCode w = codeSerSend) : decodeOp w =
    if Arg.isSendSelect (opArg w) then .ok (.serSend (opArg w)) else .error (.reservedSelect (opArg w)) := by
  rw [← opWord_eq w, hc, decodeOp_opWordOf, opArg_opWordOf]
  rfl

/-- R105: `arg[31:1]` is `word[31:1]`. -/
theorem extractLsb'_opArg (w : OpWord) : (opArg w).extractLsb' 1 31 = w.extractLsb' 1 31 :=
  BitVec.extractLsb'_extractLsb'_of_le (by decide)

/-- R108: a code outside the map and a select with reserved bits are refused. -/
theorem decodeOp_error_of_illegal {w : OpWord}
    (h : opCode w ∉ legalCodes ∨ opCode w = codeSerSend ∧ w.extractLsb' 1 31 ≠ 0#31) : ∃ e, decodeOp w = .error e := by
  rcases h with hc | ⟨hc, ha⟩
  · cases hd : decodeOp w with
    | ok i => exact absurd (opCode_mem_legalCodes hd) hc
    | error e => exact ⟨e, rfl⟩
  · rw [← extractLsb'_opArg] at ha
    exact ⟨_, (decodeOp_of_codeSerSend hc).trans (if_neg ha)⟩

/-- R302: the code an illegal word reports is its own. -/
theorem illegalCode_of_decodeOp {w : OpWord} {e : DecodeError} (h : decodeOp w = .error e) : illegalCode e = opCode w := by
  unfold decodeOp at h
  simp only at h
  (repeat' split at h) <;> cases h
  · exact Eq.symm ‹opCode w = codeSerSend›
  · rfl

/-- R302: an illegal word at a ready port completes with its code. -/
theorem hostEvent_of_illegal {w : OpWord} {s : State} {e : DecodeError} (hr : opReady s = true)
    (h : decodeOp w = .error e) : hostEvent w s = .next (complete .illegalOp ((opCode w).setWidth 32) s) := by
  simp [hostEvent, hr, h, illegalCode_of_decodeOp h]

/-- Settles O4: the decoder refuses such a word, so the `Host` event raises `IllegalOperation` with the word's code; the
completion writes `cur_op` and `seq` with what a ready port already holds. -/
theorem illegalWordsRaiseIllegalOperation : Obligations.IllegalWordsRaiseIllegalOperation := by
  intro s w rest hsched hseq hcur hf hw
  obtain ⟨e, he⟩ := decodeOp_error_of_illegal hw
  have hr : opReady { s with schedule := rest, opDone := false } = true := opReady_iff.mpr ⟨hseq, hf⟩
  calc step s
    _ = hostEvent w { s with schedule := rest, opDone := false } := step_of_schedule hsched
    _ = .next (complete .illegalOp ((opCode w).setWidth 32) { s with schedule := rest, opDone := false }) :=
      hostEvent_of_illegal hr he
    _ = _ := by simp [complete, opCode, hseq, hcur]

/-! ## Operands that are not read, R109 -/

/-- Each of the four codes stands for one instruction, whatever the operand, and that is encoded with operand 0. -/
theorem decodeOp_of_unread {c : Byte} (hc : c = 0x00 ∨ c = 0x21 ∨ c = 0x30 ∨ c = 0x40) :
    ∃ i, encode i = .opWord (c ++ 0#32) ∧ ∀ a : Arg, decodeOp (c ++ a) = .ok i := by
  rcases hc with rfl | rfl | rfl | rfl
  · exact ⟨.nop, rfl, decodeOp_opWordOf _⟩
  · exact ⟨.serRecv, rfl, decodeOp_opWordOf _⟩
  · exact ⟨.btnPoll, rfl, decodeOp_opWordOf _⟩
  · exact ⟨.ctlPress, rfl, decodeOp_opWordOf _⟩

/-- The `Host` event reads of a word only what it decodes to. -/
theorem hostEvent_congr {v w : OpWord} (h : decodeOp v = decodeOp w) (s : State) : hostEvent v s = hostEvent w s := by
  simp only [hostEvent, decode_opWord, h]

/-- Settles O3: the word with operand `a` and the word with operand 0 decode to the same instruction. -/
theorem unreadOperandBitsAreIgnored : Obligations.UnreadOperandBitsAreIgnored := by
  intro c a s hc
  obtain ⟨i, henc, hdec⟩ := decodeOp_of_unread hc
  have hsame : decodeOp (c ++ a) = decodeOp (c ++ 0#32) := (hdec a).trans (hdec 0#32).symm
  refine ⟨hsame, hostEvent_congr hsame s, fun j hj => ?_⟩
  cases (hdec a).symm.trans hj
  exact henc

end Sys2Proof.Machine
end

section
/-! SUPPORT. The PWM operations (40_pwm.md): what each does, for either channel, in the words of the obligations;
the duty map; the timer clock and the output. -/

namespace Sys2Proof.Machine

/-! ## The instructions -/

theorem exec_pwmCfgMotor (f : Arg) (s : State) : exec (.pwmCfgMotor f) s = .next (pwmCfg .motor f s) := rfl
theorem exec_pwmCfgServo (f : Arg) (s : State) : exec (.pwmCfgServo f) s = .next (pwmCfg .servo f s) := rfl
theorem exec_pwmDutyMotor (p : Arg) (s : State) : exec (.pwmDutyMotor p) s = .next (pwmDuty .motor p s) := rfl
theorem exec_pwmDutyServo (p : Arg) (s : State) : exec (.pwmDutyServo p) s = .next (pwmDuty .servo p s) := rfl
theorem exec_pwmAngleServo (a : Arg) (s : State) : exec (.pwmAngleServo a) s = .next (pwmAngle a s) := rfl

theorem complete_eq_completed (st : Status) (r : Arg) (s : State) : complete st r s = completed st r s := rfl

/-! ## `PWM.CFG`, R142 to R145 -/

theorem cfgLegal_iff {C T f : Nat} : cfgLegal C T f = true ↔ CfgDomain C T f := by
  simp [cfgLegal, CfgDomain, and_assoc]

theorem tickRateHz_servo (p : Params) : tickRateHz p .servo = servoRate p := by
  unfold tickRateHz servoRate
  cases p.servoTick <;> rfl

theorem configure_eq_configured (b : Bool) (C T : Nat) (f : Arg) (c : Channel) :
    c.configure b (cfgPrescaler C T) (cfgPeriod T f.toNat) f = configured b C T f c := rfl

section
variable {ch : Ch} {f : Arg} {s : State}

theorem pwmCfg_of_cfgDomain (h : CfgDomain (timerClockHz s.cfg ch) (tickRateHz s.cfg ch) f.toNat) :
    pwmCfg ch f s = completed .ok (cfgReport (timerClockHz s.cfg ch) (tickRateHz s.cfg ch) f.toNat)
      (s.setChan ch
        (configured (hasMoe s.cfg ch) (timerClockHz s.cfg ch) (tickRateHz s.cfg ch) f (s.chan ch))) := by
  rw [← complete_eq_completed, ← configure_eq_configured]
  exact if_pos (cfgLegal_iff.mpr h)

theorem pwmCfg_of_not_cfgDomain (h : ¬ CfgDomain (timerClockHz s.cfg ch) (tickRateHz s.cfg ch) f.toNat) :
    pwmCfg ch f s = completed .badArg 0 s := by
  rw [← complete_eq_completed, ← raise_badArgument]
  exact if_neg (mt cfgLegal_iff.mp h)

end

/-- Settles O10: the model's check of R142 is the domain written out, and each side of it is one branch of `pwmCfg`. -/
theorem pwmCfgConfiguresOrReportsBadArg : Obligations.PwmCfgConfiguresOrReportsBadArg := by
  refine ⟨fun f s h => ?_, fun f s h => ?_, fun f s h => ?_, fun f s h => ?_⟩
  · rw [exec_pwmCfgMotor, pwmCfg_of_cfgDomain (ch := .motor) h]
    rfl
  · rw [← tickRateHz_servo] at h ⊢
    rw [exec_pwmCfgServo, pwmCfg_of_cfgDomain (ch := .servo) h]
    rfl
  · rw [exec_pwmCfgMotor, pwmCfg_of_not_cfgDomain (ch := .motor) h]
  · rw [← tickRateHz_servo] at h
    rw [exec_pwmCfgServo, pwmCfg_of_not_cfgDomain (ch := .servo) h]

/-! ## `PWM.DUTY` and `PWM.ANGLE`, R148 and R152 -/

/-- R10: the model clamps a signed operand in the integers. -/
theorem toNat_clamp (a : Arg) (hi : Nat) : (clamp (sext32 a) 0 hi).toNat = clamped a hi := by
  unfold clamp clamped sext32
  split_ifs <;> rfl

theorem dutyPercent_eq (a : Arg) : dutyPercent a = clamped a 100 := toNat_clamp a 100

theorem angleDegrees_eq (a : Arg) : angleDegrees a = clamped a 180 := toNat_clamp a 180

theorem pwmDuty_eq (ch : Ch) (p : Arg) (s : State) :
    pwmDuty ch p s = completed .ok (BitVec.ofNat 32 (dutyCompare (s.chan ch).arr.toNat (clamped p 100)))
      (s.setChan ch { s.chan ch with
        ccrPre := BitVec.ofNat 16 (dutyCompare (s.chan ch).arr.toNat (clamped p 100))
        dutyCur := BitVec.ofNat 7 (clamped p 100), setKind := .duty }) := by
  rw [← dutyPercent_eq]
  rfl

theorem pwmAngle_eq (a : Arg) (s : State) :
    pwmAngle a s = completed .ok (BitVec.ofNat 32 (angleCompare s.cfg (clamped a 180)))
      { s with
        servo := { s.servo with ccrPre := BitVec.ofNat 16 (angleCompare s.cfg (clamped a 180)), setKind := .angle }
        angleCur := BitVec.ofNat 8 (clamped a 180) } := by
  rw [← angleDegrees_eq]
  rfl

/-- Settles O11: `pwmDuty` on each channel, with `dutyCompare` written out. -/
theorem pwmDutyWritesThePreload : Obligations.PwmDutyWritesThePreload := by
  refine ⟨fun p s => ?_, fun p s => ?_⟩
  · rw [exec_pwmDutyMotor, pwmDuty_eq]
    rfl
  · rw [exec_pwmDutyServo, pwmDuty_eq]
    rfl

/-- Settles O13: `pwmAngle`, with `angleCompare` written out. -/
theorem pwmAngleWritesThePreload : Obligations.PwmAngleWritesThePreload := by
  intro a s
  rw [exec_pwmAngleServo, pwmAngle_eq]
  rfl

/-! ## The duty map, R150 -/

theorem dutyProduct_le {arr q : Nat} (ha : arr ≤ 65534) (hq : q ≤ 100) : (arr + 1) * q ≤ 6553500 :=
  Nat.mul_le_mul (Nat.succ_le_succ ha) hq

theorem dutyCompare_mono (arr : Nat) {q r : Nat} (h : q ≤ r) : dutyCompare arr q ≤ dutyCompare arr r :=
  Nat.div_le_div_right (Nat.mul_le_mul_left _ h)

theorem dutyCompare_zero (arr : Nat) : dutyCompare arr 0 = 0 := by simp [dutyCompare]

theorem dutyCompare_hundred (arr : Nat) : dutyCompare arr 100 = arr + 1 := Nat.mul_div_left _ (by decide)

theorem dutyCompare_le {arr q : Nat} (hq : q ≤ 100) : dutyCompare arr q ≤ arr + 1 :=
  (dutyCompare_mono arr hq).trans_eq (dutyCompare_hundred arr)

theorem dutyCompare_exact {arr : Nat} (h : 100 ∣ arr + 1) (q : Nat) : 100 * dutyCompare arr q = (arr + 1) * q :=
  Nat.mul_div_cancel' (h.mul_right q)

theorem dutyCompare_nineteen (q : Nat) : dutyCompare 19 q = q / 5 := Nat.mul_div_mul_left q 5 (by decide : 0 < 20)

/-- Settles O12: the bound is monotonicity up to the full duty, the exactness a product that 100 divides. -/
theorem dutyMapIsMonotoneAndExact : Obligations.DutyMapIsMonotoneAndExact :=
  ⟨fun _ _ ha hq => ⟨dutyProduct_le ha hq, dutyCompare_le hq⟩, fun arr _ _ => dutyCompare_mono arr,
    fun _ q h => dutyCompare_exact h q, dutyCompare_nineteen,
    fun arr => ⟨dutyCompare_zero arr, dutyCompare_hundred arr⟩⟩

/-! ## The timer clock, R158 -/

/-- R140: writing back what a channel holds changes nothing. -/
@[simp] theorem setChan_chan_same (s : State) (ch : Ch) : s.setChan ch (s.chan ch) = s := by
  cases ch <;> rfl

theorem applyEvent_timTick (ch : Ch) (s : State) :
    applyEvent (.timTick ch) s = .next (s.setChan ch (s.chan ch).timTick) := rfl

section
variable {c : Channel}

theorem Channel.timTick_of_stopped (he : c.en = false) : c.timTick = c := by simp [Channel.timTick, he]

theorem Channel.timTick_of_prescaling (he : c.en = true) (hp : c.pcnt.toNat < c.psc.toNat) :
    c.timTick = { c with pcnt := c.pcnt + 1 } := by
  simp only [Channel.timTick, if_pos he, if_pos hp]

theorem Channel.timTick_of_counting (he : c.en = true) (hp : c.psc.toNat ≤ c.pcnt.toNat)
    (hc : c.cnt.toNat < c.arr.toNat) : c.timTick = { c with pcnt := 0, cnt := c.cnt + 1 } := by
  simp only [Channel.timTick, if_pos he, if_neg hp.not_gt, if_pos hc]

theorem Channel.timTick_of_boundary (he : c.en = true) (hp : c.psc.toNat ≤ c.pcnt.toNat)
    (hc : c.arr.toNat ≤ c.cnt.toNat) : c.timTick = { c with pcnt := 0, cnt := 0, ccrAct := c.ccrPre } := by
  simp only [Channel.timTick, if_pos he, if_neg hp.not_gt, if_neg hc.not_gt]

end

/-- Settles O37: the four branches of R158, each a law of `Channel.timTick`. -/
theorem timTickAdvancesTheCounter : Obligations.TimTickAdvancesTheCounter := by
  intro s ch c
  refine ⟨fun he => ?_, fun he hp => ?_, fun he hp hc => ?_, fun he hp hc => ?_⟩ <;> rw [applyEvent_timTick]
  · rw [Channel.timTick_of_stopped he, setChan_chan_same]
  · rw [Channel.timTick_of_prescaling he hp]
  · rw [Channel.timTick_of_counting he hp hc]
  · rw [Channel.timTick_of_boundary he hp hc]

/-! ## The output, R160 -/

theorem pwmActive_iff {s : State} {ch : Ch} : pwmActive s ch = true ↔
    (s.chan ch).en = true ∧ (hasMoe s.cfg ch = false ∨ (s.chan ch).moe = true) ∧
      (s.chan ch).cnt.toNat < (s.chan ch).ccrAct.toNat := by
  simp [pwmActive, and_assoc]

/-- R160: a compare of 0 is never active. -/
theorem pwmActive_of_ccrAct_zero {s : State} {ch : Ch} (h : (s.chan ch).ccrAct = 0) : pwmActive s ch = false := by
  simp [pwmActive, h]

/-- Settles O39: the condition is `pwmActive` taken apart; at a compare of `arr + 1` or more the counter is below it. -/
theorem pwmOutputFollowsTheActiveCompare : Obligations.PwmOutputFollowsTheActiveCompare := by
  intro s ch c moeOk level
  have hactive : pwmActive s ch = true ↔ c.en = true ∧ moeOk ∧ c.cnt.toNat < c.ccrAct.toNat := by
    cases ch <;> exact pwmActive_iff
  have hlevel : pwmOut s ch = if pwmActive s ch then level else !level := by
    cases ch <;> rfl
  exact ⟨hactive, hlevel, pwmActive_of_ccrAct_zero,
    fun he hm hcnt hfull => hactive.mpr ⟨he, hm, Nat.lt_of_lt_of_le (Nat.lt_succ_of_le hcnt) hfull⟩⟩

end Sys2Proof.Machine
end

section
/-! SUPPORT. The debounced input and the delay service (41_debounce_delay.md): the two operations and the micro-steps of
their sequencer states, and one tick of the millisecond time base, in the words of the obligations. -/

namespace Sys2Proof.Machine

/-! ## The tick, R192 -/

theorem timeoutRuns_iff {s : State} : timeoutRuns s = true ↔
    (s.seq = .rx ∨ s.seq = .rxDrain) ∧ s.cfg.rxTimeoutMs ≠ none ∧ s.fault = false := by
  simp [timeoutRuns, receiving, Option.isSome_iff_ne_none, and_assoc]

section
variable {s : State}

theorem tick1ms_of_waiting (hs : s.seq = .dly ∨ s.seq = .dbReleased) : tick1ms s = .next (delayTick s) := if_pos hs

theorem not_waiting_of_receiving (hs : s.seq = .rx ∨ s.seq = .rxDrain) : ¬ (s.seq = .dly ∨ s.seq = .dbReleased) := by
  rcases hs with hs | hs <;> simp [hs]

theorem tick1ms_of_timeoutRuns (hr : timeoutRuns s = true) : tick1ms s = timeoutTick s :=
  (if_neg (not_waiting_of_receiving (timeoutRuns_iff.mp hr).1)).trans (if_pos hr)

theorem tick1ms_of_untimed (hs : ¬ (s.seq = .dly ∨ s.seq = .dbReleased)) (hr : ¬ timeoutRuns s = true) :
    tick1ms s = .next s :=
  (if_neg hs).trans (if_neg hr)

theorem delayTick_of_running (hd : s.dlyCnt - 1 ≠ 0) : delayTick s = { s with dlyCnt := s.dlyCnt - 1 } := if_neg hd

/-- The last tick: which of the two waits it ends is read from `seq`. -/
theorem delayTick_of_last (hd : s.dlyCnt - 1 = 0) :
    delayTick s = completed .ok (if s.seq = .dly then 0 else 1) { s with dlyCnt := 0 } := by
  simp only [delayTick, hd, if_true]
  split <;> rfl

theorem tick1ms_of_running (hs : s.seq = .dly ∨ s.seq = .dbReleased) (hd : s.dlyCnt - 1 ≠ 0) :
    tick1ms s = .next { s with dlyCnt := s.dlyCnt - 1 } := by
  rw [tick1ms_of_waiting hs, delayTick_of_running hd]

theorem tick1ms_of_last_dly (hs : s.seq = .dly) (hd : s.dlyCnt - 1 = 0) :
    tick1ms s = .next (completed .ok 0 { s with dlyCnt := 0 }) := by
  rw [tick1ms_of_waiting (.inl hs), delayTick_of_last hd, if_pos hs]

theorem tick1ms_of_last_dbReleased (hs : s.seq = .dbReleased) (hd : s.dlyCnt - 1 = 0) :
    tick1ms s = .next (completed .ok 1 { s with dlyCnt := 0 }) := by
  rw [tick1ms_of_waiting (.inr hs), delayTick_of_last hd, if_neg (by simp [hs])]

end

/-- Settles O31: the two waits are the first branch of R192, a timed receive the second, everything else the third. -/
theorem tickEventInFull : Obligations.TickEventInFull := fun _ =>
  ⟨tick1ms_of_running, tick1ms_of_last_dly, tick1ms_of_last_dbReleased,
    fun hs ht hf => tick1ms_of_timeoutRuns (timeoutRuns_iff.mpr ⟨hs, ht, hf⟩),
    fun hs hr => tick1ms_of_untimed hs (mt timeoutRuns_iff.mp hr)⟩

/-! ## `DLY.MS`, R190 -/

theorem exec_dlyMs (n : Arg) (s : State) : exec (.dlyMs n) s = execDlyMs n s := rfl

theorem execDlyMs_zero (s : State) : execDlyMs 0 s = .next (completed .ok 0 s) := rfl

theorem execDlyMs_of_ne_zero {n : Arg} (hn : n ≠ 0) (s : State) :
    execDlyMs n s = .next { s with dlyCnt := n, curOp := codeDlyMs, seq := .dly } :=
  if_neg fun h => hn (BitVec.eq_of_toNat_eq h)

/-- Settles O19: the two branches of R190, and the two ticks of R192 in `DLY`. -/
theorem dlyMsStartsOrCompletes : Obligations.DlyMsStartsOrCompletes := by
  refine ⟨fun s => ?_, fun n s hn => ?_, fun s hs => tick1ms_of_running (.inl hs), fun s => tick1ms_of_last_dly⟩ <;>
    rw [exec_dlyMs]
  · exact execDlyMs_zero s
  · exact execDlyMs_of_ne_zero hn s

/-! ## `BTN.POLL`, R180 -/

theorem exec_btnPoll (s : State) : exec .btnPoll s = execBtnPoll s := rfl

theorem btnPressed_iff {s : State} : btnPressed s = true ↔ s.btnIn = s.cfg.btnActiveLevel := by simp [btnPressed]

section
variable {s : State}

theorem execBtnPoll_of_active (hb : s.btnIn = s.cfg.btnActiveLevel) :
    execBtnPoll s = .next { s with curOp := codeBtnPoll, seq := .dbPressed } :=
  if_pos (btnPressed_iff.mpr hb)

theorem execBtnPoll_of_inactive (hb : s.btnIn ≠ s.cfg.btnActiveLevel) : execBtnPoll s = .next (completed .ok 0 s) :=
  if_neg (mt btnPressed_iff.mp hb)

theorem dbPressedStep_of_active (hb : s.btnIn = s.cfg.btnActiveLevel) : dbPressedStep s = s :=
  if_pos (btnPressed_iff.mpr hb)

theorem dbPressedStep_of_inactive (hb : s.btnIn ≠ s.cfg.btnActiveLevel) :
    dbPressedStep s = { s with dlyCnt := s.cfg.settleMs, seq := .dbReleased } :=
  if_neg (mt btnPressed_iff.mp hb)

theorem seqEvent_of_dbPressed (hs : s.seq = .dbPressed) (hf : s.fault = false) :
    seqEvent s = .next (dbPressedStep s) := by
  simp [seqEvent, hf, hs]

/-- R180: while the line is active the wait for the release holds, whether or not `Seq` is enabled. -/
theorem seqEvent_of_dbPressed_active (hs : s.seq = .dbPressed) (hb : s.btnIn = s.cfg.btnActiveLevel) :
    seqEvent s = .next s := by
  cases hf : s.fault with
  | true => exact seqEvent_of_fault hf
  | false => rw [seqEvent_of_dbPressed hs hf, dbPressedStep_of_active hb]

theorem seqEvent_of_dbPressed_inactive (hs : s.seq = .dbPressed) (hf : s.fault = false)
    (hb : s.btnIn ≠ s.cfg.btnActiveLevel) :
    seqEvent s = .next { s with dlyCnt := s.cfg.settleMs, seq := .dbReleased } := by
  rw [seqEvent_of_dbPressed hs hf, dbPressedStep_of_inactive hb]

theorem seqEvent_of_dbReleased (hs : s.seq = .dbReleased) : seqEvent s = .next s := by
  cases hf : s.fault with
  | true => exact seqEvent_of_fault hf
  | false => simp [seqEvent, hf, hs]

end

/-- Settles O17: the sample of the `Host` event and that of the `DB_PRESSED` micro-step each split on the line's level; in
`DB_RELEASED` only a tick does anything. -/
theorem btnPollRunsTheDebounceSession : Obligations.BtnPollRunsTheDebounceSession := by
  refine ⟨fun s hb => ?_, fun s hb => ?_, fun s => seqEvent_of_dbPressed_inactive, fun s => seqEvent_of_dbPressed_active,
    fun s hs => tick1ms_of_running (.inr hs), fun s => tick1ms_of_last_dbReleased, fun s => seqEvent_of_dbReleased⟩
  · rw [exec_btnPoll, execBtnPoll_of_active hb]
    rfl
  · rw [exec_btnPoll, execBtnPoll_of_inactive hb]

end Sys2Proof.Machine
end

section
/-! SUPPORT. The line-framed serial channel (42_serial.md): `SER.SEND` and `SER.RECV`, the micro-steps of `TX`, `RX` and
`RX_DRAIN`, the receive timeout and the end of a receive, in the words of the obligations. -/

namespace Sys2Proof.Machine

/-- R100: the two terminators. -/
theorem isTerminator_iff {b : Byte} : isTerminator b = true ↔ b = 0x0A#8 ∨ b = 0x0D#8 := by simp [isTerminator]

theorem not_isTerminator {b : Byte} (hn : b ≠ 0x0A#8) (hr : b ≠ 0x0D#8) : ¬ isTerminator b = true :=
  fun h => (isTerminator_iff.mp h).elim hn hr

/-- R75: a write to a cell that exists. -/
theorem memWrite_of_lt {s : State} {i : Nat} (hi : i < s.cfg.rxCap) (b : Byte) :
    memWrite s i b = .next { s with rxBuf := s.rxBuf.write i b } :=
  if_pos hi

/-! ## `SER.SEND`, R210 -/

theorem exec_serSend (arg : Arg) (s : State) : exec (.serSend arg) s = execSerSend arg s := rfl

theorem execSerSend_of_select {arg : Arg} (ha : Arg.isSendSelect arg) (s : State) :
    execSerSend arg s = .next { s with txSel := sendSelect arg, txPtr := 0, curOp := codeSerSend, seq := .tx } :=
  if_pos ha

theorem execSerSend_of_reserved {arg : Arg} (ha : ¬ Arg.isSendSelect arg) (s : State) :
    execSerSend arg s = .next (complete .illegalOp (codeSerSend.setWidth 32) s) :=
  if_neg ha

/-- Settles O15: the check of the select is the obligation's condition, and each side of it is one branch of R210. -/
theorem serSendStartsTheSend : Obligations.SerSendStartsTheSend := by
  refine ⟨fun arg s ha => ?_, fun arg s ha => ?_⟩ <;> rw [exec_serSend]
  · rw [execSerSend_of_select ha]
    rfl
  · rw [execSerSend_of_reserved ha, complete_eq_completed]
    rfl

/-! ## The `TX` micro-step, R212 -/

section
variable {s : State}

theorem seqEvent_of_tx (hs : s.seq = .tx) (hf : s.fault = false) : seqEvent s = txStep s := by
  simp [seqEvent, hf, hs]

theorem txStep_of_byte {c : Byte} (hc : cmdByte s.txSel s.txPtr.toNat = some c) (h0 : c ≠ 0x00#8) :
    txStep s = if s.txReady then .next { txPut c s with txPtr := s.txPtr + 1 } else .next s := by
  simp only [txStep, hc]
  exact if_neg h0

theorem txStep_of_end (hc : cmdByte s.txSel s.txPtr.toNat = some 0x00#8) :
    txStep s =
      if s.curOp = codeSerSend then .next (complete .ok (s.txPtr.setWidth 32) s) else .next (recvStart s) := by
  simp only [txStep, hc]
  exact if_pos rfl

theorem txStep_of_end_serSend (hc : cmdByte s.txSel s.txPtr.toNat = some 0x00#8) (hop : s.curOp = codeSerSend) :
    txStep s = .next (complete .ok (s.txPtr.setWidth 32) s) := by
  rw [txStep_of_end hc, if_pos hop]

/-- R254: at the 0x00 of its command a `CTL.PRESS` starts its receive. -/
theorem txStep_of_end_ctlPress (hc : cmdByte s.txSel s.txPtr.toNat = some 0x00#8) (hop : s.curOp = codeCtlPress) :
    txStep s = .next (recvStart s) := by
  rw [txStep_of_end hc, if_neg (by rw [hop]; decide)]

end

/-- Settles O26: before the 0x00 the step splits on the transmitter, at the 0x00 on the operation it serves. -/
theorem txMicroStepSendsOneByte : Obligations.TxMicroStepSendsOneByte := by
  intro s c hs hf hc
  rw [seqEvent_of_tx hs hf]
  refine ⟨fun h0 hr => ?_, fun h0 hr => ?_, ?_, ?_⟩
  · rw [txStep_of_byte hc h0, if_pos hr]
    rfl
  · rw [txStep_of_byte hc h0, if_neg (by simp [hr])]
  · rintro rfl hop
    exact txStep_of_end_serSend hc hop
  · rintro rfl hop
    exact txStep_of_end_ctlPress hc hop

/-! ## The start of a receive, R216 -/

theorem exec_serRecv (s : State) : exec .serRecv s = .next (recvStart { s with curOp := codeSerRecv }) := rfl

/-- R216 for a counter that holds `n` once loaded. -/
theorem recvStart_eq {s : State} {n : Arg} (hn : s.cfg.rxTimeoutMs.getD s.rxTmoCnt = n) :
    recvStart s =
      { s with rxBuf := s.rxBuf.clear s.cfg.rxCap, rxIdx := 0, rxOvf := false, rxTmoCnt := n, seq := .rx } := by
  rw [← hn]
  rfl

/-- Settles O16: both callers go through `recvStart`, whose buffer is the old one cleared. -/
theorem receiveStartClearsTheBuffer : Obligations.ReceiveStartClearsTheBuffer := by
  intro s
  refine ⟨s.rxBuf.clear s.cfg.rxCap, ?_, fun hs hf hop hc => ?_, fun i => Memory.read_clear s.cfg.rxCap i⟩
  · rw [exec_serRecv]
    exact congrArg _ (recvStart_eq (by cases s.cfg.rxTimeoutMs <;> rfl))
  · rw [seqEvent_of_tx hs hf, txStep_of_end_ctlPress hc hop]
    exact congrArg _ (recvStart_eq (by cases s.cfg.rxTimeoutMs <;> rfl))

/-! ## The `RX` micro-step, R218, R220, R224 -/

section
variable {s : State} {b : Byte} {rest : List Byte}

theorem seqEvent_of_rx (hs : s.seq = .rx) (hf : s.fault = false) : seqEvent s = rxStep s := by
  simp [seqEvent, hf, hs]

theorem rxStep_of_nil (hr : s.rxStream = []) : rxStep s = .next s := by simp only [rxStep, hr]

theorem rxStep_of_capAndFlag (hp : s.cfg.overflowPolicy = .capAndFlag) (hr : s.rxStream = b :: rest) :
    rxStep s = rxStepCap b { s with rxStream := rest } := by
  simp only [rxStep, hr, hp]

theorem rxStep_of_legacyFault (hp : s.cfg.overflowPolicy = .legacyFault) (hr : s.rxStream = b :: rest) :
    rxStep s = rxStepLegacy b { s with rxStream := rest } := by
  simp only [rxStep, hr, hp]

theorem rxStepCap_of_terminator (hi : s.rxIdx < s.cfg.rxCap) (hb : isTerminator b = true) :
    rxStepCap b s = .next (recvEnd .ok { s with rxBuf := s.rxBuf.write s.rxIdx 0x00 }) := by
  rw [rxStepCap, if_pos hb, memWrite_of_lt hi, andThen_next]

theorem rxStepCap_of_room (hi : s.rxIdx < s.cfg.rxCap) (hb : ¬ isTerminator b = true)
    (hroom : s.rxIdx < s.cfg.rxCap - 1) :
    rxStepCap b s = .next { s with rxBuf := s.rxBuf.write s.rxIdx b, rxIdx := s.rxIdx + 1 } := by
  rw [rxStepCap, if_neg hb, if_pos hroom, memWrite_of_lt hi, andThen_next]

/-- R220: payload byte number `RX_CAP` is discarded and the line flagged. -/
theorem rxStepCap_of_last (hi : s.rxIdx < s.cfg.rxCap) (hb : ¬ isTerminator b = true)
    (hlast : s.rxIdx = s.cfg.rxCap - 1) :
    rxStepCap b s = .next { s with rxOvf := true, rxBuf := s.rxBuf.write s.rxIdx 0x00, seq := .rxDrain } := by
  rw [rxStepCap, if_neg hb, if_neg hlast.not_lt, memWrite_of_lt (s := setOverflow s) hi, andThen_next]
  rfl

/-- R224: the full-buffer check comes first, so a terminator overruns too. -/
theorem rxStepLegacy_of_full (ho : s.rxOvf = true) : rxStepLegacy b s = .next { s with fault := true } := if_pos ho

/-- R224: while the buffer is not full a terminator, and a byte that leaves room, do what they do under the cap. -/
theorem rxStepLegacy_eq_rxStepCap (ho : s.rxOvf = false)
    (h : isTerminator b = true ∨ s.rxIdx < s.cfg.rxCap - 1) : rxStepLegacy b s = rxStepCap b s := by
  rw [rxStepLegacy, rxStepCap, if_neg (by simp [ho])]
  split
  · rfl
  · rename_i hb
    rw [if_pos (h.resolve_left hb), if_pos (h.resolve_left hb)]

theorem rxStepLegacy_of_terminator (ho : s.rxOvf = false) (hi : s.rxIdx < s.cfg.rxCap) (hb : isTerminator b = true) :
    rxStepLegacy b s = .next (recvEnd .ok { s with rxBuf := s.rxBuf.write s.rxIdx 0x00 }) := by
  rw [rxStepLegacy_eq_rxStepCap ho (.inl hb), rxStepCap_of_terminator hi hb]

theorem rxStepLegacy_of_room (ho : s.rxOvf = false) (hi : s.rxIdx < s.cfg.rxCap) (hb : ¬ isTerminator b = true)
    (hroom : s.rxIdx < s.cfg.rxCap - 1) :
    rxStepLegacy b s = .next { s with rxBuf := s.rxBuf.write s.rxIdx b, rxIdx := s.rxIdx + 1 } := by
  rw [rxStepLegacy_eq_rxStepCap ho (.inr hroom), rxStepCap_of_room hi hb hroom]

/-- R224: the byte that fills the last cell. -/
theorem rxStepLegacy_of_last (ho : s.rxOvf = false) (hi : s.rxIdx < s.cfg.rxCap) (hb : ¬ isTerminator b = true)
    (hlast : s.rxIdx = s.cfg.rxCap - 1) :
    rxStepLegacy b s = .next { s with rxBuf := s.rxBuf.write (s.cfg.rxCap - 1) b, rxOvf := true } := by
  rw [rxStepLegacy, if_neg (by simp [ho]), if_neg hb, if_neg hlast.not_lt, memWrite_of_lt (hlast ▸ hi), andThen_next]
  rfl

end

/-- Settles O27: the byte taken is a terminator, or there is room for it, or it is the one too many. -/
theorem rxMicroStepStoresOrEndsTheLine : Obligations.RxMicroStepStoresOrEndsTheLine := by
  intro s b rest hs hf hp hi
  rw [seqEvent_of_rx hs hf]
  refine ⟨rxStep_of_nil, fun hr hb => ?_, fun hr hn hc hroom => ?_, fun hr hn hc hlast => ?_⟩ <;>
    rw [rxStep_of_capAndFlag hp hr]
  · exact rxStepCap_of_terminator hi (isTerminator_iff.mpr hb)
  · exact rxStepCap_of_room hi (not_isTerminator hn hc) hroom
  · exact rxStepCap_of_last hi (not_isTerminator hn hc) hlast

/-- Settles O29: with the buffer full every byte faults; before that the step differs from the capped one at
the last cell alone. -/
theorem legacyOverrunSetsTheStickyFault : Obligations.LegacyOverrunSetsTheStickyFault := by
  intro s b rest hs hf hp hi
  rw [seqEvent_of_rx hs hf]
  refine ⟨rxStep_of_nil, fun hr ho => ?_, fun hr ho hb => ?_, fun hr ho hn hc hroom => ?_,
    fun hr ho hn hc hlast => ?_⟩ <;> rw [rxStep_of_legacyFault hp hr]
  · exact rxStepLegacy_of_full ho
  · exact rxStepLegacy_of_terminator ho hi (isTerminator_iff.mpr hb)
  · exact rxStepLegacy_of_room ho hi (not_isTerminator hn hc) hroom
  · exact rxStepLegacy_of_last ho hi (not_isTerminator hn hc) hlast

/-! ## The `RX_DRAIN` micro-step, R222 -/

section
variable {s : State} {b : Byte} {rest : List Byte}

theorem seqEvent_of_rxDrain (hs : s.seq = .rxDrain) (hf : s.fault = false) : seqEvent s = drainStep s := by
  simp [seqEvent, hf, hs]

theorem drainStep_of_nil (hr : s.rxStream = []) : drainStep s = .next s := by simp only [drainStep, hr]

theorem drainStep_of_terminator (hr : s.rxStream = b :: rest) (hb : isTerminator b = true) :
    drainStep s = .next (recvEnd .lineTooLong { s with rxStream := rest }) := by
  simp only [drainStep, hr, if_pos hb]

theorem drainStep_of_payload (hr : s.rxStream = b :: rest) (hb : ¬ isTerminator b = true) :
    drainStep s = .next { s with rxStream := rest } := by
  simp only [drainStep, hr, if_neg hb]

end

/-- Settles O28: the three cases of R222, each a law of `drainStep`. -/
theorem drainDiscardsUpToTheTerminator : Obligations.DrainDiscardsUpToTheTerminator := by
  intro s b rest hs hf
  rw [seqEvent_of_rxDrain hs hf]
  exact ⟨drainStep_of_nil, fun hr hb => drainStep_of_terminator hr (isTerminator_iff.mpr hb),
    fun hr hn hc => drainStep_of_payload hr (not_isTerminator hn hc)⟩

/-! ## The receive timeout, R226 -/

theorem timeoutTick_of_running {s : State} (ht : s.rxTmoCnt - 1 ≠ 0) :
    timeoutTick s = .next { s with rxTmoCnt := s.rxTmoCnt - 1 } :=
  if_neg ht

theorem timeoutTick_of_last {s : State} (hi : s.rxIdx < s.cfg.rxCap) (ht : s.rxTmoCnt - 1 = 0) :
    timeoutTick s =
      .next (recvEnd .rxTimeout { s with rxTmoCnt := 0, rxBuf := s.rxBuf.write s.rxIdx 0x00 }) := by
  rw [timeoutTick, if_pos ht, ht, memWrite_of_lt (s := { s with rxTmoCnt := 0 }) hi, andThen_next]

/-- Settles O30: without a timeout no branch of the tick is a receive's; with one the tick is `timeoutTick`, which
splits on the counter. -/
theorem timeoutEndsTheReceive : Obligations.TimeoutEndsTheReceive := by
  intro s hs hf hi
  have hruns (hn : s.cfg.rxTimeoutMs ≠ none) : timeoutRuns s = true := timeoutRuns_iff.mpr ⟨hs, hn, hf⟩
  refine ⟨fun hn => ?_, fun hn ht => ?_, fun hn ht => ?_⟩
  · have hstopped : ¬ timeoutRuns s = true := fun h =>
      have ⟨_, htimed, _⟩ := timeoutRuns_iff.mp h
      htimed hn
    exact tick1ms_of_untimed (not_waiting_of_receiving hs) hstopped
  · rw [tick1ms_of_timeoutRuns (hruns hn), timeoutTick_of_running ht]
  · rw [tick1ms_of_timeoutRuns (hruns hn), timeoutTick_of_last hi ht]

/-! ## The end of a receive, R228 and R256 -/

section
variable {st : Status} {s : State}

theorem recvEnd_of_serRecv (hop : s.curOp = codeSerRecv) :
    recvEnd st s = complete st (BitVec.ofNat 32 s.rxIdx) s :=
  if_pos hop

theorem recvEnd_of_ctlPress (hop : s.curOp = codeCtlPress) : recvEnd st s = ctlFinish st s :=
  if_neg (by rw [hop]; decide)

theorem confirmed_iff : confirmed st s = true ↔ st = .ok ∧ response s = strOf (confRom s.expSel) := by
  simp [confirmed]

theorem ctlFinish_of_confirmed (hm : confirmed st s = true) :
    ctlFinish st s = complete st (pressResult (!s.led) true) { s with led := !s.led } := by
  simp only [ctlFinish, hm, if_true]

theorem ctlFinish_of_unconfirmed (hm : ¬ confirmed st s = true) :
    ctlFinish st s = complete st (pressResult s.led false) s := by
  rw [ctlFinish, Bool.eq_false_of_not_eq_true hm]
  rfl

end

/-- R256: `{zeros(30), led, m}` after a confirmed press of a block whose LED was `led`. -/
theorem pressResult_toggled (led : Bool) : pressResult (!led) true = if led then 1 else 3 := by cases led <;> rfl

/-- R256: `{zeros(30), led, m}` after a press that was not confirmed. -/
theorem pressResult_kept (led : Bool) : pressResult led false = if led then 2 else 0 := by cases led <;> rfl

/-- Settles O32: `SER.RECV` reports its index; in a `CTL.PRESS` the condition is `confirmed` taken apart, and the result
word is read off the LED. -/
theorem receiveEndReportsOrCompares : Obligations.ReceiveEndReportsOrCompares := by
  intro st s
  refine ⟨recvEnd_of_serRecv, fun hop hst hresp => ?_, fun hop hno => ?_⟩ <;> rw [recvEnd_of_ctlPress hop]
  · rw [ctlFinish_of_confirmed (confirmed_iff.mpr ⟨hst, hresp⟩), pressResult_toggled, complete_eq_completed]
  · rw [ctlFinish_of_unconfirmed (mt confirmed_iff.mp hno), pressResult_kept, complete_eq_completed]

end Sys2Proof.Machine
end

section
/-! SUPPORT. The command/response controller (43_controller.md): how `CTL.PRESS` starts. The comparison that ends it is
`recvEnd`'s, with the serial channel. -/

namespace Sys2Proof.Machine

/-! ## `CTL.PRESS`, R252 -/

theorem codeCtlPress_eq : codeCtlPress = 0x40#8 := rfl

theorem exec_ctlPress (s : State) : exec .ctlPress s = execCtlPress s := rfl

/-- Settles O18: the start of the operation at its code, 0x40; the select and the expected answer are both the LED's
opposite, and the update names no other field. -/
theorem ctlPressSendsTheOppositeRequest : Obligations.CtlPressSendsTheOppositeRequest := by
  intro s
  rw [exec_ctlPress, execCtlPress, codeCtlPress_eq]

end Sys2Proof.Machine
end

section
/-! SUPPORT. The host port and `NOP` (44_system_ops.md): what the `Host` event does with a word at a ready port, and that
an operation it starts either completes in it or leaves its code in `cur_op`. -/

namespace Sys2Proof.Machine

/-! ## `NOP`, R284 -/

theorem exec_nop (s : State) : exec .nop s = .next (complete .ok 0 s) := rfl

/-- Settles O9: `NOP` is a completion and nothing else. -/
theorem nopCompletesAndChangesNothingElse : Obligations.NopCompletesAndChangesNothingElse := by
  intro s
  rw [exec_nop, complete_eq_completed]

/-! ## The `Host` event by port and word, R280 -/

section
variable {w : OpWord} {s : State}

theorem hostEvent_of_decodeOp {i : Instr} (hr : opReady s = true) (h : decodeOp w = .ok i) :
    hostEvent w s = exec i s := by
  simp [hostEvent, hr, h]

theorem hostEvent_of_not_ready (hr : ¬ opReady s = true) : hostEvent w s = .next s := if_neg hr

end

/-! ## How an operation leaves its `Host` event, R280, R282 -/

/-- The operation with this code has completed in the event that left `t`, or waits in `t` under its code. -/
def CompletedOrWaiting (code : Byte) (t : State) : Prop :=
  (t.seq = .idle ∧ t.curOp = 0x00#8 ∧ t.opDone = true) ∨ (t.seq ≠ .idle ∧ t.curOp = code ∧ t.opDone = false)

section
variable {code : Byte}

theorem CompletedOrWaiting.complete (st : Status) (r : Arg) (s : State) : CompletedOrWaiting code (complete st r s) :=
  .inl ⟨rfl, rfl, rfl⟩

theorem CompletedOrWaiting.waiting {t : State} (hs : t.seq ≠ .idle) (hc : code = t.curOp) (hd : t.opDone = false) :
    CompletedOrWaiting code t :=
  .inr ⟨hs, hc.symm, hd⟩

/-- R144: a `PWM.CFG` completes whether its operand is legal or not. -/
theorem CompletedOrWaiting.pwmCfg (ch : Ch) (f : Arg) (s : State) : CompletedOrWaiting code (pwmCfg ch f s) := by
  by_cases h : CfgDomain (timerClockHz s.cfg ch) (tickRateHz s.cfg ch) f.toNat
  · rw [pwmCfg_of_cfgDomain h]
    exact .complete ..
  · rw [pwmCfg_of_not_cfgDomain h]
    exact .complete ..

end

/-- `NOP` and the PWM operations always complete; `SER.SEND`, `SER.RECV` and `CTL.PRESS` always wait; `BTN.POLL` does one
or the other by the button's level and `DLY.MS` by its operand. -/
theorem exec_completedOrWaiting {w : OpWord} {i : Instr} {s : State} (h : decodeOp w = .ok i) (hd : s.opDone = false) :
    ∃ t, exec i s = .next t ∧ CompletedOrWaiting (opCode w) t := by
  rcases decodeOp_cases h with ⟨-, rfl⟩ | ⟨-, rfl⟩ | ⟨-, rfl⟩ | ⟨-, rfl⟩ | ⟨-, rfl⟩ | ⟨-, rfl⟩ | ⟨hc, hsel, rfl⟩ |
    ⟨hc, rfl⟩ | ⟨hc, rfl⟩ | ⟨hc, rfl⟩ | ⟨hc, rfl⟩
  · exact ⟨_, exec_nop s, .complete ..⟩
  · exact ⟨_, exec_pwmCfgMotor _ s, .pwmCfg ..⟩
  · exact ⟨_, exec_pwmCfgServo _ s, .pwmCfg ..⟩
  · exact ⟨_, exec_pwmDutyMotor _ s, .complete ..⟩
  · exact ⟨_, exec_pwmDutyServo _ s, .complete ..⟩
  · exact ⟨_, exec_pwmAngleServo _ s, .complete ..⟩
  · exact ⟨_, execSerSend_of_select hsel s, .waiting nofun hc hd⟩
  · exact ⟨_, exec_serRecv s, .waiting nofun hc hd⟩
  · rw [exec_btnPoll]
    by_cases hb : s.btnIn = s.cfg.btnActiveLevel
    · exact ⟨_, execBtnPoll_of_active hb, .waiting nofun hc hd⟩
    · exact ⟨_, execBtnPoll_of_inactive hb, .complete ..⟩
  · exact ⟨_, exec_ctlPress s, .waiting nofun hc hd⟩
  · rw [exec_dlyMs]
    by_cases hn : opArg w = 0
    · rw [hn]
      exact ⟨_, execDlyMs_zero s, .complete ..⟩
    · exact ⟨_, execDlyMs_of_ne_zero hn s, .waiting nofun hc hd⟩

/-- Settles O7: the step is the `Host` event, which splits on the port and then on the decoder's answer; `op_done` is
low before an operation runs, so one that only waits does not emit it. -/
theorem hostWordsAreAcceptedOnlyWhenReady : Obligations.HostWordsAreAcceptedOnlyWhenReady := by
  intro s w rest hsched
  have hstep : step s = hostEvent w { s with schedule := rest, opDone := false } := step_of_schedule hsched
  have hport : opReady { s with schedule := rest, opDone := false } = true ↔ s.seq = .idle ∧ s.fault = false :=
    opReady_iff
  refine ⟨fun hready i hi => ?_, fun hready e he => ?_, fun hbusy => ?_⟩ <;> rw [hstep]
  · rw [hostEvent_of_decodeOp (hport.mpr hready) hi]
    exact ⟨rfl, exec_completedOrWaiting hi rfl⟩
  · exact hostEvent_of_illegal (hport.mpr hready) he
  · exact hostEvent_of_not_ready (mt hport.mp hbusy)

end Sys2Proof.Machine
end

section
/-! SUPPORT. Reset (70_reset_and_hazards.md): the state it leaves, and what that state shows at the pins and ports. -/

namespace Sys2Proof.Machine

/-! ## What a reset writes, R340 -/

/-- Both channels at once, for the pins. -/
@[simp] theorem resetEvent_chan (s : State) (ch : Ch) : (resetEvent s).chan ch = Channel.reset := by
  cases ch <;> rfl

/-- Settles O49: the step is the `Reset` event on the state whose schedule is `rest`, and that takes only the parameters
and the environment's fields from it. -/
theorem resetWritesEveryElement : Obligations.ResetWritesEveryElement := by
  intro s rest hsched
  calc step s
    _ = .next (resetEvent { s with schedule := rest, opDone := false }) := step_of_schedule hsched
    _ = _ := rfl

/-! ## The pins and ports, R342 -/

section
variable {s : State}

theorem ledOut_of_dark (h : s.led = false) : ledOut s = !s.cfg.ledActiveLevel := by simp [ledOut, h]

theorem pwmActive_of_disabled {ch : Ch} (h : (s.chan ch).en = false) : pwmActive s ch = false := by simp [pwmActive, h]

theorem pwmOut_of_inactive {ch : Ch} (h : pwmActive s ch = false) : pwmOut s ch = !pwmActiveLevel s.cfg ch := by
  simp [pwmOut, h]

theorem rxCells_of_rxBuf_nil (h : s.rxBuf = []) : rxCells s = List.replicate s.cfg.rxCap 0x00 := by
  simp [rxCells, memRead, h, List.eq_replicate_iff]

/-- R74: the string of a cleared buffer ends at its first cell, whatever `RX_CAP` is. -/
theorem response_of_rxBuf_nil (h : s.rxBuf = []) : response s = [] := by
  rw [response, rxCells_of_rxBuf_nil h, strOf, List.takeWhile_replicate]
  rfl

end

/-- R342: a reset channel is disabled. -/
theorem pwmActive_resetEvent (s : State) (ch : Ch) : pwmActive (resetEvent s) ch = false :=
  pwmActive_of_disabled (by rw [resetEvent_chan]; rfl)

/-- Settles O50: the LED is off, a disabled channel is inactive and its pin therefore at the inactive level, the
sequencer is idle without a fault, and the buffer is clear. -/
theorem resetOutputsAreQuiet : Obligations.ResetOutputsAreQuiet := fun s =>
  ⟨ledOut_of_dark rfl, pwmActive_resetEvent s .motor, pwmActive_resetEvent s .servo,
    pwmOut_of_inactive (pwmActive_resetEvent s .motor), pwmOut_of_inactive (pwmActive_resetEvent s .servo),
    opReady_iff.mpr ⟨rfl, rfl⟩, rfl, response_of_rxBuf_nil rfl⟩

end Sys2Proof.Machine
end

section
/-! SUPPORT. Decoder and encoder against each other (30_encoding.md sections 1 and 3), and the step that runs the
instruction a word or a line decodes to. -/

namespace Sys2Proof.Machine

/-! ## The round trip -/

/-- R107, R108 and R102 name the three fields that are not free; every other constructor is decoded by its code alone. -/
theorem decode_encode {i : Instr} (h : i.wf = true) : decode (encode i) = .ok i := by
  cases i with
  | nop => exact decodeOp_opWordOf codeNop 0
  | pwmCfgMotor f => exact decodeOp_opWordOf ..
  | pwmCfgServo f => exact decodeOp_opWordOf ..
  | pwmDutyMotor p => exact decodeOp_opWordOf ..
  | pwmDutyServo p => exact decodeOp_opWordOf ..
  | pwmAngleServo a => exact decodeOp_opWordOf ..
  | serSend arg =>
    have hsel : Arg.isSendSelect arg := of_decide_eq_true h
    exact (decodeOp_opWordOf ..).trans (if_pos hsel)
  | serRecv => exact decodeOp_opWordOf codeSerRecv 0
  | btnPoll => exact decodeOp_opWordOf codeBtnPoll 0
  | ctlPress => exact decodeOp_opWordOf codeCtlPress 0
  | dlyMs n => exact decodeOp_opWordOf ..
  | requestOn => exact decodeLine_requestOn
  | requestOff => exact decodeLine_requestOff
  | confirmOn t =>
    obtain rfl | rfl : Byte.isLineEnd t := of_decide_eq_true h
    · exact decodeLine_confirmOn_lf
    · exact decodeLine_confirmOn_cr
  | confirmOff t =>
    obtain rfl | rfl : Byte.isLineEnd t := of_decide_eq_true h
    · exact decodeLine_confirmOff_lf
    · exact decodeLine_confirmOff_cr

/-- Settles O1: constructor by constructor, the code of an instruction selects its branch of the decoder. -/
theorem decodeEncodeRoundTrip : Obligations.DecodeEncodeRoundTrip := fun _ => decode_encode

/-! ## What the decoder answers -/

theorem wf_of_decodeOp {w : OpWord} {i : Instr} (h : decodeOp w = .ok i) : i.wf = true := by
  rcases decodeOp_cases h with ⟨-, rfl⟩ | ⟨-, rfl⟩ | ⟨-, rfl⟩ | ⟨-, rfl⟩ | ⟨-, rfl⟩ | ⟨-, rfl⟩ | ⟨-, hsel, rfl⟩ |
    ⟨-, rfl⟩ | ⟨-, rfl⟩ | ⟨-, rfl⟩ | ⟨-, rfl⟩
  any_goals rfl
  exact decide_eq_true hsel

theorem wf_of_decodeLine {bytes : List Byte} {i : Instr} (h : decodeLine bytes = .ok i) : i.wf = true := by
  rcases decodeLine_cases h with ⟨-, rfl⟩ | ⟨-, rfl⟩ | ⟨t, ht, -, rfl⟩ | ⟨t, ht, -, rfl⟩
  · rfl
  · rfl
  · exact decide_eq_true ht
  · exact decide_eq_true ht

/-- R109: re-encoding may write other operand bits, but the code stays. -/
theorem encode_of_decodeOp {w : OpWord} {i : Instr} (h : decodeOp w = .ok i) :
    ∃ a, encode i = .opWord (opWordOf (opCode w) a) := by
  rcases decodeOp_cases h with ⟨hc, rfl⟩ | ⟨hc, rfl⟩ | ⟨hc, rfl⟩ | ⟨hc, rfl⟩ | ⟨hc, rfl⟩ | ⟨hc, rfl⟩ | ⟨hc, -, rfl⟩ |
    ⟨hc, rfl⟩ | ⟨hc, rfl⟩ | ⟨hc, rfl⟩ | ⟨hc, rfl⟩ <;> rw [hc] <;> exact ⟨_, rfl⟩

theorem encode_of_decodeLine {bytes : List Byte} {i : Instr} (h : decodeLine bytes = .ok i) :
    encode i = .line bytes := by
  rcases decodeLine_cases h with ⟨rfl, rfl⟩ | ⟨rfl, rfl⟩ | ⟨t, -, rfl, rfl⟩ | ⟨t, -, rfl, rfl⟩ <;> rfl

/-- Settles O2: the decoder checks what `wf` asks, and a word keeps its code, a line all its bytes. -/
theorem decodedInstructionsAreWellFormed : Obligations.DecodedInstructionsAreWellFormed := by
  refine ⟨fun c i h => ?_, fun w i h => ?_, fun bytes i => encode_of_decodeLine⟩
  · cases c with
    | opWord w => exact wf_of_decodeOp h
    | line bytes => exact wf_of_decodeLine h
  · obtain ⟨a, ha⟩ := encode_of_decodeOp h
    exact ⟨_, ha, opCode_opWordOf ..⟩

/-- Settles O5: each of the seven numbers is evaluated through the decoder. -/
theorem wordsOfTheSpecDecode : Obligations.WordsOfTheSpecDecode :=
  ⟨by decide, by decide, by decide, by decide, by decide, by decide, by decide⟩

/-! ## The step runs the decoded instruction -/

theorem lineEvent_of_decodeLine {bytes : List Byte} {i : Instr} (h : decodeLine bytes = .ok i) (s : State) :
    lineEvent bytes s = exec i s := by
  simp only [lineEvent, decode_line, h]

/-- Settles O6: the step is the event at the head of the schedule, and the `Host` event of a ready port and the passing of
a line are `exec` of what they decode to. -/
theorem stepRunsDecodedInstruction : Obligations.StepRunsDecodedInstruction := by
  refine ⟨fun s w rest i hsched hseq hf hi => ?_, fun s bytes rest i hsched hi => ?_⟩
  · calc step s
      _ = hostEvent w { s with schedule := rest, opDone := false } := step_of_schedule hsched
      _ = exec i { s with schedule := rest, opDone := false } :=
        hostEvent_of_decodeOp (opReady_iff.mpr ⟨hseq, hf⟩) hi
  · calc step s
      _ = lineEvent bytes { s with schedule := rest, opDone := false } := step_of_schedule hsched
      _ = exec i { s with schedule := rest, opDone := false } := lineEvent_of_decodeLine hi _

/-! ## `withFetchWord`, log 10 -/

/-- The state in which a code is placed, but for the event itself: ready for a word, or for the command a line spells. -/
def readyFor (c : Code) (s : State) : State :=
  match c with
  | .opWord _ => readyPort s
  | .line bytes =>
    if bytes = requestOnLine then readySend true s else if bytes = requestOffLine then readySend false s else s

/-- The event that brings a code to the block. -/
def eventOf : Code → Event
  | .opWord w => .host w
  | .line bytes => .line bytes

theorem placeCode_eq (c : Code) (s : State) : placeCode c s = scheduleFirst (eventOf c) (readyFor c s) := by
  cases c <;> rfl

theorem decode_of_decodeTableWord {nbits w : Nat} {i : Instr} (h : decodeTableWord nbits w = some i) :
    decode (codeOfNumber nbits w) = .ok i := by
  unfold decodeTableWord at h
  cases hd : decode (codeOfNumber nbits w) with
  | ok j =>
    rw [hd] at h
    cases h
    rfl
  | error e =>
    rw [hd] at h
    cases h

theorem step_placeCode {c : Code} {i : Instr} (h : decode c = .ok i) (s : State) :
    step (placeCode c s) = exec i { readyFor c s with opDone := false } := by
  obtain ⟨hword, hline⟩ := stepRunsDecodedInstruction
  rw [placeCode_eq]
  cases c with
  | opWord w => exact hword _ w _ i rfl rfl rfl h
  | line bytes => exact hline _ bytes _ i rfl h

/-- Making the block ready writes the control registers alone. -/
theorem readyFor_frame (c : Code) (s : State) :
    (readyFor c s).schedule = s.schedule ∧ (readyFor c s).cfg = s.cfg ∧ (readyFor c s).led = s.led ∧
      (readyFor c s).rxBuf = s.rxBuf ∧ (readyFor c s).rxStream = s.rxStream ∧ (readyFor c s).txStream = s.txStream ∧
      (readyFor c s).motor = s.motor ∧ (readyFor c s).servo = s.servo := by
  unfold readyFor
  split
  · exact ⟨rfl, rfl, rfl, rfl, rfl, rfl, rfl, rfl⟩
  · split_ifs <;> exact ⟨rfl, rfl, rfl, rfl, rfl, rfl, rfl, rfl⟩

/-- Settles O8: the code's event stands first on the schedule, so the step is `exec` on the state made ready; an
instruction that is encoded as a word did not come from a line. -/
theorem fetchedInstructionRunsNext : Obligations.FetchedInstructionRunsNext := by
  intro s nbits w i h
  have hdec := decode_of_decodeTableWord h
  obtain ⟨hsched, hcfg, hled, hbuf, hrx, htx, hmotor, hservo⟩ := readyFor_frame (codeOfNumber nbits w) s
  refine ⟨{ readyFor (codeOfNumber nbits w) s with opDone := false }, step_placeCode hdec s, hsched, rfl, hcfg, hled,
    hbuf, hrx, htx, hmotor, hservo, ?_⟩
  rintro ⟨v, hv⟩
  cases hc : codeOfNumber nbits w with
  | opWord u => exact ⟨rfl, rfl, rfl⟩
  | line bytes =>
    rw [hc] at hdec
    cases (encode_of_decodeLine hdec).symm.trans hv

end Sys2Proof.Machine
end

section
/-! SUPPORT. The whole machine under the invariant (10_state.md section 9): steps, runs and reset. -/

namespace Sys2Proof.Machine

theorem BlockInv.takeEvent {s : State} (h : BlockInv s) : BlockInv (takeEvent s) := by
  unfold Machine.takeEvent
  split <;> exact h.env ..

/-- Settles O52: taking the event off the schedule writes nothing the invariant reads, and every event keeps it. -/
theorem stepKeepsTheInvariant : Obligations.StepKeepsTheInvariant := fun _ h => h.takeEvent.applyEvent _

/-- Settles O53: by induction on the number of steps, each of which `stepKeepsTheInvariant` answers. -/
theorem noRunStops : Obligations.NoRunStops := by
  intro k
  induction k with
  | zero => exact fun s h => ⟨s, run_zero s, h⟩
  | succ k ih =>
    intro s h
    obtain ⟨t, hstep, ht⟩ := stepKeepsTheInvariant s h
    obtain ⟨u, hrun, hu⟩ := ih t ht
    exact ⟨u, (run_succ hstep k).trans hrun, hu⟩

theorem BlockInv.resetEvent {s : State} (h : s.cfg.InRange) : BlockInv (resetEvent s) := (BlockInv.resetWith h).env ..

/-- Settles O51: the state after reset has the invariant for parameters in range, and the `Reset` event differs from it
in fields the invariant does not read. -/
theorem resetHasTheInvariant : Obligations.ResetHasTheInvariant :=
  ⟨fun _ => BlockInv.resetWith, BlockInv.resetWith (by decide), fun _ => BlockInv.resetEvent⟩

/-- Settles O44: every event leaves the parameters, by `applyEvent_cfg`. -/
theorem parametersNeverChange : Obligations.ParametersNeverChange := fun _ _ => step_cfg

end Sys2Proof.Machine
end

section
/-! SUPPORT. Whole lines on the wire (30_encoding.md section 1, log 8): the micro-steps that send a command's bytes, the
bytes that wait outside a receive, and the holds of a `Seq` whose guard is false. -/

namespace Sys2Proof.Machine

/-! ## The command strings, R72 -/

theorem cmdRom_eq (sel : Bool) : cmdRom sel = strOf (cmdRom sel) ++ [0x00] := by cases sel <;> decide

theorem strOf_cmdRom (sel : Bool) : strOf (cmdRom sel) = if sel then requestOnLine else requestOffLine := by
  cases sel <;> decide

theorem cmdLength_le (sel : Bool) : cmdLength sel ≤ 10 := by cases sel <;> decide

/-- R72: before the 0x00 the ROM is read as the string. -/
theorem cmdByte_eq {sel : Bool} {i : Nat} (h : i < cmdLength sel) : cmdByte sel i = (strOf (cmdRom sel))[i]? := by
  rw [cmdByte]
  exact (congrArg (·[i]?) (cmdRom_eq sel)).trans (List.getElem?_append_left h)

theorem cmdByte_cmdLength (sel : Bool) : cmdByte sel (cmdLength sel) = some 0x00#8 := by cases sel <;> decide

/-- R74: the bytes before the 0x00 are the string's, and none of them is 0x00. -/
theorem cmdByte_of_lt {sel : Bool} {i : Nat} (h : i < cmdLength sel) :
    ∃ c, cmdByte sel i = some c ∧ c ≠ 0x00#8 ∧
      (strOf (cmdRom sel)).drop i = c :: (strOf (cmdRom sel)).drop (i + 1) := by
  have h : i < (strOf (cmdRom sel)).length := h
  refine ⟨(strOf (cmdRom sel))[i], ?_, ?_, List.drop_eq_getElem_cons h⟩
  · rw [cmdByte_eq h, List.getElem?_eq_getElem h]
  · simpa using List.mem_takeWhile_imp (List.getElem_mem h)

theorem lt_cmdLength_of_cmdByte {sel : Bool} {i : Nat} {c : Byte} (h : cmdByte sel i = some c) (hc : c ≠ 0x00#8) :
    i < cmdLength sel := by
  by_contra hi
  rw [cmdByte, cmdRom_eq, List.getElem?_append_right (Nat.le_of_not_lt hi)] at h
  exact hc (List.mem_singleton.mp (List.mem_of_getElem? h))

/-! ## The `TX` micro-steps together, R212 -/

/-- The next `n` bytes of the command have gone out. -/
def sent (n : Nat) (s : State) : State :=
  { s with
    txStream := s.txStream ++ ((strOf (cmdRom s.txSel)).drop s.txPtr.toNat).take n
    txPtr := s.txPtr + BitVec.ofNat 4 n }

/-- A block that is sending `CMD[txSel]` and whose transmitter takes every byte. -/
structure Sending (s : State) : Prop where
  seq : s.seq = .tx
  fault : s.fault = false
  ready : s.txReady = true

theorem toNat_txPtr_add {s : State} {n : Nat} (h : s.txPtr.toNat + n ≤ cmdLength s.txSel) :
    (s.txPtr + BitVec.ofNat 4 n).toNat = s.txPtr.toNat + n := by
  have := cmdLength_le s.txSel
  rw [BitVec.toNat_add, BitVec.toNat_ofNat]
  omega

section
variable {s : State}

theorem seqEvent_of_sending (hs : Sending s) (h : s.txPtr.toNat < cmdLength s.txSel) :
    seqEvent s = .next (sent 1 s) := by
  obtain ⟨c, hc, h0, hdrop⟩ := cmdByte_of_lt h
  rw [seqEvent_of_tx hs.seq hs.fault, txStep_of_byte hc h0, if_pos hs.ready, sent, hdrop]
  rfl

theorem sent_zero : sent 0 s = s := by simp [sent]

theorem sent_sent {n : Nat} (h : s.txPtr.toNat < cmdLength s.txSel) : sent n (sent 1 s) = sent (n + 1) s := by
  obtain ⟨c, -, -, hdrop⟩ := cmdByte_of_lt h
  have hptr := toNat_txPtr_add (n := 1) (Nat.succ_le_of_lt h)
  have hadd : s.txPtr + BitVec.ofNat 4 1 + BitVec.ofNat 4 n = s.txPtr + BitVec.ofNat 4 (n + 1) := by
    rw [BitVec.add_assoc, ← BitVec.ofNat_add, Nat.add_comm 1 n]
  simp only [sent, hptr, hadd, hdrop]
  simp

/-- R212: `n` micro-steps put the next `n` bytes on the wire. -/
theorem seqBurst_of_sending {n : Nat} (hs : Sending s) (h : s.txPtr.toNat + n ≤ cmdLength s.txSel) :
    seqBurst n s = .next (sent n s) := by
  induction n generalizing s with
  | zero => rw [sent_zero, seqBurst]
  | succ n ih =>
    have hlt : s.txPtr.toNat < cmdLength s.txSel := by omega
    have hptr : (sent 1 s).txPtr.toNat = s.txPtr.toNat + 1 := toNat_txPtr_add (Nat.succ_le_of_lt hlt)
    have hrest : (sent 1 s).txPtr.toNat + n ≤ cmdLength s.txSel := by omega
    rw [seqBurst, seqEvent_of_sending hs hlt, andThen_next, ih (s := sent 1 s) ⟨hs.seq, hs.fault, hs.ready⟩ hrest, sent_sent hlt]

/-- The whole rest of the command has gone out: the pointer stands at the 0x00. -/
theorem sent_rest (h : s.txPtr.toNat ≤ cmdLength s.txSel) : sent (cmdLength s.txSel - s.txPtr.toNat) s =
    { s with
      txStream := s.txStream ++ (strOf (cmdRom s.txSel)).drop s.txPtr.toNat
      txPtr := BitVec.ofNat 4 (cmdLength s.txSel) } := by
  have htake : ((strOf (cmdRom s.txSel)).drop s.txPtr.toNat).take (cmdLength s.txSel - s.txPtr.toNat) =
      (strOf (cmdRom s.txSel)).drop s.txPtr.toNat := List.take_of_length_le (by rw [List.length_drop]; rfl)
  have hptr : s.txPtr + BitVec.ofNat 4 (cmdLength s.txSel - s.txPtr.toNat) = BitVec.ofNat 4 (cmdLength s.txSel) := by
    have := cmdLength_le s.txSel
    refine BitVec.eq_of_toNat_eq ?_
    rw [toNat_txPtr_add (by omega), BitVec.toNat_ofNat]
    omega
  rw [sent, htake, hptr]

end

/-! ## The outbound messages -/

section
variable {sel : Bool} {s : State}

theorem sendLine_of_sending (hs : Sending s) (hsel : s.txSel = sel) (h : s.txPtr.toNat ≤ cmdLength sel) :
    sendLine sel s = .next { s with
      txStream := s.txStream ++ (strOf (cmdRom sel)).drop s.txPtr.toNat, txPtr := BitVec.ofNat 4 (cmdLength sel) } := by
  subst hsel
  rw [sendLine, if_pos ⟨hs.seq, rfl⟩, seqBurst_of_sending hs (by omega), sent_rest h]

theorem sendLine_of_other (h : ¬ (s.seq = .tx ∧ s.txSel = sel)) : sendLine sel s = .next s := if_neg h

theorem seqBurst_of_hold {n : Nat} (h : seqEvent s = .next s) : seqBurst n s = .next s := by
  induction n with
  | zero => rfl
  | succ n ih => rw [seqBurst, h, andThen_next, ih]

/-- R212: before the 0x00 the send waits for the transmitter. -/
theorem seqEvent_of_txWait (hs : s.seq = .tx) (hr : s.txReady = false) (h : s.txPtr.toNat < cmdLength s.txSel) :
    seqEvent s = .next s := by
  cases hf : s.fault with
  | true => exact seqEvent_of_fault hf
  | false =>
    obtain ⟨c, hc, h0, -⟩ := cmdByte_of_lt h
    rw [seqEvent_of_tx hs hf, txStep_of_byte hc h0, if_neg (by simp [hr])]

/-- A message that may not go out, or whose bytes are out, changes nothing. -/
theorem sendLine_of_held (h : s.fault = true ∨ s.txReady = false ∨ cmdLength sel ≤ s.txPtr.toNat) :
    sendLine sel s = .next s := by
  by_cases htx : s.seq = .tx ∧ s.txSel = sel
  case neg => exact sendLine_of_other htx
  obtain ⟨hs, rfl⟩ := htx
  rw [sendLine, if_pos ⟨hs, rfl⟩]
  by_cases hend : cmdLength s.txSel ≤ s.txPtr.toNat
  · rw [Nat.sub_eq_zero_of_le hend]
    rfl
  · refine seqBurst_of_hold ?_
    rcases h with hf | hr | hlen
    · exact seqEvent_of_fault hf
    · exact seqEvent_of_txWait hs hr (by omega)
    · exact absurd hlen hend

/-- R102, R212: what an outbound message can do, its guards included. -/
theorem sendLine_eq_next {t : State} (h : sendLine sel s = .next t) :
    t = s ∨ Sending s ∧ s.txSel = sel ∧ s.txPtr.toNat < cmdLength sel ∧ t = { s with
      txStream := s.txStream ++ (strOf (cmdRom sel)).drop s.txPtr.toNat, txPtr := BitVec.ofNat 4 (cmdLength sel) } := by
  by_cases htx : s.seq = .tx ∧ s.txSel = sel
  case neg =>
    rw [sendLine_of_other htx] at h
    cases h
    exact .inl rfl
  by_cases hheld : s.fault = true ∨ s.txReady = false ∨ cmdLength sel ≤ s.txPtr.toNat
  · rw [sendLine_of_held hheld] at h
    cases h
    exact .inl rfl
  · simp only [not_or, Bool.not_eq_true, Bool.not_eq_false, Nat.not_le] at hheld
    obtain ⟨hf, hr, hlt⟩ := hheld
    have hs : Sending s := ⟨htx.1, hf, hr⟩
    rw [sendLine_of_sending hs htx.2 hlt.le] at h
    cases h
    exact .inr ⟨hs, htx.2, hlt, rfl⟩

end

theorem exec_requestOn (s : State) : exec .requestOn s = sendLine true s := rfl
theorem exec_requestOff (s : State) : exec .requestOff s = sendLine false s := rfl

/-- Settles O21: the rest of the command goes out if the block sends it and the transmitter is ready, and otherwise
the message is held. -/
theorem requestLinesGoOut : Obligations.RequestLinesGoOut := by
  refine ⟨fun s hs hsel hf hr hp => ?_, fun s hs hsel hf hr hp => ?_, fun s h => ?_, fun s h => ?_, fun s hs h => ?_⟩
  · rw [exec_requestOn, sendLine_of_sending ⟨hs, hf, hr⟩ hsel hp, strOf_cmdRom]
    rfl
  · rw [exec_requestOff, sendLine_of_sending ⟨hs, hf, hr⟩ hsel hp, strOf_cmdRom]
    rfl
  · rw [exec_requestOn, sendLine_of_other h]
  · rw [exec_requestOff, sendLine_of_other h]
  · have hheld (sel : Bool) : s.fault = true ∨ s.txReady = false ∨ cmdLength sel ≤ s.txPtr.toNat := by
      rcases h with h | h <;> simp [h]
    rw [exec_requestOn, exec_requestOff, sendLine_of_held (hheld _), sendLine_of_held (hheld _)]
    exact ⟨rfl, rfl⟩

/-! ## Bytes that arrive outside a receive -/

theorem receiving_iff {s : State} : receiving s = true ↔ s.seq = .rx ∨ s.seq = .rxDrain := by simp [receiving]

theorem recvBurst_of_not_receiving {s : State} (h : ¬ receiving s = true) (k : Nat) : recvBurst k s = .next s := by
  cases k with
  | zero => rfl
  | succ k => exact if_neg h

theorem receiveLine_of_not_receiving {s : State} (h : ¬ receiving s = true) (bytes : List Byte) :
    receiveLine bytes s = .next (peerBytes bytes s) :=
  recvBurst_of_not_receiving (s := peerBytes bytes s) h _

theorem exec_confirmOn (t : Byte) (s : State) : exec (.confirmOn t) s = receiveLine (confirmOnLine t) s := rfl
theorem exec_confirmOff (t : Byte) (s : State) : exec (.confirmOff t) s = receiveLine (confirmOffLine t) s := rfl

/-- Settles O22: no micro-step of a receive runs over the bytes, so their arrival is all that happens. -/
theorem confirmLinesWaitForAReceive : Obligations.ConfirmLinesWaitForAReceive := by
  intro s t h
  have hwait (bytes : List Byte) : receiveLine bytes s = .next (peerBytes bytes s) := by
    rcases h with hf | ⟨hrx, hdrain⟩
    · exact receiveLine_of_fault hf bytes
    · exact receiveLine_of_not_receiving (fun h => (receiving_iff.mp h).elim hrx hdrain) bytes
  rw [exec_confirmOn, exec_confirmOff, hwait, hwait]
  exact ⟨rfl, rfl⟩

/-! ## False guards, R7 and R8 -/

theorem seqEvent_of_empty {s : State} (hs : s.seq = .rx ∨ s.seq = .rxDrain) (hr : s.rxStream = []) :
    seqEvent s = .next s := by
  cases hf : s.fault with
  | true => exact seqEvent_of_fault hf
  | false =>
    rcases hs with hs | hs
    · rw [seqEvent_of_rx hs hf, rxStep_of_nil hr]
    · rw [seqEvent_of_rxDrain hs hf, drainStep_of_nil hr]

/-- R21: three waits that no `Seq` ends. -/
theorem seqEvent_of_noMicroStep {s : State} (hs : s.seq = .idle ∨ s.seq = .dbReleased ∨ s.seq = .dly) :
    seqEvent s = .next s := by
  cases hf : s.fault with
  | true => exact seqEvent_of_fault hf
  | false => rcases hs with hs | hs | hs <;> simp [seqEvent, hf, hs]

/-- Settles O25: each guard that a `Seq` reads, false. -/
theorem falseGuardsHold : Obligations.FalseGuardsHold := by
  intro s
  refine ⟨fun hs hr hc hp => seqEvent_of_txWait hs hr ?_, seqEvent_of_empty, seqEvent_of_dbPressed_active,
    seqEvent_of_noMicroStep⟩
  refine lt_of_le_of_ne hp fun heq => ?_
  exact hc 0x00#8 (by rw [heq, cmdByte_cmdLength]) rfl

end Sys2Proof.Machine
end

section
/-! SUPPORT. What a step can write, element by element (10_state.md, 20_memory.md, 40_pwm.md section 5): the response
buffer, the streams, the LED, the active compare values and the sequencer. -/

namespace Sys2Proof.Machine

/-! ## The micro-steps of a receive together, R218 to R224 -/

/-- What a receive may have written while it goes on: the buffer's registers, `seq`, the sticky fault, and `rx_stream` at
its head. -/
def RecvFrame (s t : State) : Prop :=
  ∃ q f m i o k,
    t = { s with seq := q, fault := f, rxBuf := m, rxIdx := i, rxOvf := o, rxStream := s.rxStream.drop k }

theorem RecvFrame.refl (s : State) : RecvFrame s s := ⟨_, _, _, _, _, 0, rfl⟩

theorem RecvFrame.trans {s t u : State} (h1 : RecvFrame s t) (h2 : RecvFrame t u) : RecvFrame s u := by
  obtain ⟨q, f, m, i, o, k, rfl⟩ := h1
  obtain ⟨q', f', m', i', o', k', rfl⟩ := h2
  exact ⟨q', f', m', i', o', k + k', by simp only [List.drop_drop]⟩

/-- R218 to R224: a micro-step of a receive goes on with it, or takes the terminator and ends it. -/
theorem receive_cases {s t : State} (hr : receiving s = true) (h : seqEvent s = .next t) :
    (receiving t = true ∧ RecvFrame s t) ∨
    ∃ st b rest m, s.rxStream = b :: rest ∧ t = recvEnd st { s with rxStream := rest, rxBuf := m } ∧
      (st = .ok ∧ s.seq = .rx ∨ st = .lineTooLong ∧ s.seq = .rxDrain) := by
  have hseq := receiving_iff.mp hr
  rcases seqEvent_cases h with rfl | ⟨-, ⟨hs, -⟩ | ⟨hs, b, rest, hst, taken⟩ | ⟨hs, b, rest, hst, drained⟩ | ⟨hs, -⟩⟩
  · exact .inl ⟨hr, .refl _⟩
  · simp [hs] at hseq
  · obtain rfl : rest = s.rxStream.drop 1 := by rw [hst, List.drop_one, List.tail_cons]
    have hon {u : State} (hu : u.seq = .rx ∨ u.seq = .rxDrain) : receiving u = true := receiving_iff.mpr hu
    rcases taken with ⟨-, -, rfl⟩ | ⟨-, -, rfl⟩ | ⟨-, -, -, rfl⟩ | ⟨-, -, rfl⟩ | ⟨-, -, -, -, rfl⟩
    · exact .inr ⟨.ok, b, _, _, hst, rfl, .inl ⟨rfl, hs⟩⟩
    · exact .inl ⟨hon (.inl hs), _, _, _, _, _, 1, rfl⟩
    · exact .inl ⟨hon (.inr rfl), _, _, _, _, _, 1, rfl⟩
    · exact .inl ⟨hon (.inl hs), _, _, _, _, _, 1, rfl⟩
    · exact .inl ⟨hon (.inl hs), _, _, _, _, _, 1, rfl⟩
  · obtain rfl : rest = s.rxStream.drop 1 := by rw [hst, List.drop_one, List.tail_cons]
    rcases drained with ⟨-, rfl⟩ | ⟨-, rfl⟩
    · exact .inr ⟨.lineTooLong, b, _, _, hst, rfl, .inr ⟨rfl, hs⟩⟩
    · exact .inl ⟨hr, _, _, _, _, _, 1, rfl⟩
  · simp [hs] at hseq

/-- A burst of a receive is micro-steps that go on with it, to a state `u`, and then at most the one that ends it. -/
theorem recvBurst_last {k : Nat} {s t : State} (h : recvBurst k s = .next t) :
    ∃ j u, recvBurst j s = .next u ∧ RecvFrame s u ∧ (t = u ∨ receiving u = true ∧ seqEvent u = .next t) := by
  induction k generalizing s with
  | zero =>
    cases h
    exact ⟨0, _, rfl, .refl _, .inl rfl⟩
  | succ k ih =>
    by_cases hr : receiving s = true
    case neg =>
      rw [recvBurst_of_not_receiving hr] at h
      cases h
      exact ⟨0, _, rfl, .refl _, .inl rfl⟩
    rw [recvBurst, if_pos hr] at h
    obtain ⟨v, hv, hrest⟩ := andThen_eq_next h
    rcases receive_cases hr hv with ⟨-, hframe⟩ | ⟨st, b, rest, m, -, rfl, -⟩
    · obtain ⟨j, u, hj, hu, hlast⟩ := ih hrest
      refine ⟨j + 1, u, ?_, hframe.trans hu, hlast⟩
      rw [recvBurst, if_pos hr, hv, andThen_next, hj]
    · rw [recvBurst_of_not_receiving (by simp [receiving])] at hrest
      cases hrest
      exact ⟨0, s, rfl, .refl s, .inr ⟨hr, hv⟩⟩

/-! ## What the passing of a line can do, R102 -/

theorem lineEvent_eq_next {bytes : List Byte} {s t : State} (h : lineEvent bytes s = .next t) :
    t = s ∨
    (∃ sel, Sending s ∧ s.txSel = sel ∧ s.txPtr.toNat < cmdLength sel ∧ t = { s with
      txStream := s.txStream ++ (strOf (cmdRom sel)).drop s.txPtr.toNat, txPtr := BitVec.ofNat 4 (cmdLength sel) }) ∨
    (receiving s = false ∧ t = peerBytes bytes s) ∨
    (receiving s = true ∧ receiveLine bytes s = .next t) := by
  rcases lineEvent_cases h with ⟨sel, -, h⟩ | h
  · exact (sendLine_eq_next h).imp_right fun hsent => .inl ⟨sel, hsent⟩
  · cases hr : receiving s with
    | true => exact .inr (.inr (.inr ⟨rfl, h⟩))
    | false =>
      rw [receiveLine_of_not_receiving (by simp [hr])] at h
      cases h
      exact .inr (.inr (.inl ⟨rfl, rfl⟩))

/-- A line that comes into a receive: the bytes arrive, micro-steps lead to `u`, and then at most the one that ends it. -/
theorem receiveLine_last {bytes : List Byte} {s t : State} (h : receiveLine bytes s = .next t) :
    ∃ j u, recvBurst j (peerBytes bytes s) = .next u ∧ RecvFrame (peerBytes bytes s) u ∧
      (t = u ∨ receiving u = true ∧ seqEvent u = .next t) :=
  recvBurst_last h

theorem BlockInv.of_recvBurst {s u : State} (hs : BlockInv s) {bytes : List Byte} {j : Nat}
    (h : Machine.recvBurst j (peerBytes bytes s) = .next u) : BlockInv u := by
  obtain ⟨v, hv, hinv⟩ := (hs.rxStream (s.rxStream ++ bytes)).recvBurst j
  cases hv.symm.trans h
  exact hinv

/-! ## The response buffer, R27 -/

/-- What an event leaves of the buffer: it is as it was, or one cell that exists is written, or all of them are cleared. -/
def BufferWrite (s t : State) : Prop :=
  t.rxBuf = s.rxBuf ∨ (∃ i b, i < s.cfg.rxCap ∧ t.rxBuf = s.rxBuf.write i b) ∨ t.rxBuf = s.rxBuf.clear s.cfg.rxCap

theorem seqEvent_bufferWrite {s t : State} (h : seqEvent s = .next t) : BufferWrite s t := by
  rcases seqEvent_cases h with rfl | ⟨-, ⟨-, c, -, sent⟩ | ⟨-, b, rest, -, taken⟩ | ⟨-, b, rest, -, drained⟩ |
    ⟨-, -, rfl⟩⟩
  · exact .inl rfl
  · rcases sent with ⟨-, -, rfl⟩ | ⟨-, -, rfl⟩ | ⟨-, -, rfl⟩
    · exact .inl rfl
    · exact .inr (.inr rfl)
    · exact .inl rfl
  · rcases taken with ⟨-, hi, rfl⟩ | ⟨-, hi, rfl⟩ | ⟨-, -, hi, rfl⟩ | ⟨-, -, rfl⟩ | ⟨-, -, -, hcap, rfl⟩
    · exact .inr (.inl ⟨_, _, hi, recvEnd_rxBuf ..⟩)
    · exact .inr (.inl ⟨_, _, Nat.lt_of_lt_pred hi, rfl⟩)
    · exact .inr (.inl ⟨_, _, hi, rfl⟩)
    · exact .inl rfl
    · exact .inr (.inl ⟨_, _, Nat.pred_lt hcap.ne', rfl⟩)
  · rcases drained with ⟨-, rfl⟩ | ⟨-, rfl⟩
    · exact .inl (recvEnd_rxBuf ..)
    · exact .inl rfl
  · exact .inl rfl

theorem tick1ms_bufferWrite {s t : State} (h : tick1ms s = .next t) : BufferWrite s t := by
  rcases tick1ms_cases h with rfl | ⟨-, ⟨-, rfl⟩ | ⟨-, -, rfl⟩ | ⟨-, -, rfl⟩⟩ | ⟨-, ⟨-, rfl⟩ | ⟨-, hi, rfl⟩⟩
  · exact .inl rfl
  · exact .inl rfl
  · exact .inl rfl
  · exact .inl rfl
  · exact .inl rfl
  · exact .inr (.inl ⟨_, _, hi, recvEnd_rxBuf ..⟩)

theorem hostEvent_bufferWrite {w : OpWord} {s t : State} (h : hostEvent w s = .next t) : BufferWrite s t := by
  rcases hostEvent_cases h with rfl | ⟨-, -, ⟨st, r, m, v, a, rfl, -, -⟩ | ⟨-, rfl⟩ | ⟨-, rfl⟩ | ⟨-, -, rfl⟩ |
    ⟨-, rfl⟩ | ⟨-, -, rfl⟩⟩
  · exact .inl rfl
  · exact .inl rfl
  · exact .inl rfl
  · exact .inr (.inr rfl)
  · exact .inl rfl
  · exact .inl rfl
  · exact .inl rfl

theorem BufferWrite.wf {s t : State} (h : BufferWrite s t) (hs : s.rxBuf.wf) : t.rxBuf.wf := by
  rcases h with h | ⟨i, b, -, h⟩ | h <;> rw [h]
  · exact hs
  · exact Memory.wf_write hs i b
  · exact Memory.wf_clear hs _

/-- R70: the cells of the buffer are those below `RX_CAP`. -/
theorem BufferWrite.read_above {s t : State} (h : BufferWrite s t) (hs : s.rxBuf.wf) {i : Nat} (hi : s.cfg.rxCap ≤ i) :
    memRead t i = memRead s i := by
  rcases h with h | ⟨j, b, hj, h⟩ | h <;> rw [memRead, h, memRead]
  · rw [Memory.read_write hs, if_neg (by omega)]
  · rw [Memory.read_clear, if_neg (by omega)]

/-- Settles O54: the events write the buffer by `Memory.write` and `Memory.clear` alone, and both keep the form. -/
theorem bufferStaysCanonical : Obligations.BufferStaysCanonical := by
  intro s t h hs
  refine applyEvent_keeps (R := fun s t => s.rxBuf.wf → t.rxBuf.wf) (fun _ => id) (fun _ _ _ h1 h2 => h2 ∘ h1)
    (fun _ _ _ h => (hostEvent_bufferWrite h).wf) (fun _ _ h => (seqEvent_bufferWrite h).wf)
    (fun _ _ h => (tick1ms_bufferWrite h).wf) (fun s ch => ?_) (fun _ _ => id) (fun _ _ => id) (fun _ _ => id)
    (fun _ _ => id) (fun _ _ => Memory.wf_nil) h (by simpa only [takeEvent_rxBuf])
  exact fun hs => by simpa only [timTick, setChan_rxBuf] using hs

/-- Only the micro-steps of a receive, and the one that starts it, write the buffer. -/
theorem seqEvent_rxBuf {s t : State} (h : seqEvent s = .next t) :
    t.rxBuf = s.rxBuf ∨ s.seq = .rx ∨ s.seq = .rxDrain ∨ s.seq = .tx := by
  rcases seqEvent_cases h with rfl | ⟨-, ⟨hs, -⟩ | ⟨hs, -⟩ | ⟨hs, -⟩ | ⟨-, -, rfl⟩⟩
  · exact .inl rfl
  · exact .inr (.inr (.inr hs))
  · exact .inr (.inl hs)
  · exact .inr (.inr (.inl hs))
  · exact .inl rfl

theorem tick1ms_rxBuf {s t : State} (h : tick1ms s = .next t) : t.rxBuf = s.rxBuf ∨ s.seq = .rx ∨ s.seq = .rxDrain := by
  rcases tick1ms_cases h with rfl | ⟨-, ⟨-, rfl⟩ | ⟨-, -, rfl⟩ | ⟨-, -, rfl⟩⟩ | ⟨hr, -⟩
  · exact .inl rfl
  · exact .inl rfl
  · exact .inl rfl
  · exact .inl rfl
  · exact .inr (timeoutRuns_iff.mp hr).1

theorem hostEvent_rxBuf {w : OpWord} {s t : State} (h : hostEvent w s = .next t) :
    t.rxBuf = s.rxBuf ∨ opCode w = codeSerRecv := by
  rcases hostEvent_cases h with rfl | ⟨-, -, ⟨st, r, m, v, a, rfl, -, -⟩ | ⟨-, rfl⟩ | ⟨hc, -⟩ | ⟨-, -, rfl⟩ |
    ⟨-, rfl⟩ | ⟨-, -, rfl⟩⟩
  · exact .inl rfl
  · exact .inl rfl
  · exact .inl rfl
  · exact .inr hc
  · exact .inl rfl
  · exact .inl rfl
  · exact .inl rfl

/-- The cells at `RX_CAP` and above read as before, and the buffer keeps its form. -/
def SameAbove (s t : State) : Prop :=
  t.cfg = s.cfg ∧ (s.rxBuf.wf → t.rxBuf.wf ∧ ∀ i, s.cfg.rxCap ≤ i → memRead t i = memRead s i)

theorem SameAbove.refl (s : State) : SameAbove s s := ⟨rfl, fun hs => ⟨hs, fun _ _ => rfl⟩⟩

theorem SameAbove.trans {s t u : State} (h1 : SameAbove s t) (h2 : SameAbove t u) : SameAbove s u := by
  obtain ⟨hcfg1, hbuf1⟩ := h1
  obtain ⟨hcfg2, hbuf2⟩ := h2
  rw [hcfg1] at hbuf2
  refine ⟨hcfg2.trans hcfg1, fun hs => ?_⟩
  obtain ⟨ht, hread1⟩ := hbuf1 hs
  obtain ⟨hu, hread2⟩ := hbuf2 ht
  exact ⟨hu, fun i hi => (hread2 i hi).trans (hread1 i hi)⟩

theorem BufferWrite.sameAbove {s t : State} (h : BufferWrite s t) (hc : t.cfg = s.cfg) : SameAbove s t :=
  ⟨hc, fun hs => ⟨h.wf hs, fun _ => h.read_above hs⟩⟩

/-- R27, R70: who may write the buffer, and which cells. -/
theorem applyEvent_rxBuf {e : Event} {s t : State} (he : e ≠ .reset) (h : applyEvent e s = .next t) :
    t.rxBuf = s.rxBuf ∨ SameAbove s t ∧ (s.seq = .rx ∨ s.seq = .rxDrain ∨ s.seq = .tx ∧ e = .seq ∨
      ∃ w, (e = .host w ∨ e = .hostIfPressed w) ∧ opCode w = codeSerRecv) := by
  rcases applyEvent_cases h with ⟨w, hw, h | rfl⟩ | ⟨bytes, -, h⟩ | ⟨rfl, h⟩ | ⟨-, h⟩ | ⟨ch, -, rfl⟩ | ⟨b, -, rfl⟩ |
    ⟨-, rfl⟩ | ⟨-, rfl⟩ | ⟨v, -, rfl⟩ | ⟨v, -, rfl⟩ | ⟨rfl, -⟩
  · exact (hostEvent_rxBuf h).imp_right fun hc =>
      ⟨(hostEvent_bufferWrite h).sameAbove (hostEvent_cfg h), .inr (.inr (.inr ⟨w, hw, hc⟩))⟩
  · exact .inl rfl
  · rcases lineEvent_eq_next h with rfl | ⟨sel, -, -, -, rfl⟩ | ⟨-, rfl⟩ | ⟨hr, h⟩
    · exact .inl rfl
    · exact .inl rfl
    · exact .inl rfl
    · have hsame : SameAbove (peerBytes bytes s) t := recvBurst_keeps .refl (fun _ _ _ => .trans)
        (fun _ _ _ h => (seqEvent_bufferWrite h).sameAbove (seqEvent_cfg h)) h
      exact .inr ⟨hsame, (receiving_iff.mp hr).imp_right .inl⟩
  · refine (seqEvent_rxBuf h).imp_right fun hs => ⟨(seqEvent_bufferWrite h).sameAbove (seqEvent_cfg h), ?_⟩
    exact hs.imp_right (Or.imp_right fun htx => .inl ⟨htx, rfl⟩)
  · refine (tick1ms_rxBuf h).imp_right fun hs => ⟨(tick1ms_bufferWrite h).sameAbove (tick1ms_cfg h), ?_⟩
    exact hs.imp_right .inl
  · exact .inl (setChan_rxBuf ..)
  · exact .inl rfl
  · exact .inl rfl
  · rcases refPeer_cases s with h | ⟨n, bytes, h⟩ <;> rw [h] <;> exact .inl rfl
  · exact .inl rfl
  · exact .inl rfl
  · exact absurd rfl he

/-- Settles O45: a cell that reads differently means a buffer that is different, and of the events that write it all
write below `RX_CAP`. -/
theorem onlyAReceiveWritesTheBuffer : Obligations.OnlyAReceiveWritesTheBuffer := by
  intro s t i hwf h hne
  by_cases he : nextEvent s = .reset
  · exact .inl he
  have htake : memRead (takeEvent s) i = memRead s i := by rw [memRead, takeEvent_rxBuf, memRead]
  rcases applyEvent_rxBuf he h with hbuf | ⟨⟨-, habove⟩, hwho⟩
  · exact absurd (by rw [memRead, hbuf]; exact htake) hne
  · obtain ⟨-, hread⟩ := habove (by simpa only [takeEvent_rxBuf])
    simp only [takeEvent_cfg, takeEvent_seq] at hread hwho
    refine .inr ⟨?_, hwho⟩
    by_contra hi
    exact hne ((hread i (Nat.le_of_not_lt hi)).trans htake)

/-! ## `rx_stream`, R76 and R77 -/

theorem seqEvent_rxStream {s t : State} (h : seqEvent s = .next t) :
    ∃ k, t.rxStream = s.rxStream.drop k ∧ (k ≠ 0 → s.seq = .rx ∨ s.seq = .rxDrain) := by
  by_cases hr : receiving s = true
  · rcases receive_cases hr h with ⟨-, q, f, m, i, o, k, rfl⟩ | ⟨st, b, rest, m, hst, rfl, -⟩
    · exact ⟨k, rfl, fun _ => receiving_iff.mp hr⟩
    · exact ⟨1, by simp [hst], fun _ => receiving_iff.mp hr⟩
  · refine ⟨0, ?_, fun h => absurd rfl h⟩
    have hnot := mt receiving_iff.mpr hr
    rcases seqEvent_cases h with rfl | ⟨-, ⟨-, c, -, ⟨-, -, rfl⟩ | ⟨-, -, rfl⟩ | ⟨-, -, rfl⟩⟩ | ⟨hs, -⟩ | ⟨hs, -⟩ |
      ⟨-, -, rfl⟩⟩
    · rfl
    · rfl
    · rfl
    · rfl
    · exact absurd (.inl hs) hnot
    · exact absurd (.inr hs) hnot
    · rfl

theorem tick1ms_rxStream {s t : State} (h : tick1ms s = .next t) : t.rxStream = s.rxStream := by
  rcases tick1ms_cases h with rfl | ⟨-, ⟨-, rfl⟩ | ⟨-, -, rfl⟩ | ⟨-, -, rfl⟩⟩ | ⟨-, ⟨-, rfl⟩ | ⟨-, -, rfl⟩⟩ <;> simp

theorem hostEvent_rxStream {w : OpWord} {s t : State} (h : hostEvent w s = .next t) : t.rxStream = s.rxStream := by
  rcases hostEvent_cases h with rfl | ⟨-, -, ⟨st, r, m, v, a, rfl, -, -⟩ | ⟨-, rfl⟩ | ⟨-, rfl⟩ | ⟨-, -, rfl⟩ | ⟨-, rfl⟩ |
    ⟨-, -, rfl⟩⟩ <;> rfl

/-- A receive takes bytes from the head alone, however many micro-steps it makes. -/
theorem recvBurst_rxStream {k : Nat} {s t : State} (h : recvBurst k s = .next t) :
    ∃ j, t.rxStream = s.rxStream.drop j := by
  refine recvBurst_keeps (R := fun s t => ∃ j, t.rxStream = s.rxStream.drop j) (fun _ => ⟨0, rfl⟩) ?_ ?_ h
  · rintro s t u ⟨j, hj⟩ ⟨k, hk⟩
    exact ⟨j + k, by rw [hk, hj, List.drop_drop]⟩
  · intro s t _ h
    obtain ⟨j, hj, -⟩ := seqEvent_rxStream h
    exact ⟨j, hj⟩

/-- The bytes an event may append: those the peer sends in it. -/
def arrivesIn (e : Event) (arrived : List Byte) : Prop :=
  arrived ≠ [] → (∃ b, e = .peerByte b ∧ arrived = [b]) ∨ (∃ bytes, e = .line bytes ∧ arrived = bytes) ∨ e = .refPeer

theorem applyEvent_rxStream {e : Event} {s t : State} (h : applyEvent e s = .next t) : ∃ arrived k,
    t.rxStream = (s.rxStream ++ arrived).drop k ∧ (k ≠ 0 → s.seq = .rx ∨ s.seq = .rxDrain) ∧ arrivesIn e arrived := by
  have hold (heq : t.rxStream = s.rxStream) : ∃ arrived k, t.rxStream = (s.rxStream ++ arrived).drop k ∧
      (k ≠ 0 → s.seq = .rx ∨ s.seq = .rxDrain) ∧ arrivesIn e arrived :=
    ⟨[], 0, by simp [heq], fun h => absurd rfl h, fun h => absurd rfl h⟩
  rcases applyEvent_cases h with ⟨w, -, h | rfl⟩ | ⟨bytes, rfl, h⟩ | ⟨-, h⟩ | ⟨-, h⟩ | ⟨ch, -, rfl⟩ | ⟨b, rfl, rfl⟩ |
    ⟨-, rfl⟩ | ⟨rfl, rfl⟩ | ⟨v, -, rfl⟩ | ⟨v, -, rfl⟩ | ⟨-, rfl⟩
  · exact hold (hostEvent_rxStream h)
  · exact hold rfl
  · have hline : arrivesIn (.line bytes) bytes := fun _ => .inr (.inl ⟨bytes, rfl, rfl⟩)
    rcases lineEvent_eq_next h with rfl | ⟨sel, -, -, -, rfl⟩ | ⟨-, rfl⟩ | ⟨hr, h⟩
    · exact hold rfl
    · exact hold rfl
    · exact ⟨bytes, 0, rfl, fun h => absurd rfl h, hline⟩
    · obtain ⟨k, hk⟩ := recvBurst_rxStream h
      exact ⟨bytes, k, hk, fun _ => receiving_iff.mp hr, hline⟩
  · obtain ⟨k, hk, hs⟩ := seqEvent_rxStream h
    exact ⟨[], k, by rw [hk, List.append_nil], hs, fun h => absurd rfl h⟩
  · exact hold (tick1ms_rxStream h)
  · exact hold (setChan_rxStream ..)
  · exact ⟨[b], 0, rfl, fun h => absurd rfl h, fun _ => .inl ⟨b, rfl, rfl⟩⟩
  · exact hold rfl
  · rcases refPeer_cases s with h | ⟨n, bytes, h⟩
    · exact hold (by rw [h])
    · exact ⟨bytes, 0, by rw [h]; rfl, fun h => absurd rfl h, fun _ => .inr (.inr rfl)⟩
  · exact hold rfl
  · exact hold rfl
  · exact hold rfl

/-- Settles O46: taking the event touches neither the stream nor `seq`, and the event appends and removes as
`applyEvent_rxStream` says. -/
theorem rxStreamIsFirstInFirstOut : Obligations.RxStreamIsFirstInFirstOut := by
  intro s t h
  simpa only [arrivesIn, takeEvent_rxStream, takeEvent_seq] using applyEvent_rxStream h

/-! ## `tx_stream`, R78 -/

/-- What an event may append to `tx_stream`: the next bytes of the command, while the block is sending it. -/
def sentBy (s : State) (bytes : List Byte) : Prop :=
  bytes ≠ [] → s.seq = .tx ∧ s.txReady = true ∧ s.fault = false ∧
    ∃ n, bytes = ((strOf (cmdRom s.txSel)).drop s.txPtr.toNat).take n

theorem sentBy_nil (s : State) : sentBy s [] := fun h => absurd rfl h

theorem seqEvent_txStream {s t : State} (h : seqEvent s = .next t) :
    ∃ bytes, t.txStream = s.txStream ++ bytes ∧ sentBy s bytes := by
  have hold (heq : t.txStream = s.txStream) : ∃ bytes, t.txStream = s.txStream ++ bytes ∧ sentBy s bytes :=
    ⟨[], by rw [heq, List.append_nil], sentBy_nil s⟩
  by_cases hr : receiving s = true
  · rcases receive_cases hr h with ⟨-, q, f, m, i, o, k, rfl⟩ | ⟨st, b, rest, m, -, rfl, -⟩
    · exact hold rfl
    · exact hold (recvEnd_txStream ..)
  have hnot := mt receiving_iff.mpr hr
  rcases seqEvent_cases h with rfl | ⟨hf, ⟨hs, c, hc, sending⟩ | ⟨hs, -⟩ | ⟨hs, -⟩ | ⟨-, -, rfl⟩⟩
  · exact hold rfl
  · rcases sending with ⟨-, -, rfl⟩ | ⟨-, -, rfl⟩ | ⟨h0, hrdy, rfl⟩
    · exact hold rfl
    · exact hold rfl
    · have hlt := lt_cmdLength_of_cmdByte hc h0
      obtain ⟨c', hc', -, hdrop⟩ := cmdByte_of_lt hlt
      cases hc.symm.trans hc'
      exact ⟨[c], rfl, fun _ => ⟨hs, hrdy, hf, 1, by rw [hdrop]; rfl⟩⟩
  · exact absurd (.inl hs) hnot
  · exact absurd (.inr hs) hnot
  · exact hold rfl

theorem tick1ms_txStream {s t : State} (h : tick1ms s = .next t) : t.txStream = s.txStream := by
  rcases tick1ms_cases h with rfl | ⟨-, ⟨-, rfl⟩ | ⟨-, -, rfl⟩ | ⟨-, -, rfl⟩⟩ | ⟨-, ⟨-, rfl⟩ | ⟨-, -, rfl⟩⟩ <;> simp

theorem hostEvent_txStream {w : OpWord} {s t : State} (h : hostEvent w s = .next t) : t.txStream = s.txStream := by
  rcases hostEvent_cases h with rfl | ⟨-, -, ⟨st, r, m, v, a, rfl, -, -⟩ | ⟨-, rfl⟩ | ⟨-, rfl⟩ | ⟨-, -, rfl⟩ | ⟨-, rfl⟩ |
    ⟨-, -, rfl⟩⟩ <;> rfl

/-- A receive hands nothing to the transmitter. -/
theorem receiveLine_txStream {bytes : List Byte} {s t : State} (h : receiveLine bytes s = .next t) :
    t.txStream = s.txStream := by
  obtain ⟨j, u, -, ⟨q, f, m, i, o, k, rfl⟩, rfl | ⟨hr, h⟩⟩ := receiveLine_last h
  · rfl
  · rcases receive_cases hr h with ⟨-, q', f', m', i', o', k', rfl⟩ | ⟨st, b, rest, m, -, rfl, -⟩
    · rfl
    · exact recvEnd_txStream ..

theorem applyEvent_txStream {e : Event} {s t : State} (h : applyEvent e s = .next t) : ∃ bytes k,
    t.txStream = (s.txStream ++ bytes).drop k ∧ sentBy s bytes ∧ (k ≠ 0 → e = .peerTake ∨ e = .refPeer) := by
  have hgrow (hex : ∃ bytes, t.txStream = s.txStream ++ bytes ∧ sentBy s bytes) : ∃ bytes k,
      t.txStream = (s.txStream ++ bytes).drop k ∧ sentBy s bytes ∧ (k ≠ 0 → e = .peerTake ∨ e = .refPeer) := by
    obtain ⟨bytes, hb, hs⟩ := hex
    exact ⟨bytes, 0, hb, hs, fun h => absurd rfl h⟩
  have hold (heq : t.txStream = s.txStream) := hgrow ⟨[], by rw [heq, List.append_nil], sentBy_nil s⟩
  rcases applyEvent_cases h with ⟨w, -, h | rfl⟩ | ⟨bytes, rfl, h⟩ | ⟨-, h⟩ | ⟨-, h⟩ | ⟨ch, -, rfl⟩ | ⟨b, rfl, rfl⟩ |
    ⟨rfl, rfl⟩ | ⟨rfl, rfl⟩ | ⟨v, -, rfl⟩ | ⟨v, -, rfl⟩ | ⟨-, rfl⟩
  · exact hold (hostEvent_txStream h)
  · exact hold rfl
  · rcases lineEvent_eq_next h with rfl | ⟨sel, hs, rfl, -, rfl⟩ | ⟨-, rfl⟩ | ⟨hr, h⟩
    · exact hold rfl
    · exact hgrow ⟨_, rfl, fun _ => ⟨hs.seq, hs.ready, hs.fault, _, List.take_length.symm⟩⟩
    · exact hold rfl
    · exact hold (receiveLine_txStream h)
  · exact hgrow (seqEvent_txStream h)
  · exact hold (tick1ms_txStream h)
  · exact hold (setChan_txStream ..)
  · exact hold rfl
  · exact ⟨[], 1, by rw [List.append_nil]; rfl, sentBy_nil s, fun _ => .inl rfl⟩
  · rcases refPeer_cases s with h | ⟨n, bytes, h⟩
    · exact hold (by rw [h])
    · exact ⟨[], n, by rw [h, List.append_nil]; rfl, sentBy_nil s, fun _ => .inr rfl⟩
  · exact hold rfl
  · exact hold rfl
  · exact hold rfl

/-- Settles O47: taking the event touches neither the stream nor what the send reads, and the event appends and removes
as `applyEvent_txStream` says. -/
theorem txStreamGetsOnlyTheCommand : Obligations.TxStreamGetsOnlyTheCommand := by
  intro s t h
  simpa only [sentBy, takeEvent_txStream, takeEvent_seq, takeEvent_txReady, takeEvent_fault, takeEvent_txSel,
    takeEvent_txPtr] using applyEvent_txStream h

end Sys2Proof.Machine
end

section
/-! SUPPORT. Rules of every step (10_state.md sections 2 to 5, 43_controller.md section 2, 60_exceptions.md section 1): when
a compare value becomes active, when the LED changes, how the sequencer moves and what a completion reports. -/

namespace Sys2Proof.Machine

/-- A relation that the micro-steps and the arrival of bytes keep, the passing of a line keeps. -/
theorem lineEvent_keeps {R : State → State → Prop} (hr : ∀ s, R s s) (ht : ∀ s t u, R s t → R t u → R s u)
    (hseq : ∀ s t, seqEvent s = .next t → R s t) (hbytes : ∀ s b, R s (peerBytes b s)) {bytes : List Byte} {s t : State}
    (h : lineEvent bytes s = .next t) : R s t := by
  rcases lineEvent_cases h with ⟨sel, -, h⟩ | h
  · rcases sendLine_cases h with rfl | ⟨-, -, h⟩
    · exact hr _
    · exact seqBurst_keeps hr ht hseq h
  · exact ht _ _ _ (hbytes _ _) (recvBurst_keeps hr ht (fun s t _ => hseq s t) h)

/-! ## The active compare, R158 and R34 -/

theorem chan_eq {s t : State} (hm : t.motor = s.motor) (hv : t.servo = s.servo) (ch : Ch) : t.chan ch = s.chan ch := by
  cases ch
  · exact hm
  · exact hv

theorem seqEvent_chan {s t : State} (ch : Ch) (h : seqEvent s = .next t) : t.chan ch = s.chan ch := by
  refine chan_eq ?_ ?_ ch <;>
    rcases seqEvent_cases h with rfl | ⟨-, ⟨-, c, -, ⟨-, -, rfl⟩ | ⟨-, -, rfl⟩ | ⟨-, -, rfl⟩⟩ | ⟨-, b, r, -, ⟨-, -, rfl⟩ |
      ⟨-, -, rfl⟩ | ⟨-, -, -, rfl⟩ | ⟨-, -, rfl⟩ | ⟨-, -, -, -, rfl⟩⟩ | ⟨-, b, r, -, ⟨-, rfl⟩ | ⟨-, rfl⟩⟩ | ⟨-, -, rfl⟩⟩ <;>
    simp

theorem tick1ms_chan {s t : State} (ch : Ch) (h : tick1ms s = .next t) : t.chan ch = s.chan ch := by
  refine chan_eq ?_ ?_ ch <;>
    rcases tick1ms_cases h with rfl | ⟨-, ⟨-, rfl⟩ | ⟨-, -, rfl⟩ | ⟨-, -, rfl⟩⟩ | ⟨-, ⟨-, rfl⟩ | ⟨-, -, rfl⟩⟩ <;> simp

/-- The code of `PWM.CFG` for a channel (R106). -/
def cfgCode : Ch → Byte
  | .motor => codePwmCfgMotor
  | .servo => codePwmCfgServo

theorem hostEvent_ccrAct {w : OpWord} {s t : State} (ch : Ch) (h : hostEvent w s = .next t)
    (hne : (t.chan ch).ccrAct ≠ (s.chan ch).ccrAct) : opCode w = cfgCode ch := by
  rcases hostEvent_cases h with rfl | ⟨-, -, ⟨st, r, m, v, a, rfl, hm, hv⟩ | ⟨-, rfl⟩ | ⟨-, rfl⟩ | ⟨-, -, rfl⟩ |
    ⟨-, rfl⟩ | ⟨-, -, rfl⟩⟩
  case inr.inl =>
    cases ch
    · exact hm hne
    · exact hv hne
  all_goals
    exact absurd (congrArg Channel.ccrAct (chan_eq rfl rfl ch)) hne

/-- R158: of the four branches of a clock only the period boundary writes the active compare. -/
theorem Channel.timTick_ccrAct {c : Channel} (hne : c.timTick.ccrAct ≠ c.ccrAct) :
    c.en = true ∧ c.psc.toNat ≤ c.pcnt.toNat ∧ c.arr.toNat ≤ c.cnt.toNat ∧ c.timTick.ccrAct = c.ccrPre ∧
      c.timTick.cnt = 0 ∧ c.timTick.pcnt = 0 := by
  cases he : c.en with
  | false => exact absurd (by rw [Channel.timTick_of_stopped he]) hne
  | true =>
    by_cases hp : c.pcnt.toNat < c.psc.toNat
    · exact absurd (by rw [Channel.timTick_of_prescaling he hp]) hne
    by_cases hc : c.cnt.toNat < c.arr.toNat
    · exact absurd (by rw [Channel.timTick_of_counting he (not_lt.mp hp) hc]) hne
    · rw [Channel.timTick_of_boundary he (not_lt.mp hp) (not_lt.mp hc)]
      exact ⟨rfl, not_lt.mp hp, not_lt.mp hc, rfl, rfl, rfl⟩

/-- Settles O40: micro-steps, ticks and the environment leave the channels, the `Host` event writes an active compare in
`PWM.CFG` alone, and a clock writes one at the boundary alone. -/
theorem activeCompareChangesOnlyAtABoundary : Obligations.ActiveCompareChangesOnlyAtABoundary := by
  intro s t ch h hne
  have htake : (takeEvent s).chan ch = s.chan ch := chan_eq (takeEvent_motor s) (takeEvent_servo s) ch
  rw [← htake] at hne ⊢
  have hold (heq : t.chan ch = (takeEvent s).chan ch) : False := hne (congrArg _ heq)
  rcases applyEvent_cases h with ⟨w, hw, h | rfl⟩ | ⟨bytes, -, h⟩ | ⟨-, h⟩ | ⟨-, h⟩ | ⟨ch', he, rfl⟩ | ⟨b, -, rfl⟩ |
    ⟨-, rfl⟩ | ⟨-, rfl⟩ | ⟨v, -, rfl⟩ | ⟨v, -, rfl⟩ | ⟨he, -⟩
  · refine .inr (.inr ⟨w, hw, (hostEvent_ccrAct ch h hne).trans ?_⟩)
    cases ch <;> rfl
  · exact (hne rfl).elim
  · exact (hold (lineEvent_keeps (R := fun s t => t.chan ch = s.chan ch) (fun _ => rfl) (fun _ _ _ h1 h2 => h2.trans h1)
      (fun _ _ => seqEvent_chan ch) (fun _ _ => chan_eq rfl rfl ch) h)).elim
  · exact (hold (seqEvent_chan ch h)).elim
  · exact (hold (tick1ms_chan ch h)).elim
  · by_cases hch : ch = ch'
    · subst hch
      rw [timTick, chan_setChan_same] at hne ⊢
      exact .inl ⟨he, Channel.timTick_ccrAct hne⟩
    · exact (hold (chan_setChan_other _ hch _)).elim
  · exact (hold (chan_eq rfl rfl ch)).elim
  · exact (hold (chan_eq rfl rfl ch)).elim
  · rcases refPeer_cases (takeEvent s) with h | ⟨n, bytes, h⟩ <;> rw [h] at hold <;>
      exact (hold (chan_eq rfl rfl ch)).elim
  · exact (hold (chan_eq rfl rfl ch)).elim
  · exact (hold (chan_eq rfl rfl ch)).elim
  · exact .inr (.inl he)

/-! ## The LED, R41 and R258 -/

/-- The press of `s` has completed in `t`, confirmed. -/
def PressConfirmed (s t : State) : Prop :=
  s.curOp = codeCtlPress ∧ receiving s = true ∧ t.led = s.expSel ∧ t.opStatus = .ok ∧ t.opDone = true ∧ t.seq = .idle ∧
    response t = strOf (confRom s.expSel)

/-- R256, R258: a receive's end that changes the LED is that of a confirmed press. -/
theorem recvEnd_confirms {s : State} (hi : BlockInv s) (hr : receiving s = true) {st : Status} {rest : List Byte}
    {m : Memory} (hl : (recvEnd st { s with rxStream := rest, rxBuf := m }).led ≠ s.led) :
    PressConfirmed s (recvEnd st { s with rxStream := rest, rxBuf := m }) := by
  have hop := hi.control.rx_op (receiving_iff.mp hr)
  obtain ⟨r, l, heq, hcase⟩ := recvEnd_cases st { s with rxStream := rest, rxBuf := m }
  rw [heq] at hl ⊢
  rcases hcase with rfl | ⟨hnot, rfl, hresp, rfl⟩
  · exact absurd rfl hl
  · have hpress : s.curOp = codeCtlPress := hop.resolve_left hnot
    obtain ⟨hexp, hsel⟩ := hi.control.press_sel hpress
    exact ⟨hpress, hr, (hexp.trans hsel).symm, rfl, rfl, rfl, hresp⟩

theorem seqEvent_led {s t : State} (hi : BlockInv s) (h : seqEvent s = .next t) (hl : t.led ≠ s.led) :
    PressConfirmed s t := by
  by_cases hr : receiving s = true
  · rcases receive_cases hr h with ⟨-, q, f, m, i, o, k, rfl⟩ | ⟨st, b, rest, m, -, rfl, -⟩
    · exact absurd rfl hl
    · exact recvEnd_confirms hi hr hl
  · have hnot := mt receiving_iff.mpr hr
    rcases seqEvent_cases h with rfl | ⟨-, ⟨-, c, -, ⟨-, -, rfl⟩ | ⟨-, -, rfl⟩ | ⟨-, -, rfl⟩⟩ | ⟨hs, -⟩ | ⟨hs, -⟩ |
      ⟨-, -, rfl⟩⟩
    · exact absurd rfl hl
    · exact absurd rfl hl
    · exact absurd rfl hl
    · exact absurd rfl hl
    · exact absurd (.inl hs) hnot
    · exact absurd (.inr hs) hnot
    · exact absurd rfl hl

theorem tick1ms_led {s t : State} (h : tick1ms s = .next t) : t.led = s.led := by
  rcases tick1ms_cases h with rfl | ⟨-, ⟨-, rfl⟩ | ⟨-, -, rfl⟩ | ⟨-, -, rfl⟩⟩ | ⟨-, ⟨-, rfl⟩ | ⟨-, -, rfl⟩⟩
  · rfl
  · rfl
  · rfl
  · rfl
  · rfl
  · obtain ⟨r, l, heq, rfl | ⟨-, hok, -⟩⟩ := recvEnd_cases .rxTimeout
      { s with rxTmoCnt := s.rxTmoCnt - 1, rxBuf := s.rxBuf.write s.rxIdx 0x00 }
    · rw [heq, complete_led]
    · cases hok

theorem hostEvent_led {w : OpWord} {s t : State} (h : hostEvent w s = .next t) : t.led = s.led := by
  rcases hostEvent_cases h with rfl | ⟨-, -, ⟨st, r, m, v, a, rfl, -, -⟩ | ⟨-, rfl⟩ | ⟨-, rfl⟩ | ⟨-, -, rfl⟩ | ⟨-, rfl⟩ |
    ⟨-, -, rfl⟩⟩ <;> rfl

/-- A confirmation line toggles by the one micro-step that ends the receive. -/
theorem receiveLine_led {bytes : List Byte} {s t : State} (hi : BlockInv s) (hr : receiving s = true)
    (h : receiveLine bytes s = .next t) (hl : t.led ≠ s.led) : PressConfirmed s t := by
  obtain ⟨j, u, hj, ⟨q, f, m, i, o, k, rfl⟩, rfl | ⟨hru, hlast⟩⟩ := receiveLine_last h
  · exact absurd rfl hl
  · obtain ⟨hop, -, hled, hst, hdone, hidle, hresp⟩ := seqEvent_led (hi.of_recvBurst hj) hlast hl
    exact ⟨hop, hr, hled, hst, hdone, hidle, hresp⟩

theorem applyEvent_led {e : Event} {s t : State} (hi : BlockInv s) (h : applyEvent e s = .next t) (hl : t.led ≠ s.led) :
    e = .reset ∨ PressConfirmed s t := by
  rcases applyEvent_cases h with ⟨w, -, h | rfl⟩ | ⟨bytes, -, h⟩ | ⟨-, h⟩ | ⟨-, h⟩ | ⟨ch, -, rfl⟩ | ⟨b, -, rfl⟩ |
    ⟨-, rfl⟩ | ⟨-, rfl⟩ | ⟨v, -, rfl⟩ | ⟨v, -, rfl⟩ | ⟨rfl, -⟩
  · exact absurd (hostEvent_led h) hl
  · exact absurd rfl hl
  · rcases lineEvent_eq_next h with rfl | ⟨sel, -, -, -, rfl⟩ | ⟨-, rfl⟩ | ⟨hr, h⟩
    · exact absurd rfl hl
    · exact absurd rfl hl
    · exact absurd rfl hl
    · exact .inr (receiveLine_led hi hr h hl)
  · exact .inr (seqEvent_led hi h hl)
  · exact absurd (tick1ms_led h) hl
  · exact absurd (setChan_led ..) hl
  · exact absurd rfl hl
  · exact absurd rfl hl
  · rcases refPeer_cases s with h | ⟨n, bytes, h⟩ <;> rw [h] at hl <;> exact absurd rfl hl
  · exact absurd rfl hl
  · exact absurd rfl hl
  · exact .inl rfl

/-- Settles O41: of the events only `Reset` and the end of a confirmed press write the LED. -/
theorem ledChangesOnlyWhenConfirmed : Obligations.LedChangesOnlyWhenConfirmed := by
  intro s t hi h hl
  refine (applyEvent_led hi.takeEvent h (by simpa only [takeEvent_led])).imp_right ?_
  rintro ⟨hop, hr, hrest⟩
  simp only [takeEvent_curOp, takeEvent_expSel] at hop hrest
  have hseq := receiving_iff.mp hr
  simp only [takeEvent_seq] at hseq
  exact ⟨hop, hseq, hrest⟩

/-! ## The sequencer, R262 -/

/-- The step from `s` to `t` moves `seq` as R262 lists it for the event, and to `IDLE` only by a `complete`. -/
def MovesBy (e : Event) (s t : State) : Prop :=
  seqMove e s.seq t.seq = true ∧ (s.seq ≠ .idle → t.seq = .idle → t.opDone = true ∧ t.curOp = 0x00#8)

theorem seqMove_self (e : Event) (q : SeqState) : seqMove e q q = true := by simp [seqMove]

theorem MovesBy.stay {e : Event} {s t : State} (h : t.seq = s.seq) : MovesBy e s t :=
  ⟨by rw [h, seqMove_self], fun hs ht => absurd (h.symm.trans ht) hs⟩

theorem MovesBy.on {e : Event} {s t : State} (hm : seqMove e s.seq t.seq = true) (ht : t.seq ≠ .idle) : MovesBy e s t :=
  ⟨hm, fun _ h => absurd h ht⟩

theorem MovesBy.done {e : Event} {s t : State} (hm : seqMove e s.seq .idle = true) (ht : t.seq = .idle)
    (hd : t.opDone = true) (hc : t.curOp = 0x00#8) : MovesBy e s t :=
  ⟨by rw [ht, hm], fun _ _ => ⟨hd, hc⟩⟩

theorem MovesBy.recvEnd {e : Event} {s : State} (hm : seqMove e s.seq .idle = true) (st : Status) (u : State) :
    MovesBy e s (recvEnd st u) :=
  .done hm (recvEnd_seq ..) (recvEnd_opDone ..) (recvEnd_curOp ..)

theorem seqEvent_moves {s t : State} (h : seqEvent s = .next t) : MovesBy .seq s t := by
  rcases seqEvent_cases h with rfl | ⟨-, ⟨hs, c, -, sending⟩ | ⟨hs, b, rest, -, taken⟩ | ⟨hs, b, rest, -, drained⟩ |
    ⟨hs, -, rfl⟩⟩
  · exact .stay rfl
  · rcases sending with ⟨-, -, rfl⟩ | ⟨-, -, rfl⟩ | ⟨-, -, rfl⟩
    · exact .done (by rw [hs]; rfl) rfl rfl rfl
    · exact .on (by rw [hs]; rfl) nofun
    · exact .stay rfl
  · rcases taken with ⟨-, -, rfl⟩ | ⟨-, -, rfl⟩ | ⟨-, -, -, rfl⟩ | ⟨-, -, rfl⟩ | ⟨-, -, -, -, rfl⟩
    · exact .recvEnd (by rw [hs]; rfl) ..
    · exact .stay rfl
    · exact .on (by rw [hs]; rfl) nofun
    · exact .stay rfl
    · exact .stay rfl
  · rcases drained with ⟨-, rfl⟩ | ⟨-, rfl⟩
    · exact .recvEnd (by rw [hs]; rfl) ..
    · exact .stay rfl
  · exact .on (by rw [hs]; rfl) nofun

theorem tick1ms_moves {s t : State} (h : tick1ms s = .next t) : MovesBy .tick1ms s t := by
  rcases tick1ms_cases h with rfl | ⟨-, ⟨-, rfl⟩ | ⟨-, hs, rfl⟩ | ⟨-, hs, rfl⟩⟩ | ⟨hr, ⟨-, rfl⟩ | ⟨-, -, rfl⟩⟩
  · exact .stay rfl
  · exact .stay rfl
  · exact .done (by rw [hs]; rfl) rfl rfl rfl
  · exact .done (by rw [hs]; rfl) rfl rfl rfl
  · exact .stay rfl
  · refine .recvEnd ?_ ..
    rcases (timeoutRuns_iff.mp hr).1 with hs | hs <;> rw [hs] <;> rfl

/-- R262: an accepted word moves `seq` by its code. -/
theorem hostEvent_moves {e : Event} {w : OpWord} {s t : State} (he : e = .host w ∨ e = .hostIfPressed w)
    (h : hostEvent w s = .next t) : MovesBy e s t := by
  have hmove (hs : s.seq = .idle) (hm : t.seq ∈ hostMove (opCode w)) : seqMove e s.seq t.seq = true := by
    rcases he with rfl | rfl <;> simp [seqMove, hs, hm]
  rcases hostEvent_cases h with rfl | ⟨hs, -, ⟨st, r, m, v, a, rfl, -, -⟩ | ⟨hc, rfl⟩ | ⟨hc, rfl⟩ | ⟨hc, -, rfl⟩ |
    ⟨hc, rfl⟩ | ⟨hc, -, rfl⟩⟩
  · exact .stay rfl
  · exact .stay hs.symm
  · exact .on (hmove hs (hc ▸ (by decide : SeqState.tx ∈ hostMove codeSerSend))) nofun
  · exact .on (hmove hs (hc ▸ (by decide : SeqState.rx ∈ hostMove codeSerRecv))) nofun
  · exact .on (hmove hs (hc ▸ (by decide : SeqState.dbPressed ∈ hostMove codeBtnPoll))) nofun
  · exact .on (hmove hs (hc ▸ (by decide : SeqState.tx ∈ hostMove codeCtlPress))) nofun
  · exact .on (hmove hs (hc ▸ (by decide : SeqState.dly ∈ hostMove codeDlyMs))) nofun

theorem seqMove_line_iff {bytes : List Byte} {a b : SeqState} : seqMove (.line bytes) a b = true ↔
    b = a ∨ a = .rx ∧ (b = .rxDrain ∨ b = .idle) ∨ a = .rxDrain ∧ b = .idle := by
  rw [@eq_comm _ b a]
  simp [seqMove]

theorem seqMove_line_trans {bytes : List Byte} {a b c : SeqState} (h1 : seqMove (.line bytes) a b = true)
    (h2 : seqMove (.line bytes) b c = true) : seqMove (.line bytes) a c = true := by
  rw [seqMove_line_iff] at h1 h2 ⊢
  rcases h1 with rfl | ⟨rfl, rfl | rfl⟩ | ⟨rfl, rfl⟩
  · exact h2
  · exact .inr (.inl ⟨rfl, by simpa using h2⟩)
  · exact .inr (.inl ⟨rfl, .inr (by simpa using h2)⟩)
  · exact .inr (.inr ⟨rfl, by simpa using h2⟩)

/-- In a receive a line moves `seq` by micro-steps. -/
theorem seqMove_line_of_seq {bytes : List Byte} {a b : SeqState} (ha : a = .rx ∨ a = .rxDrain)
    (h : seqMove .seq a b = true) : seqMove (.line bytes) a b = true := by
  rw [seqMove_line_iff]
  rcases ha with rfl | rfl <;> revert h <;> cases b <;> decide

/-- The moves of a receive's micro-steps compose: an idle block makes none. -/
theorem recvBurst_moves {bytes : List Byte} {k : Nat} {s t : State} (h : recvBurst k s = .next t) :
    MovesBy (.line bytes) s t := by
  refine And.left (b := s.seq = .idle → t = s) ?_
  refine recvBurst_keeps (R := fun s t => MovesBy (.line bytes) s t ∧ (s.seq = .idle → t = s))
    (fun _ => ⟨.stay rfl, fun _ => rfl⟩) ?_ ?_ h
  · rintro s t u ⟨⟨hm1, hd1⟩, hid1⟩ ⟨⟨hm2, hd2⟩, hid2⟩
    refine ⟨⟨seqMove_line_trans hm1 hm2, fun hs hu => ?_⟩, fun hs => ?_⟩
    · by_cases ht : t.seq = .idle
      · rw [hid2 ht]
        exact hd1 hs ht
      · exact hd2 ht hu
    · have ht := hid1 hs
      rw [hid2 (by rw [ht, hs]), ht]
  · intro s t hr h
    obtain ⟨hm, hd⟩ := seqEvent_moves h
    refine ⟨⟨seqMove_line_of_seq (receiving_iff.mp hr) hm, hd⟩, fun hs => ?_⟩
    rcases receiving_iff.mp hr with hr | hr <;> cases hs.symm.trans hr

theorem applyEvent_moves {e : Event} {s t : State} (he : e ≠ .reset) (h : applyEvent e s = .next t) : MovesBy e s t := by
  rcases applyEvent_cases h with ⟨w, hw, h | rfl⟩ | ⟨bytes, rfl, h⟩ | ⟨rfl, h⟩ | ⟨rfl, h⟩ | ⟨ch, -, rfl⟩ | ⟨b, -, rfl⟩ |
    ⟨-, rfl⟩ | ⟨-, rfl⟩ | ⟨v, -, rfl⟩ | ⟨v, -, rfl⟩ | ⟨rfl, -⟩
  · exact hostEvent_moves hw h
  · exact .stay rfl
  · rcases lineEvent_eq_next h with rfl | ⟨sel, -, -, -, rfl⟩ | ⟨-, rfl⟩ | ⟨-, h⟩
    · exact .stay rfl
    · exact .stay rfl
    · exact .stay rfl
    · exact recvBurst_moves (s := peerBytes bytes s) h
  · exact seqEvent_moves h
  · exact tick1ms_moves h
  · exact .stay (setChan_seq ..)
  · exact .stay rfl
  · exact .stay rfl
  · rcases refPeer_cases s with h | ⟨n, bytes, h⟩ <;> rw [h] <;> exact .stay rfl
  · exact .stay rfl
  · exact .stay rfl
  · exact absurd rfl he

/-- Settles O43: `Reset` may go to `IDLE` from everywhere, and every other event moves as `applyEvent_moves` says. -/
theorem sequencerTransitionsAreTheTable : Obligations.SequencerTransitionsAreTheTable := by
  intro s t h
  by_cases he : nextEvent s = .reset
  · rw [step_reset he] at h
    cases h
    rw [he]
    exact ⟨by cases s.seq <;> rfl, fun _ _ hne => absurd rfl hne⟩
  · obtain ⟨hm, hd⟩ := applyEvent_moves he h
    rw [takeEvent_seq] at hm hd
    exact ⟨hm, fun hs ht _ => hd hs ht⟩

end Sys2Proof.Machine
end

section
/-! SUPPORT. What a completion reports (60_exceptions.md section 1), event by event, and the environment's own events. -/

namespace Sys2Proof.Machine

/-! ## The codes, R300 -/

theorem Status.code_inj {a b : Status} : a.code = b.code ↔ a = b := by
  cases a <;> cases b <;> decide

theorem Status.code_le (a : Status) : a.code.toNat ≤ 4 := by
  cases a <;> decide

/-! ## Words, R302 and R303 -/

/-- R142: `PWM.CFG` is the one operation that can find its operand bad. -/
theorem pwmCfg_status (ch : Ch) (f : Arg) (s : State) :
    (pwmCfg ch f s).opStatus = .ok ∨ (pwmCfg ch f s).opStatus = .badArg ∧ (pwmCfg ch f s).opResult = 0 := by
  by_cases h : CfgDomain (timerClockHz s.cfg ch) (tickRateHz s.cfg ch) f.toNat
  · rw [pwmCfg_of_cfgDomain h]
    exact .inl rfl
  · rw [pwmCfg_of_not_cfgDomain h]
    exact .inr ⟨rfl, rfl⟩

theorem exec_status {w : OpWord} {i : Instr} {s t : State} (hi : decodeOp w = .ok i) (h : exec i s = .next t)
    (hs : s.opDone = false) (ht : t.opDone = true) : t.opStatus = .ok ∨
      t.opStatus = .badArg ∧ t.opResult = 0 ∧ ∃ f, i = .pwmCfgMotor f ∨ i = .pwmCfgServo f := by
  have hwait (heq : t.opDone = s.opDone) : False := by simp [heq, hs] at ht
  rcases decodeOp_cases hi with ⟨-, rfl⟩ | ⟨-, rfl⟩ | ⟨-, rfl⟩ | ⟨-, rfl⟩ | ⟨-, rfl⟩ | ⟨-, rfl⟩ | ⟨-, hsel, rfl⟩ |
    ⟨-, rfl⟩ | ⟨-, rfl⟩ | ⟨-, rfl⟩ | ⟨-, rfl⟩
  · cases h
    exact .inl rfl
  · cases h
    exact (pwmCfg_status .motor _ s).imp_right fun ⟨hst, hr⟩ => ⟨hst, hr, _, .inl rfl⟩
  · cases h
    exact (pwmCfg_status .servo _ s).imp_right fun ⟨hst, hr⟩ => ⟨hst, hr, _, .inr rfl⟩
  · cases h
    exact .inl rfl
  · cases h
    exact .inl rfl
  · cases h
    exact .inl rfl
  · rw [exec_serSend, execSerSend_of_select hsel] at h
    cases h
    exact (hwait rfl).elim
  · cases h
    exact (hwait rfl).elim
  · by_cases hb : s.btnIn = s.cfg.btnActiveLevel
    · rw [exec_btnPoll, execBtnPoll_of_active hb] at h
      cases h
      exact (hwait rfl).elim
    · rw [exec_btnPoll, execBtnPoll_of_inactive hb] at h
      cases h
      exact .inl rfl
  · cases h
    exact (hwait rfl).elim
  · by_cases hn : opArg w = 0
    · rw [hn, exec_dlyMs, execDlyMs_zero] at h
      cases h
      exact .inl rfl
    · rw [exec_dlyMs, execDlyMs_of_ne_zero hn] at h
      cases h
      exact (hwait rfl).elim

/-- R300: what the completion of a word in its own event reports. -/
theorem hostEvent_status {w : OpWord} {s t : State} (h : hostEvent w s = .next t) (hs : s.opDone = false)
    (ht : t.opDone = true) : t.opStatus = .ok ∨
      (t.opStatus = .illegalOp ∧ (∃ e, decodeOp w = .error e) ∧ t.opResult = (opCode w).setWidth 32) ∨
      (t.opStatus = .badArg ∧ (∃ f, decodeOp w = .ok (.pwmCfgMotor f) ∨ decodeOp w = .ok (.pwmCfgServo f)) ∧
        t.opResult = 0) := by
  by_cases hr : opReady s = true
  case neg =>
    rw [hostEvent_of_not_ready hr] at h
    cases h
    cases hs.symm.trans ht
  cases hd : decodeOp w with
  | error e =>
    rw [hostEvent_of_illegal hr hd] at h
    cases h
    exact .inr (.inl ⟨rfl, ⟨e, rfl⟩, rfl⟩)
  | ok i =>
    rw [hostEvent_of_decodeOp hr hd] at h
    refine (exec_status hd h hs ht).imp_right ?_
    rintro ⟨hst, hres, f, rfl | rfl⟩
    · exact .inr ⟨hst, ⟨f, .inl rfl⟩, hres⟩
    · exact .inr ⟨hst, ⟨f, .inr rfl⟩, hres⟩

/-! ## Receives, R304 and R305 -/

/-- R228, R256: what the end of a receive records when it is not a normal one: `SER.RECV` the index, `CTL.PRESS` the LED's
state with bit 0 clear. -/
theorem recvEnd_abnormal {st : Status} {s : State} (hop : s.curOp = codeSerRecv ∨ s.curOp = codeCtlPress)
    (hst : st ≠ .ok) :
    s.curOp = codeSerRecv ∧ (recvEnd st s).opResult = BitVec.ofNat 32 s.rxIdx ∨
    s.curOp = codeCtlPress ∧ (recvEnd st s).opResult = if s.led then 2 else 0 := by
  refine hop.imp (fun h => ⟨h, by rw [recvEnd_of_serRecv h, complete_opResult]⟩) fun h => ⟨h, ?_⟩
  have hnot : ¬ confirmed st s = true := fun hm => hst (confirmed_iff.mp hm).1
  rw [recvEnd_of_ctlPress h, ctlFinish_of_unconfirmed hnot, complete_opResult, pressResult_kept]

/-- R304: the receive of `s` has ended in `t` with a line too long. -/
def EndsTooLong (s t : State) : Prop :=
  s.cfg.overflowPolicy = .capAndFlag ∧ (s.seq = .rx ∨ s.seq = .rxDrain) ∧
    (s.curOp = codeSerRecv ∧ t.opResult = BitVec.ofNat 32 (s.cfg.rxCap - 1) ∧ t.rxIdx = s.cfg.rxCap - 1 ∨
     s.curOp = codeCtlPress ∧ t.opResult = if s.led then 2 else 0)

theorem recvEnd_tooLong {s : State} (hi : BlockInv s) (hs : s.seq = .rxDrain) (rest : List Byte) (m : Memory) :
    EndsTooLong s (recvEnd .lineTooLong { s with rxStream := rest, rxBuf := m }) := by
  obtain ⟨hidx, -⟩ := hi.buffer.drain_idx hs
  have hop := hi.control.rx_op (.inr hs)
  refine ⟨hi.control.drain_cap hs, .inr hs, ?_⟩
  refine (recvEnd_abnormal (st := .lineTooLong) (s := { s with rxStream := rest, rxBuf := m }) hop nofun).imp_left ?_
  rintro ⟨hc, hr⟩
  exact ⟨hc, by rw [hr, hidx], by rw [recvEnd_rxIdx, hidx]⟩

theorem seqEvent_status {s t : State} (hi : BlockInv s) (h : seqEvent s = .next t) (hs : s.opDone = false)
    (ht : t.opDone = true) : t.opStatus = .ok ∨ t.opStatus = .lineTooLong ∧ EndsTooLong s t := by
  have hwait (heq : t.opDone = s.opDone) : False := by simp [heq, hs] at ht
  by_cases hr : receiving s = true
  · rcases receive_cases hr h with ⟨-, q, f, m, i, o, k, rfl⟩ | ⟨st, b, rest, m, -, rfl, ⟨rfl, -⟩ | ⟨rfl, hq⟩⟩
    · exact (hwait rfl).elim
    · exact .inl (recvEnd_opStatus ..)
    · exact .inr ⟨recvEnd_opStatus .., recvEnd_tooLong hi hq rest m⟩
  · have hnot := mt receiving_iff.mpr hr
    rcases seqEvent_cases h with rfl | ⟨-, ⟨-, c, -, ⟨-, -, rfl⟩ | ⟨-, -, rfl⟩ | ⟨-, -, rfl⟩⟩ | ⟨hq, -⟩ | ⟨hq, -⟩ |
      ⟨-, -, rfl⟩⟩
    · exact (hwait rfl).elim
    · exact .inl rfl
    · exact (hwait rfl).elim
    · exact (hwait rfl).elim
    · exact absurd (.inl hq) hnot
    · exact absurd (.inr hq) hnot
    · exact (hwait rfl).elim

theorem receiveLine_status {bytes : List Byte} {s t : State} (hi : BlockInv s) (hr : receiving s = true)
    (h : receiveLine bytes s = .next t) (hs : s.opDone = false) (ht : t.opDone = true) :
    t.opStatus = .ok ∨ t.opStatus = .lineTooLong ∧ EndsTooLong s t := by
  obtain ⟨j, u, hj, ⟨q, f, m, i, o, k, rfl⟩, rfl | ⟨hru, hlast⟩⟩ := receiveLine_last h
  · cases hs.symm.trans ht
  · refine (seqEvent_status (hi.of_recvBurst hj) hlast hs ht).imp_right ?_
    rintro ⟨hst, hcap, -, hres⟩
    exact ⟨hst, hcap, receiving_iff.mp hr, hres⟩

/-- R305: the receive of `s` has ended in `t` by its timeout. -/
def EndsTimedOut (s t : State) : Prop :=
  s.cfg.rxTimeoutMs ≠ none ∧ (s.seq = .rx ∨ s.seq = .rxDrain) ∧
    (s.curOp = codeSerRecv ∧ t.opResult = BitVec.ofNat 32 s.rxIdx ∨
     s.curOp = codeCtlPress ∧ t.opResult = if s.led then 2 else 0)

theorem tick1ms_status {s t : State} (hi : BlockInv s) (h : tick1ms s = .next t) (hs : s.opDone = false)
    (ht : t.opDone = true) : t.opStatus = .ok ∨ t.opStatus = .rxTimeout ∧ EndsTimedOut s t := by
  have hwait (heq : t.opDone = s.opDone) : False := by simp [heq, hs] at ht
  rcases tick1ms_cases h with rfl | ⟨-, ⟨-, rfl⟩ | ⟨-, -, rfl⟩ | ⟨-, -, rfl⟩⟩ | ⟨hr, ⟨-, rfl⟩ | ⟨-, -, rfl⟩⟩
  · exact (hwait rfl).elim
  · exact (hwait rfl).elim
  · exact .inl rfl
  · exact .inl rfl
  · exact (hwait rfl).elim
  · obtain ⟨hq, htmo, -⟩ := timeoutRuns_iff.mp hr
    have hop := hi.control.rx_op hq
    exact .inr ⟨recvEnd_opStatus .., htmo, hq, recvEnd_abnormal (s := { s with
      rxTmoCnt := s.rxTmoCnt - 1, rxBuf := s.rxBuf.write s.rxIdx 0x00 }) hop nofun⟩

/-! ## Every event -/

/-- What a completion in an event reports: `OK`, or one of the four abnormal codes with its cause. -/
def Reports (e : Event) (s t : State) : Prop :=
  t.opStatus = .ok ∨
  (∃ w, (e = .host w ∨ e = .hostIfPressed w) ∧
    ((t.opStatus = .illegalOp ∧ (∃ e, decodeOp w = .error e) ∧ t.opResult = (opCode w).setWidth 32) ∨
     (t.opStatus = .badArg ∧ (∃ f, decodeOp w = .ok (.pwmCfgMotor f) ∨ decodeOp w = .ok (.pwmCfgServo f)) ∧
        t.opResult = 0))) ∨
  (t.opStatus = .lineTooLong ∧ EndsTooLong s t) ∨
  (t.opStatus = .rxTimeout ∧ e = .tick1ms ∧ EndsTimedOut s t)

theorem applyEvent_reports {e : Event} {s t : State} (hi : BlockInv s) (h : applyEvent e s = .next t)
    (hs : s.opDone = false) (ht : t.opDone = true) : Reports e s t := by
  have hwait (heq : t.opDone = s.opDone) : False := by simp [heq, hs] at ht
  rcases applyEvent_cases h with ⟨w, hw, h | rfl⟩ | ⟨bytes, -, h⟩ | ⟨-, h⟩ | ⟨he, h⟩ | ⟨ch, -, rfl⟩ | ⟨b, -, rfl⟩ |
    ⟨-, rfl⟩ | ⟨-, rfl⟩ | ⟨v, -, rfl⟩ | ⟨v, -, rfl⟩ | ⟨-, rfl⟩
  · exact (hostEvent_status h hs ht).imp_right fun hcase => .inl ⟨w, hw, hcase⟩
  · exact (hwait rfl).elim
  · rcases lineEvent_eq_next h with rfl | ⟨sel, -, -, -, rfl⟩ | ⟨-, rfl⟩ | ⟨hr, h⟩
    · exact (hwait rfl).elim
    · exact (hwait rfl).elim
    · exact (hwait rfl).elim
    · exact (receiveLine_status hi hr h hs ht).imp_right fun hcase => .inr (.inl hcase)
  · exact (seqEvent_status hi h hs ht).imp_right fun hcase => .inr (.inl hcase)
  · exact (tick1ms_status hi h hs ht).imp_right fun ⟨hst, hend⟩ => .inr (.inr ⟨hst, he, hend⟩)
  · exact (hwait (setChan_opDone ..)).elim
  · exact (hwait rfl).elim
  · exact (hwait rfl).elim
  · rcases refPeer_cases s with h | ⟨n, bytes, h⟩ <;> rw [h] at hwait <;> exact (hwait rfl).elim
  · exact (hwait rfl).elim
  · exact (hwait rfl).elim
  · cases ht

/-- Settles O59: the numbering is `Status.code`'s, and of what `applyEvent_reports` allows each code leaves one
alternative. -/
theorem statusCodesAreTheTable : Obligations.StatusCodesAreTheTable := by
  refine ⟨fun s => by cases h : s.opStatus <;> simp only [opStatusOut, h] <;> rfl, fun s => Status.code_le _, ?_⟩
  intro s t hi h ht
  have hrep : Reports (nextEvent s) (takeEvent s) t := applyEvent_reports hi.takeEvent h (takeEvent_opDone s) ht
  simp only [Reports, EndsTooLong, EndsTimedOut, takeEvent_cfg, takeEvent_seq, takeEvent_curOp, takeEvent_led,
    takeEvent_rxIdx] at hrep
  have hcode (st : Status) : opStatusOut t = st.code ↔ t.opStatus = st := Status.code_inj
  refine ⟨fun hc => ?_, fun hc => ?_, fun hc => ?_, fun hc => ?_⟩
  · rw [(hcode .illegalOp).mp hc] at hrep
    obtain ⟨w, hw, ⟨-, ⟨e, he⟩, hres⟩ | ⟨hno, -⟩⟩ := (hrep.resolve_left nofun).resolve_right (by simp)
    · exact ⟨w, e, hw, he, hres⟩
    · cases hno
  · rw [(hcode .lineTooLong).mp hc] at hrep
    obtain ⟨hcap, hq, hres⟩ : _ ∧ _ ∧ _ := by simpa using hrep
    exact ⟨hcap, hq, hres⟩
  · rw [(hcode .rxTimeout).mp hc] at hrep
    obtain ⟨he, htmo, hq, hres⟩ : _ ∧ _ ∧ _ ∧ _ := by simpa using hrep
    exact ⟨htmo, he, hq, hres⟩
  · rw [(hcode .badArg).mp hc] at hrep
    obtain ⟨w, hw, ⟨hno, -⟩ | ⟨-, ⟨f, hf⟩, hres⟩⟩ := (hrep.resolve_left nofun).resolve_right (by simp)
    · cases hno
    · exact ⟨w, f, hw, hf, hres⟩

/-! ## The environment's events, R50, R76 and R78 -/

/-- Settles O48: each is the step of the event at the head of the schedule, written out. -/
theorem environmentEventsAreAlwaysEnabled : Obligations.EnvironmentEventsAreAlwaysEnabled := fun _ _ _ _ =>
  ⟨step_of_schedule, step_of_schedule, step_of_schedule⟩

/-! ## Pseudo-operations, R112 -/

theorem hostIfPressedEvent_of_pressed {s : State} (h : s.opResult = 1) (w : OpWord) :
    hostIfPressedEvent w s = hostEvent w s :=
  if_pos h

theorem hostIfPressedEvent_of_not_pressed {s : State} (h : s.opResult ≠ 1) (w : OpWord) :
    hostIfPressedEvent w s = .next s :=
  if_neg h

/-- Settles O55: the expansions are evaluated; the condition is read by the event that presents the second word. -/
theorem pseudoOperationsExpand : Obligations.PseudoOperationsExpand := by
  refine ⟨by decide, fun s w rest hsched => ⟨fun h => ?_, fun h => ?_⟩, by decide, by decide,
    fun v n => ⟨rfl, rfl, rfl⟩⟩
  · calc step s
      _ = hostIfPressedEvent w { s with schedule := rest, opDone := false } := step_of_schedule hsched
      _ = hostEvent w { s with schedule := rest, opDone := false } :=
        hostIfPressedEvent_of_pressed (s := { s with schedule := rest, opDone := false }) h w
      _ = step { s with schedule := .host w :: rest } :=
        (step_of_schedule (s := { s with schedule := .host w :: rest }) rfl).symm
  · calc step s
      _ = hostIfPressedEvent w { s with schedule := rest, opDone := false } := step_of_schedule hsched
      _ = .next { s with schedule := rest, opDone := false } :=
        hostIfPressedEvent_of_not_pressed (s := { s with schedule := rest, opDone := false }) h w

end Sys2Proof.Machine
end

section
/-! SUPPORT. The angle map and the period of the counter (40_pwm.md sections 4 and 5). -/

namespace Sys2Proof.Machine

/-! ## The angle map, R154 -/

section
variable {p : Params}

theorem angleCompare_zero (p : Params) : angleCompare p 0 = p.minPulse.toNat := by simp [angleCompare]

theorem angleCompare_full (hp : p.InRange) : angleCompare p 180 = p.maxPulse.toNat := by
  obtain ⟨-, -, -, -, hle⟩ := hp
  rw [angleCompare, Nat.mul_div_cancel _ (by decide), Nat.add_sub_of_le hle]

theorem angleCompare_mono (p : Params) {g h : Nat} (hgh : g ≤ h) : angleCompare p g ≤ angleCompare p h :=
  Nat.add_le_add_left (Nat.div_le_div_right (Nat.mul_le_mul_left _ hgh)) _

theorem minPulse_le_angleCompare (p : Params) (g : Nat) : p.minPulse.toNat ≤ angleCompare p g :=
  Nat.le_add_right ..

theorem angleCompare_le_maxPulse (hp : p.InRange) {g : Nat} (hg : g ≤ 180) : angleCompare p g ≤ p.maxPulse.toNat :=
  (angleCompare_mono p hg).trans_eq (angleCompare_full hp)

/-- A compare value of the map is at most `MAX_PULSE`, which is a timer register's. -/
theorem toNat_angleCompare (hp : p.InRange) {g : Nat} (hg : g ≤ 180) :
    (BitVec.ofNat 16 (angleCompare p g)).toNat = angleCompare p g :=
  Nat.mod_eq_of_lt ((angleCompare_le_maxPulse hp hg).trans_lt p.maxPulse.isLt)

end

/-- Settles O14: the map is an affine one, rounded down, between the two bounds. -/
theorem angleMapIsMonotoneAndBounded : Obligations.AngleMapIsMonotoneAndBounded := fun p hp =>
  ⟨angleCompare_zero p, angleCompare_full hp, fun _ _ hgh _ => angleCompare_mono p hgh,
    fun g hg => ⟨minPulse_le_angleCompare p g, angleCompare_le_maxPulse hp hg, toNat_angleCompare hp hg⟩⟩

/-! ## The servo at 50 Hz -/

theorem legal_iff (p : Params) : p.Legal ↔ p.InRange ∧ p.maxPulse.toNat ≤ servoRate p / 50 := by
  rw [Params.Legal, servoPulseFits, tickRateHz_servo, decide_eq_true_iff]

theorem clamped_le (a : Arg) (hi : Nat) : clamped a hi ≤ hi := by
  unfold clamped
  split_ifs <;> omega

/-- R144: the period written for 50 Hz is `T/50` ticks. -/
theorem toNat_arr_configured {b : Bool} {C T : Nat} {c : Channel} (h : CfgDomain C T 50) :
    (configured b C T 50 c).arr.toNat + 1 = T / 50 := by
  obtain ⟨-, -, -, hT, hN⟩ := h
  have harr : (configured b C T 50 c).arr.toNat = (T / 50 - 1) % 65536 := rfl
  omega

/-- The servo's compare value after a `PWM.ANGLE`. -/
theorem toNat_ccrPre_pwmAngle {s : State} (hp : s.cfg.InRange) (a : Arg) :
    (pwmAngle a s).servo.ccrPre.toNat = angleCompare s.cfg (clamped a 180) := by
  rw [pwmAngle_eq]
  exact toNat_angleCompare hp (clamped_le a 180)

/-- R144, R145: a servo configured for 50 Hz has the period `T/50`. -/
theorem exec_pwmCfgServo_fifty {s : State} (h : CfgDomain s.cfg.timerClockServo (servoRate s.cfg) 50) :
    ∃ t, exec (.pwmCfgServo 50) s = .next t ∧ t.cfg = s.cfg ∧ t.servo.arr.toNat + 1 = servoRate s.cfg / 50 := by
  obtain ⟨-, hservo, -, -⟩ := pwmCfgConfiguresOrReportsBadArg
  exact ⟨_, hservo 50 s h, rfl, toNat_arr_configured h⟩

/-- Settles O58: `PWM.CFG` writes the period, `PWM.ANGLE` leaves it, and the largest compare value is `MAX_PULSE`. -/
theorem servoPulseIsAWidthExactlyIfItFits : Obligations.ServoPulseIsAWidthExactlyIfItFits := by
  refine ⟨legal_iff, by decide, fun s hp hdom => ?_⟩
  obtain ⟨t, ht, hcfg, harr⟩ := exec_pwmCfgServo_fifty hdom
  rw [← hcfg] at hp harr ⊢
  refine ⟨t, ht, harr, fun hl a => ?_, fun hl => ?_⟩ <;> refine ⟨_, exec_pwmAngleServo .., ?_⟩
  · obtain ⟨-, hfit⟩ := (legal_iff t.cfg).mp hl
    calc (pwmAngle a t).servo.ccrPre.toNat
      _ = angleCompare t.cfg (clamped a 180) := toNat_ccrPre_pwmAngle hp a
      _ ≤ t.cfg.maxPulse.toNat := angleCompare_le_maxPulse hp (clamped_le a 180)
      _ ≤ servoRate t.cfg / 50 := hfit
      _ = t.servo.arr.toNat + 1 := harr.symm
  · calc t.servo.arr.toNat + 1
      _ = servoRate t.cfg / 50 := harr
      _ < t.cfg.maxPulse.toNat := Nat.lt_of_not_le fun hfit => hl ((legal_iff t.cfg).mpr ⟨hp, hfit⟩)
      _ = angleCompare t.cfg (clamped 180 180) := (angleCompare_full hp).symm
      _ = (pwmAngle 180 t).servo.ccrPre.toNat := (toNat_ccrPre_pwmAngle hp 180).symm

/-! ## The period, R158 -/

/-- The channel with its counter at `q` and its prescaler at `r`. -/
def Channel.place (c : Channel) (q r : Nat) : Channel :=
  { c with cnt := BitVec.ofNat 16 q, pcnt := BitVec.ofNat 16 r }

section
variable {c : Channel} {q r : Nat}

theorem Half.toNat_ofNat_le {x : Half} {n : Nat} (h : n ≤ x.toNat) : (BitVec.ofNat 16 n).toNat = n :=
  Nat.mod_eq_of_lt (h.trans_lt x.isLt)

/-- R158: the prescaler counts up to `psc`. -/
theorem Channel.iterate_timTick_place (he : c.en = true) (hr : r ≤ c.psc.toNat) :
    Channel.timTick^[r] (c.place q 0) = c.place q r := by
  induction r with
  | zero => rfl
  | succ r ih =>
    have hlt : (c.place q r).pcnt.toNat < c.psc.toNat := by
      rw [show (c.place q r).pcnt.toNat = r from Half.toNat_ofNat_le (Nat.le_of_succ_le hr)]
      exact hr
    rw [Function.iterate_succ_apply', ih (Nat.le_of_succ_le hr), Channel.timTick_of_prescaling (c := c.place q r) he hlt]
    simp only [Channel.place, BitVec.ofNat_add]
    rfl

theorem Channel.psc_le_pcnt_place (c : Channel) (q : Nat) : c.psc.toNat ≤ (c.place q c.psc.toNat).pcnt.toNat :=
  (Half.toNat_ofNat_le (x := c.psc) le_rfl).ge

/-- R158: when the prescaler has run out the counter counts. -/
theorem Channel.timTick_place_psc (he : c.en = true) (hq : q < c.arr.toNat) :
    (c.place q c.psc.toNat).timTick = c.place (q + 1) 0 := by
  have hcnt : (c.place q c.psc.toNat).cnt.toNat < c.arr.toNat := by
    rw [show (c.place q c.psc.toNat).cnt.toNat = q from Half.toNat_ofNat_le hq.le]
    exact hq
  rw [Channel.timTick_of_counting (c := c.place q c.psc.toNat) he (c.psc_le_pcnt_place q) hcnt]
  simp only [Channel.place, BitVec.ofNat_add]
  rfl

/-- R158: when both have run out, the boundary. -/
theorem Channel.timTick_place_arr (he : c.en = true) :
    (c.place c.arr.toNat c.psc.toNat).timTick = { c with cnt := 0, pcnt := 0, ccrAct := c.ccrPre } :=
  Channel.timTick_of_boundary he (c.psc_le_pcnt_place _) (Half.toNat_ofNat_le (x := c.arr) le_rfl).ge

/-- Each count takes `psc + 1` clocks. -/
theorem Channel.iterate_timTick_mul (he : c.en = true) (hq : q ≤ c.arr.toNat) :
    Channel.timTick^[(c.psc.toNat + 1) * q] (c.place 0 0) = c.place q 0 := by
  induction q with
  | zero => rfl
  | succ q ih =>
    rw [Nat.mul_succ, Nat.add_comm, Function.iterate_add_apply, ih (Nat.le_of_succ_le hq), Function.iterate_succ_apply',
      Channel.iterate_timTick_place he le_rfl, Channel.timTick_place_psc he hq]

/-- The place of clock number `(psc + 1) * q + r` in the period. -/
theorem Channel.iterate_timTick (he : c.en = true) (hq : q ≤ c.arr.toNat) (hr : r ≤ c.psc.toNat) :
    Channel.timTick^[(c.psc.toNat + 1) * q + r] (c.place 0 0) = c.place q r := by
  rw [Nat.add_comm, Function.iterate_add_apply, Channel.iterate_timTick_mul he hq, Channel.iterate_timTick_place he hr]

end

/-- Settles O38: clock `k` is the prescaler's `k % (psc + 1)` in the counter's `k / (psc + 1)`; the last of the period
finds both run out. -/
theorem onePeriodIsAllItsClocks : Obligations.OnePeriodIsAllItsClocks := by
  intro c he hcnt hpcnt
  have hstart : c.place 0 0 = c := by
    cases c
    cases hcnt
    cases hpcnt
    rfl
  refine ⟨fun k hk => ?_, ?_⟩
  · have hq : k / (c.psc.toNat + 1) ≤ c.arr.toNat := Nat.le_of_lt_succ (Nat.div_lt_of_lt_mul hk)
    have hr : k % (c.psc.toNat + 1) ≤ c.psc.toNat := Nat.le_of_lt_succ (Nat.mod_lt k (Nat.succ_pos _))
    have hplace := Channel.iterate_timTick he hq hr
    rw [Nat.div_add_mod, hstart] at hplace
    rw [hplace]
    exact ⟨rfl, Half.toNat_ofNat_le hq, Half.toNat_ofNat_le hr⟩
  · have hlast := Channel.iterate_timTick he (q := c.arr.toNat) le_rfl le_rfl
    rw [hstart] at hlast
    rw [Nat.mul_succ, Nat.add_succ, Function.iterate_succ_apply', hlast, Channel.timTick_place_arr he]

end Sys2Proof.Machine
end

section
/-! SUPPORT. Runs of micro-steps and of ticks over a schedule (44_system_ops.md, 41_debounce_delay.md): no micro-step reads
the schedule, so a burst of them is a run over as many `Seq` events; a delay is a run over its ticks. -/

namespace Sys2Proof.Machine

/-! ## No micro-step reads the schedule -/

/-- The outcome with another schedule in its state. -/
def reschedule (es : List Event) (r : Result) : Result := andThen r fun t => .next { t with schedule := es }

section
variable (es : List Event) (s : State)

theorem memWrite_reschedule (i : Nat) (b : Byte) :
    memWrite { s with schedule := es } i b = reschedule es (memWrite s i b) := by
  simp only [memWrite]
  split <;> rfl

theorem recvEnd_reschedule (st : Status) :
    recvEnd st { s with schedule := es } = { recvEnd st s with schedule := es } := by
  simp only [recvEnd]
  split <;> rfl

theorem dbPressedStep_reschedule :
    dbPressedStep { s with schedule := es } = { dbPressedStep s with schedule := es } := by
  by_cases hb : s.btnIn = s.cfg.btnActiveLevel
  · rw [dbPressedStep_of_active hb, dbPressedStep_of_active (s := { s with schedule := es }) hb]
  · rw [dbPressedStep_of_inactive hb, dbPressedStep_of_inactive (s := { s with schedule := es }) hb]

theorem txStep_reschedule : txStep { s with schedule := es } = reschedule es (txStep s) := by
  simp only [txStep]
  repeat' split
  all_goals rfl

theorem drainStep_reschedule : drainStep { s with schedule := es } = reschedule es (drainStep s) := by
  simp only [drainStep]
  split
  · rfl
  · rename_i b rest _
    split
    · exact congrArg _ (recvEnd_reschedule es { s with rxStream := rest } .lineTooLong)
    · rfl

theorem andThen_memWrite_reschedule {k : State → Result} (hk : ∀ t, k { t with schedule := es } = reschedule es (k t))
    (i : Nat) (b : Byte) :
    andThen (memWrite { s with schedule := es } i b) k = reschedule es (andThen (memWrite s i b) k) := by
  rw [memWrite_reschedule]
  cases memWrite s i b with
  | next t => exact hk t
  | fault f => rfl
  | refused r => rfl

theorem rxStepCap_reschedule (b : Byte) : rxStepCap b { s with schedule := es } = reschedule es (rxStepCap b s) := by
  simp only [rxStepCap]
  split
  · exact andThen_memWrite_reschedule es s (fun t => congrArg _ (recvEnd_reschedule es t .ok)) _ _
  · split
    · exact andThen_memWrite_reschedule es s (fun _ => rfl) _ _
    · exact andThen_memWrite_reschedule es (setOverflow s) (fun _ => rfl) _ _

theorem rxStepLegacy_reschedule (b : Byte) :
    rxStepLegacy b { s with schedule := es } = reschedule es (rxStepLegacy b s) := by
  simp only [rxStepLegacy]
  split
  · rfl
  · split
    · exact andThen_memWrite_reschedule es s (fun t => congrArg _ (recvEnd_reschedule es t .ok)) _ _
    · split
      · exact andThen_memWrite_reschedule es s (fun _ => rfl) _ _
      · exact andThen_memWrite_reschedule es s (fun _ => rfl) _ _

theorem rxStep_reschedule : rxStep { s with schedule := es } = reschedule es (rxStep s) := by
  simp only [rxStep]
  split
  · rfl
  · rename_i b rest _
    split
    · exact rxStepCap_reschedule es { s with rxStream := rest } b
    · exact rxStepLegacy_reschedule es { s with rxStream := rest } b

/-- R262: no micro-step reads the schedule. -/
theorem seqEvent_reschedule : seqEvent { s with schedule := es } = reschedule es (seqEvent s) := by
  simp only [seqEvent]
  split
  · rfl
  · split
    · rfl
    · exact txStep_reschedule es s
    · exact rxStep_reschedule es s
    · exact drainStep_reschedule es s
    · exact congrArg _ (dbPressedStep_reschedule es s)
    · rfl
    · rfl

end

/-! ## Bursts over a schedule -/

theorem seqEvent_keeps_opDone {s t : State} (h : seqEvent s = .next t) (hs : s.opDone = true) : t.opDone = true := by
  rcases seqEvent_cases h with rfl | ⟨-, ⟨-, c, -, ⟨-, -, rfl⟩ | ⟨-, -, rfl⟩ | ⟨-, -, rfl⟩⟩ | ⟨-, b, r, -, ⟨-, -, rfl⟩ |
    ⟨-, -, rfl⟩ | ⟨-, -, -, rfl⟩ | ⟨-, -, rfl⟩ | ⟨-, -, -, -, rfl⟩⟩ | ⟨-, b, r, -, ⟨-, rfl⟩ | ⟨-, rfl⟩⟩ | ⟨-, -, rfl⟩⟩
    <;> simp [hs]

theorem seqBurst_keeps_opDone {n : Nat} {s t : State} (h : seqBurst n s = .next t) (hs : s.opDone = true) :
    t.opDone = true :=
  seqBurst_keeps (R := fun s t => s.opDone = true → t.opDone = true) (fun _ => id) (fun _ _ _ h1 h2 => h2 ∘ h1)
    (fun _ _ => seqEvent_keeps_opDone) h hs

theorem seqBurst_add {j : Nat} {s t : State} (h : seqBurst j s = .next t) (k : Nat) :
    seqBurst (j + k) s = seqBurst k t := by
  induction j generalizing s with
  | zero =>
    cases h
    rw [Nat.zero_add]
  | succ j ih =>
    obtain ⟨u, hu, hrest⟩ := andThen_eq_next h
    rw [Nat.add_right_comm, seqBurst, hu, andThen_next, ih hrest]

theorem runs_zero (s : State) : runs 0 s = .next s := rfl

theorem runs_succ {s t : State} (h : step s = .next t) (k : Nat) : runs (k + 1) s = runs k t := run_succ h k

theorem runs_add {s t : State} {j : Nat} (h : runs j s = .next t) (k : Nat) : runs (j + k) s = runs k t := run_add h k

theorem step_seq {s t : State} {es : List Event} (hs : s.opDone = false) (h : seqEvent s = .next t) :
    step { s with schedule := .seq :: es } = .next { t with schedule := es } := by
  have hlow : ({ s with schedule := es, opDone := false } : State) = { s with schedule := es } := by rw [← hs]
  calc step { s with schedule := .seq :: es }
    _ = seqEvent { s with schedule := es, opDone := false } := step_of_schedule (s := { s with schedule := _ }) rfl
    _ = reschedule es (seqEvent s) := by rw [hlow, seqEvent_reschedule]
    _ = .next { t with schedule := es } := by rw [h]; rfl

/-- A burst that completes nothing is a run over as many `Seq` events. -/
theorem runs_seqBurst {n : Nat} {s t : State} {es : List Event} (h : seqBurst n s = .next t) (ht : t.opDone = false) :
    runs n { s with schedule := List.replicate n .seq ++ es } = .next { t with schedule := es } := by
  induction n generalizing s with
  | zero =>
    cases h
    rfl
  | succ n ih =>
    obtain ⟨u, hu, hrest⟩ := andThen_eq_next h
    have hs : s.opDone = false := by
      by_contra hd
      cases ht.symm.trans (seqBurst_keeps_opDone h (by simpa using hd))
    exact (runs_succ (step_seq hs hu) n).trans (ih hrest)

/-- The same with one micro-step more, which may complete. -/
theorem runs_seqBurst_last {n : Nat} {s t u : State} {es : List Event} (h : seqBurst n s = .next t)
    (ht : t.opDone = false) (hu : seqEvent t = .next u) :
    runs (n + 1) { s with schedule := List.replicate (n + 1) .seq ++ es } = .next { u with schedule := es } := by
  rw [List.replicate_succ', List.append_assoc]
  exact (runs_add (runs_seqBurst h ht) 1).trans (runs_succ (step_seq ht hu) 0)

theorem takeEvent_low (s : State) : takeEvent { s with opDone := false } = takeEvent s := rfl

/-- Every step lowers `op_done` first. -/
theorem step_low (s : State) : step { s with opDone := false } = step s :=
  congrArg (applyEvent (nextEvent s)) (takeEvent_low s)

theorem runs_succ_low (n : Nat) (s : State) : runs (n + 1) { s with opDone := false } = runs (n + 1) s := by
  have h : Sys2Proof.core.step { s with opDone := false } = Sys2Proof.core.step s := step_low s
  simp only [runs, Host.Core.run, h]
  rfl

/-! ## Ticks of a delay, R192 -/

section
variable {s : State} {es : List Event}

theorem step_tick1ms {t : State} (hs : s.opDone = false)
    (h : tick1ms { s with schedule := es } = .next t) : step { s with schedule := .tick1ms :: es } = .next t := by
  have hlow : ({ s with schedule := es, opDone := false } : State) = { s with schedule := es } := by rw [← hs]
  calc step { s with schedule := .tick1ms :: es }
    _ = tick1ms { s with schedule := es, opDone := false } := step_of_schedule (s := { s with schedule := _ }) rfl
    _ = .next t := by rw [hlow, h]

theorem toNat_sub_one {x : Arg} (h : x ≠ 0) : (x - 1).toNat = x.toNat - 1 := by
  bv_omega

/-- A smaller number of ticks than the count leaves the wait running. -/
theorem runs_ticks {k : Nat} (hs : s.seq = .dly ∨ s.seq = .dbReleased) (hd : s.opDone = false) (hk : k < s.dlyCnt.toNat) :
    runs k { s with schedule := List.replicate k .tick1ms ++ es } =
      .next { s with dlyCnt := s.dlyCnt - BitVec.ofNat 32 k, schedule := es } := by
  induction k generalizing s with
  | zero => rw [BitVec.sub_zero, runs_zero, List.replicate_zero, List.nil_append]
  | succ k ih =>
    have hne : s.dlyCnt ≠ 0 := by rintro h; simp [h] at hk
    have hrun : s.dlyCnt - 1 ≠ 0 := by
      intro h
      have := toNat_sub_one hne
      rw [h, show (0 : Arg).toNat = 0 from rfl] at this
      omega
    have htick := tick1ms_of_running (s := { s with schedule := List.replicate k .tick1ms ++ es }) hs hrun
    rw [List.replicate_succ, List.cons_append, runs_succ (step_tick1ms hd htick)]
    refine (ih (s := { s with dlyCnt := s.dlyCnt - 1 }) hs hd (by rw [toNat_sub_one hne]; omega)).trans ?_
    rw [Nat.add_comm k 1, BitVec.ofNat_add]
    simp only [sub_sub]
    rfl

/-- R190, R192: the tick that is as many as the count completes the wait. -/
theorem runs_ticks_all (hs : s.seq = .dly ∨ s.seq = .dbReleased) (hd : s.opDone = false) (hn : s.dlyCnt ≠ 0) :
    runs s.dlyCnt.toNat { s with schedule := List.replicate s.dlyCnt.toNat .tick1ms ++ es } =
      .next (completed .ok (if s.seq = .dly then 0 else 1) { s with dlyCnt := 0, schedule := es }) := by
  obtain ⟨k, hk⟩ : ∃ k, s.dlyCnt.toNat = k + 1 :=
    Nat.exists_eq_succ_of_ne_zero fun h => hn (BitVec.eq_of_toNat_eq h)
  rw [hk, List.replicate_succ', List.append_assoc]
  have hlast : s.dlyCnt - BitVec.ofNat 32 k - 1 = 0 := by bv_omega
  have htick := (tick1ms_of_waiting (s := { s with dlyCnt := s.dlyCnt - BitVec.ofNat 32 k, schedule := es }) hs).trans
    (congrArg _ (delayTick_of_last hlast))
  exact (runs_add (runs_ticks hs hd (by omega)) 1).trans
    (runs_succ (step_tick1ms (s := { s with dlyCnt := s.dlyCnt - BitVec.ofNat 32 k }) hd htick) 0)

end

/-! ## A delay from its word to its last tick, R190 -/

theorem step_host {s : State} {w : OpWord} {es : List Event} {i : Instr} (hsched : s.schedule = .host w :: es)
    (hs : s.seq = .idle) (hf : s.fault = false) (hi : decodeOp w = .ok i) :
    step s = exec i { s with schedule := es, opDone := false } := by
  obtain ⟨hword, -⟩ := stepRunsDecodedInstruction
  exact hword s w es i hsched hs hf hi

theorem decodeOp_dlyMs (n : Arg) : decodeOp (0x50#8 ++ n) = .ok (.dlyMs n) := decodeOp_opWordOf codeDlyMs n

/-- The state of a delay of `n` right after its word. -/
def inDelay (n : Arg) (s : State) : State := { s with dlyCnt := n, curOp := codeDlyMs, seq := .dly, opDone := false }

theorem step_dlyMs {s : State} {n : Arg} {es : List Event} (hs : s.seq = .idle) (hf : s.fault = false) (hn : n ≠ 0)
    (hsched : s.schedule = .host (0x50#8 ++ n) :: es) : step s = .next { inDelay n s with schedule := es } := by
  rw [step_host hsched hs hf (decodeOp_dlyMs n), exec_dlyMs, execDlyMs_of_ne_zero hn]
  rfl

/-- Settles O20: the word loads the count, fewer ticks than the count leave it running, and the last one completes. -/
theorem delayCompletesAtTheLastTick : Obligations.DelayCompletesAtTheLastTick := by
  intro s n rest hs hf hn hsched
  have hstart (k : Nat) : runs (k + 1) s =
      runs k { inDelay n s with schedule := List.replicate n.toNat .tick1ms ++ rest } :=
    runs_succ (step_dlyMs hs hf hn hsched) k
  refine ⟨fun k hk => ?_, ?_⟩
  · have hsplit : List.replicate n.toNat Event.tick1ms ++ rest =
        List.replicate k .tick1ms ++ (List.replicate (n.toNat - k) .tick1ms ++ rest) := by
      rw [← List.append_assoc, List.replicate_append_replicate, Nat.add_sub_of_le hk.le]
    have hcount : (n - BitVec.ofNat 32 k).toNat = n.toNat - k := by bv_omega
    rw [hstart, hsplit]
    exact ⟨_, runs_ticks (s := inDelay n s) (.inl rfl) rfl hk, rfl, hcount, rfl⟩
  · rw [hstart]
    exact runs_ticks_all (s := inDelay n s) (.inl rfl) rfl hn

/-! ## A bounce of the press edge, R187 -/

theorem decodeOp_btnPoll : decodeOp 0x3000000000#40 = .ok .btnPoll := by decide

theorem step_btnPoll {s : State} {es : List Event} (hs : s.seq = .idle) (hf : s.fault = false)
    (hb : s.btnIn = s.cfg.btnActiveLevel) (hsched : s.schedule = .host 0x3000000000#40 :: es) : step s = .next
      { s with curOp := codeBtnPoll, seq := .dbPressed, schedule := es, opDone := false } := by
  rw [step_host hsched hs hf decodeOp_btnPoll, exec_btnPoll,
    execBtnPoll_of_active (s := { s with schedule := es, opDone := false }) hb]

theorem step_btn {s : State} {v : Bool} {es : List Event} (hsched : s.schedule = .btn v :: es) :
    step s = .next { s with schedule := es, opDone := false, btnIn := v } :=
  step_of_schedule hsched

/-- The state of a poll whose wait for the release is over: the settle delay runs. -/
def settling (es : List Event) (s : State) : State :=
  { s with
    curOp := codeBtnPoll
    seq := .dbReleased
    dlyCnt := s.cfg.settleMs
    btnIn := !s.cfg.btnActiveLevel
    schedule := es
    opDone := false }

/-- R180: a poll that finds the button active, an inactive line and a `Seq` that samples it. -/
theorem runs_poll {s : State} {es : List Event} (hs : s.seq = .idle) (hf : s.fault = false)
    (hb : s.btnIn = s.cfg.btnActiveLevel)
    (hsched : s.schedule = .host 0x3000000000#40 :: .btn (!s.cfg.btnActiveLevel) :: .seq :: es) :
    runs 3 s = .next (settling es s) := by
  have hseq : step { s with
      curOp := codeBtnPoll, seq := .dbPressed, btnIn := !s.cfg.btnActiveLevel, schedule := .seq :: es,
      opDone := false } = .next (settling es s) :=
    step_seq (s := { s with
      curOp := codeBtnPoll, seq := .dbPressed, btnIn := !s.cfg.btnActiveLevel, opDone := false }) rfl
      (seqEvent_of_dbPressed_inactive rfl hf (by simp))
  exact (runs_succ (step_btnPoll hs hf hb hsched) 2).trans ((runs_succ (step_btn rfl) 1).trans
    ((runs_succ hseq 0).trans (runs_zero _)))

/-- The state after the settle ticks, the line at `v`. -/
def settled (v : Bool) (es : List Event) (s : State) : State :=
  completed .ok 1 { settling es s with btnIn := v, dlyCnt := 0 }

/-- R192: the settle ticks report a press event, whatever the line does meanwhile. -/
theorem runs_settle {s : State} {es : List Event} (h : s.cfg.settleMs ≠ 0) (v : Bool) :
    runs s.cfg.settleMs.toNat
        { settling (List.replicate s.cfg.settleMs.toNat .tick1ms ++ es) s with btnIn := v } =
      .next (settled v es s) :=
  runs_ticks_all (s := { settling es s with btnIn := v }) (.inr rfl) rfl h

/-- Settles O57: the bounce is a poll's session whose line is active again before the settle ticks; the next poll finds it
so and its session ends with the release. -/
theorem pressEdgeChatterStartsASecondSession : Obligations.PressEdgeChatterStartsASecondSession := by
  intro s rest hi hs hf hb settle bounce release
  have hsettle : s.cfg.settleMs ≠ 0 := by
    obtain ⟨-, -, h, -⟩ := hi.params
    exact h
  have hbounce : bounce.length = 3 + (1 + s.cfg.settleMs.toNat) := by
    simp only [bounce, settle, List.length_append, List.length_replicate]
    simp +arith
  have hrelease : release.length = 3 + s.cfg.settleMs.toNat := by
    simp only [release, settle, List.length_append, List.length_replicate]
    simp
  have hrun : runs bounce.length { s with schedule := bounce ++ (release ++ rest) } =
      .next (settled s.cfg.btnActiveLevel (release ++ rest) s) := by
    rw [hbounce]
    refine (runs_add (runs_poll (s := { s with schedule := bounce ++ (release ++ rest) }) hs hf hb rfl) _).trans ?_
    rw [Nat.add_comm]
    refine (runs_succ (step_btn rfl) _).trans ?_
    exact runs_settle (s := { s with schedule := bounce ++ (release ++ rest) }) hsettle s.cfg.btnActiveLevel
  refine ⟨_, hrun, rfl, rfl, rfl, rfl, rfl, ⟨_, step_btnPoll rfl hf rfl rfl, rfl, rfl⟩, ?_⟩
  rw [hrelease]
  exact ⟨_, (runs_add (runs_poll (s := settled _ _ s) rfl hf rfl rfl) _).trans
    (runs_settle (s := settled _ _ s) hsettle (!s.cfg.btnActiveLevel)), rfl, rfl, rfl, rfl, rfl⟩

end Sys2Proof.Machine
end

section
/-! SUPPORT. Whole sends, receives and presses (42_serial.md, 43_controller.md section 1): the burst that stores a payload,
the one that discards it, and the runs and lines made of them. -/

namespace Sys2Proof.Machine

/-! ## A payload in the buffer -/

/-- The bytes `p` in the cells from `i` on. -/
def Memory.store : Memory → Nat → List Byte → Memory
  | m, _, [] => m
  | m, i, b :: p => Memory.store (m.write i b) (i + 1) p

theorem Memory.wf_store {m : Memory} (hm : m.wf) (i : Nat) (p : List Byte) : (m.store i p).wf := by
  induction p generalizing m i with
  | nil => exact hm
  | cons b p ih => exact ih (Memory.wf_write hm i b) (i + 1)

theorem Memory.read_store {m : Memory} (hm : m.wf) (i : Nat) (p : List Byte) (j : Nat) :
    (m.store i p).read j = if i ≤ j ∧ j < i + p.length then p.getD (j - i) 0x00 else m.read j := by
  induction p generalizing m i with
  | nil =>
    rw [if_neg (by simp)]
    rfl
  | cons b p ih =>
    rw [Memory.store, ih (Memory.wf_write hm i b), Memory.read_write hm]
    rcases lt_trichotomy j i with hj | rfl | hj
    · rw [if_neg (by omega), if_neg (by omega), if_neg (by omega)]
    · rw [if_neg (by omega), if_pos rfl, if_pos ⟨le_rfl, by simp⟩, Nat.sub_self, List.getD_cons_zero]
    · have hsub : j - i = j - (i + 1) + 1 := by omega
      rw [if_neg (by omega : ¬ j = i), hsub, List.getD_cons_succ, List.length_cons]
      exact if_congr (by omega) rfl rfl

/-- What a receive leaves of a line whose first `p.length` bytes it stores: those bytes, and 0x00 behind them. -/
def Memory.line (m : Memory) (p : List Byte) : Memory := (m.store 0 p).write p.length 0x00

theorem Memory.read_line {m : Memory} (hm : m.wf) (h0 : ∀ i, m.read i = 0x00) (p : List Byte) (i : Nat) :
    (m.line p).read i = if i < p.length then p.getD i 0x00 else 0x00 := by
  rw [Memory.line, Memory.read_write (Memory.wf_store hm 0 p), Memory.read_store hm]
  by_cases hi : i < p.length
  · rw [if_neg hi.ne, if_pos (by omega), if_pos hi, Nat.sub_zero]
  · rw [if_neg (by omega : ¬ (0 ≤ i ∧ i < 0 + p.length)), if_neg hi, h0, ite_self]

/-- R74: the string of a buffer that holds a line is the line's. -/
theorem response_of_line {s : State} {p : List Byte} (hp : p.length < s.cfg.rxCap)
    (h : ∀ i, memRead s i = if i < p.length then p.getD i 0x00 else 0x00) : response s = strOf p := by
  have hcells : rxCells s = p ++ List.replicate (s.cfg.rxCap - p.length) 0x00 := by
    refine List.ext_getElem (by simp [rxCells]; omega) fun i h1 h2 => ?_
    simp only [rxCells, List.getElem_map, List.getElem_range, h, List.getElem_append]
    split
    · rw [List.getD_eq_getElem _ _ ‹_›]
    · rw [List.getElem_replicate]
  have hnil : strOf (List.replicate (s.cfg.rxCap - p.length) 0x00#8) = [] := by
    rw [strOf, List.takeWhile_replicate]
    rfl
  rw [response, hcells, strOf, List.takeWhile_append]
  split
  · rename_i hall
    rw [show List.takeWhile _ (List.replicate _ (0x00 : Byte)) = [] from hnil, List.append_nil]
    exact ((List.takeWhile_prefix _).eq_of_length hall).symm
  · rfl

/-- R74: what a receive stored from the start is its payload's string. -/
theorem response_of_stored {s : State} {p : List Byte} (hbuf : s.rxBuf = []) (hfit : p.length < s.cfg.rxCap) :
    response { s with rxStream := [], rxIdx := p.length, rxBuf := s.rxBuf.line p } = strOf p := by
  refine response_of_line hfit fun i => ?_
  exact (congrArg (fun m => (Memory.line m p).read i) hbuf).trans (Memory.read_line Memory.wf_nil Memory.read_nil p i)

/-! ## Micro-steps of a receive that has room, under either policy -/

section
variable {s : State} {b : Byte} {p rest : List Byte}

/-- A receive that goes on without fault and has not flagged its line. -/
structure Receiving (s : State) : Prop where
  seq : s.seq = .rx
  fault : s.fault = false
  ovf : s.rxOvf = false

theorem seqEvent_of_terminator (hs : Receiving s) (hi : s.rxIdx < s.cfg.rxCap) (hr : s.rxStream = b :: rest)
    (hb : isTerminator b = true) :
    seqEvent s = .next (recvEnd .ok { s with rxStream := rest, rxBuf := s.rxBuf.write s.rxIdx 0x00 }) := by
  rw [seqEvent_of_rx hs.seq hs.fault]
  cases hp : s.cfg.overflowPolicy with
  | capAndFlag => rw [rxStep_of_capAndFlag hp hr, rxStepCap_of_terminator (s := { s with rxStream := rest }) hi hb]
  | legacyFault =>
    rw [rxStep_of_legacyFault hp hr, rxStepLegacy_of_terminator (s := { s with rxStream := rest }) hs.ovf hi hb]

theorem seqEvent_of_room (hs : Receiving s) (hi : s.rxIdx < s.cfg.rxCap - 1) (hr : s.rxStream = b :: rest)
    (hb : ¬ isTerminator b = true) : seqEvent s =
      .next { s with rxStream := rest, rxBuf := s.rxBuf.write s.rxIdx b, rxIdx := s.rxIdx + 1 } := by
  have hcap : s.rxIdx < s.cfg.rxCap := Nat.lt_of_lt_pred hi
  rw [seqEvent_of_rx hs.seq hs.fault]
  cases hp : s.cfg.overflowPolicy with
  | capAndFlag => rw [rxStep_of_capAndFlag hp hr, rxStepCap_of_room (s := { s with rxStream := rest }) hcap hb hi]
  | legacyFault =>
    rw [rxStep_of_legacyFault hp hr, rxStepLegacy_of_room (s := { s with rxStream := rest }) hs.ovf hcap hb hi]

/-- R218: one micro-step a byte, while there is room. -/
theorem seqBurst_of_room (hs : Receiving s) (hroom : s.rxIdx + p.length ≤ s.cfg.rxCap - 1) (hr : s.rxStream = p ++ rest)
    (hp : ∀ b ∈ p, ¬ isTerminator b = true) : seqBurst p.length s =
      .next { s with rxStream := rest, rxBuf := s.rxBuf.store s.rxIdx p, rxIdx := s.rxIdx + p.length } := by
  induction p generalizing s with
  | nil =>
    rw [List.nil_append] at hr
    rw [← hr]
    rfl
  | cons b p ih =>
    rw [List.length_cons] at hroom
    rw [List.cons_append] at hr
    have hstep := seqEvent_of_room hs (by omega) hr (hp b List.mem_cons_self)
    have hrest := ih (s := { s with
        rxStream := p ++ rest, rxBuf := s.rxBuf.write s.rxIdx b, rxIdx := s.rxIdx + 1 })
      ⟨hs.seq, hs.fault, hs.ovf⟩ (by simp only; omega) rfl fun c hc => hp c (List.mem_cons_of_mem b hc)
    rw [List.length_cons, seqBurst, hstep, andThen_next, hrest]
    simp only [Memory.store, Nat.add_assoc, Nat.add_comm 1]

theorem seqEvent_of_overflow (hs : Receiving s) (hpol : s.cfg.overflowPolicy = .capAndFlag) (hcap : 0 < s.cfg.rxCap)
    (hi : s.rxIdx = s.cfg.rxCap - 1) (hr : s.rxStream = b :: rest) (hb : ¬ isTerminator b = true) : seqEvent s = .next
      { s with rxStream := rest, rxBuf := s.rxBuf.write s.rxIdx 0x00, rxOvf := true, seq := .rxDrain } := by
  rw [seqEvent_of_rx hs.seq hs.fault, rxStep_of_capAndFlag hpol hr]
  exact rxStepCap_of_last (s := { s with rxStream := rest }) (by simp only; omega) hb hi

theorem seqEvent_of_drainEnd (hs : s.seq = .rxDrain) (hf : s.fault = false) (hr : s.rxStream = b :: rest)
    (hb : isTerminator b = true) : seqEvent s = .next (recvEnd .lineTooLong { s with rxStream := rest }) := by
  rw [seqEvent_of_rxDrain hs hf, drainStep_of_terminator hr hb]

/-- R222: one micro-step a byte, none of which is kept. -/
theorem seqBurst_of_drain (hs : s.seq = .rxDrain) (hf : s.fault = false) (hr : s.rxStream = p ++ rest)
    (hp : ∀ b ∈ p, ¬ isTerminator b = true) : seqBurst p.length s = .next { s with rxStream := rest } := by
  induction p generalizing s with
  | nil =>
    rw [List.nil_append] at hr
    rw [← hr]
    rfl
  | cons b p ih =>
    have hrest := ih (s := { s with rxStream := p ++ rest }) hs hf rfl fun c hc => hp c (List.mem_cons_of_mem b hc)
    rw [List.length_cons, seqBurst, seqEvent_of_rxDrain hs hf, drainStep_of_payload hr (hp b List.mem_cons_self),
      andThen_next]
    exact hrest

end

/-! ## A whole receive, R234 -/

theorem recvEnd_of_seq (st : Status) (q : SeqState) (s : State) : recvEnd st { s with seq := q } = recvEnd st s := by
  simp only [recvEnd]
  split <;> rfl

theorem recvEnd_of_opDone (st : Status) (d : Bool) (s : State) : recvEnd st { s with opDone := d } = recvEnd st s := by
  simp only [recvEnd]
  split <;> rfl

section
variable {s : State} {t : Byte} {p rest : List Byte}

/-- R218: a line that fits is stored, one micro-step a byte, and its terminator ends the receive. -/
theorem receive_of_fits (hs : Receiving s) (h0 : s.rxIdx = 0) (hfit : p.length < s.cfg.rxCap)
    (hr : s.rxStream = p ++ t :: rest) (hp : ∀ b ∈ p, ¬ isTerminator b = true) (ht : isTerminator t = true) :
    ∃ v, seqBurst p.length s = .next v ∧ v.opDone = s.opDone ∧ receiving v = true ∧ seqEvent v =
      .next (recvEnd .ok { s with rxStream := rest, rxIdx := p.length, rxBuf := s.rxBuf.line p }) := by
  have hstore := seqBurst_of_room (rest := t :: rest) hs (by omega) hr hp
  rw [h0, Nat.zero_add] at hstore
  refine ⟨_, hstore, rfl, receiving_iff.mpr (.inl hs.seq), ?_⟩
  exact seqEvent_of_terminator (s := { s with
    rxStream := t :: rest, rxBuf := s.rxBuf.store 0 p, rxIdx := p.length }) ⟨hs.seq, hs.fault, hs.ovf⟩ hfit rfl ht

/-- R220, R222: of a line that does not fit the first `RX_CAP - 1` bytes are stored and the rest is discarded, up to its
terminator. -/
theorem receive_of_tooLong (hs : Receiving s) (h0 : s.rxIdx = 0) (hpol : s.cfg.overflowPolicy = .capAndFlag)
    (hcap : 0 < s.cfg.rxCap) (hlong : s.cfg.rxCap ≤ p.length) (hr : s.rxStream = p ++ t :: rest)
    (hp : ∀ b ∈ p, ¬ isTerminator b = true) (ht : isTerminator t = true) :
    ∃ v, seqBurst p.length s = .next v ∧ v.opDone = s.opDone ∧ seqEvent v =
      .next (recvEnd .lineTooLong { s with
        rxStream := rest, rxIdx := s.cfg.rxCap - 1, rxOvf := true, rxBuf := s.rxBuf.line (p.take (s.cfg.rxCap - 1)) }) := by
  obtain ⟨p1, b, p2, rfl, hlen⟩ : ∃ p1 b p2, p = p1 ++ b :: p2 ∧ p1.length = s.cfg.rxCap - 1 :=
    ⟨_, _, _, (List.take_append_drop (s.cfg.rxCap - 1) p).symm.trans
      (congrArg _ (List.drop_eq_getElem_cons (by omega))), by rw [List.length_take]; omega⟩
  have hp1 : ∀ c ∈ p1, ¬ isTerminator c = true := fun c hc => hp c (by simp [hc])
  have hp2 : ∀ c ∈ p2, ¬ isTerminator c = true := fun c hc => hp c (by simp [hc])
  rw [List.append_assoc, List.cons_append] at hr
  have hstore := seqBurst_of_room hs (by omega) hr hp1
  rw [h0, Nat.zero_add] at hstore
  have hover : seqEvent { s with
      rxStream := b :: (p2 ++ t :: rest), rxBuf := s.rxBuf.store 0 p1, rxIdx := p1.length } =
      .next { s with
        rxStream := p2 ++ t :: rest, rxOvf := true, rxBuf := s.rxBuf.line p1, rxIdx := p1.length, seq := .rxDrain } := by
    exact seqEvent_of_overflow (s := { s with
      rxStream := b :: (p2 ++ t :: rest), rxBuf := s.rxBuf.store 0 p1, rxIdx := p1.length })
      ⟨hs.seq, hs.fault, hs.ovf⟩ hpol hcap hlen rfl (hp b (by simp))
  have hdrain := seqBurst_of_drain (s := { s with
      rxStream := p2 ++ t :: rest, rxOvf := true, rxBuf := s.rxBuf.line p1, rxIdx := p1.length, seq := .rxDrain })
    rfl hs.fault rfl hp2
  refine ⟨{ s with rxStream := t :: rest, rxOvf := true, rxBuf := s.rxBuf.line p1, rxIdx := p1.length, seq := .rxDrain },
    ?_, rfl, ?_⟩
  · rw [List.length_append, List.length_cons, seqBurst_add hstore, seqBurst, hover, andThen_next]
    exact hdrain
  · have htake : (p1 ++ b :: p2).take (s.cfg.rxCap - 1) = p1 := by rw [← hlen, List.take_left]
    rw [htake, ← hlen]
    refine (seqEvent_of_drainEnd (s := { s with
      rxStream := t :: rest, rxOvf := true, rxBuf := s.rxBuf.line p1, rxIdx := p1.length, seq := .rxDrain })
      rfl hs.fault rfl ht).trans ?_
    exact congrArg _ (recvEnd_of_seq .lineTooLong .rxDrain { s with
      rxStream := rest, rxOvf := true, rxBuf := s.rxBuf.line p1, rxIdx := p1.length })

/-- A receive's burst and its last micro-step as a run. -/
theorem runs_receive {n : Nat} {v w : State} {st : Status} {es : List Event}
    (hsched : s.schedule = List.replicate (n + 1) .seq ++ es) (h : seqBurst n { s with opDone := false } = .next v)
    (hv : v.opDone = false) (hw : seqEvent v = .next (recvEnd st { w with opDone := false })) :
    runs (n + 1) s = .next (recvEnd st { w with schedule := es }) := by
  rw [recvEnd_of_opDone] at hw
  have hrun := runs_seqBurst_last (es := es) h hv hw
  rw [← hsched, ← recvEnd_reschedule] at hrun
  exact (runs_succ_low n s).symm.trans hrun

end

/-- Settles O34: the payload fits and is stored, or its first `RX_CAP - 1` bytes are; either way the terminator ends the
receive, and the buffer reads as the stored bytes. -/
theorem receiveTakesExactlyOneLine : Obligations.ReceiveTakesExactlyOneLine := by
  intro s p t rest events hs hf hpol hcap h0 ho hwf hzero hpay ht hr hsched
  have hp : ∀ b ∈ p, ¬ isTerminator b = true := fun b hb => not_isTerminator (hpay b hb).1 (hpay b hb).2
  have hterm := isTerminator_iff.mpr ht
  refine ⟨s.rxBuf.line (p.take (s.cfg.rxCap - 1)), ?_, fun i => ?_⟩
  · have hs' : Receiving { s with opDone := false } := ⟨hs, hf, ho⟩
    by_cases hfit : p.length < s.cfg.rxCap
    · obtain ⟨v, hburst, hv, -, hlast⟩ := receive_of_fits hs' h0 hfit hr hp hterm
      rw [runs_receive (w := { s with rxStream := rest, rxIdx := p.length, rxBuf := s.rxBuf.line p })
        hsched hburst hv hlast, if_pos (by omega), List.take_of_length_le (by omega), Nat.min_eq_left (by omega),
        decide_eq_false (by omega), ← ho]
    · have hlong : s.cfg.rxCap ≤ p.length := Nat.le_of_not_lt hfit
      obtain ⟨v, hburst, hv, hlast⟩ := receive_of_tooLong hs' h0 hpol (by simp only; omega) hlong hr hp hterm
      rw [runs_receive (w := { s with
            rxStream := rest, rxIdx := s.cfg.rxCap - 1, rxOvf := true, rxBuf := s.rxBuf.line (p.take (s.cfg.rxCap - 1)) })
        hsched hburst hv hlast, if_neg (by omega), Nat.min_eq_right (by omega), decide_eq_true (by omega)]
  · rw [Memory.read_line hwf hzero, List.length_take, Nat.min_comm]
    refine if_ctx_congr Iff.rfl (fun hi => ?_) fun _ => rfl
    rw [List.getD_eq_getElem?_getD, List.getD_eq_getElem?_getD, List.getElem?_take_of_lt (by omega)]

end Sys2Proof.Machine
end

section
/-! SUPPORT. Whole sends and presses (42_serial.md section 1, 43_controller.md section 1) as runs: the word, the micro-steps
of the send, the peer's answer and the micro-steps of the receive. -/

namespace Sys2Proof.Machine

/-! ## A whole command, R212 -/

theorem cmdByte_end (sel : Bool) : cmdByte sel (BitVec.ofNat 4 (cmdLength sel)).toNat = some 0x00#8 := by
  cases sel <;> decide

/-- The whole command has gone out. -/
def commandOut (s : State) : State :=
  { s with txStream := s.txStream ++ strOf (cmdRom s.txSel), txPtr := BitVec.ofNat 4 (cmdLength s.txSel) }

theorem seqBurst_of_command {s : State} (hs : Sending s) (h0 : s.txPtr = 0) :
    seqBurst (cmdLength s.txSel) s = .next (commandOut s) := by
  have hptr : s.txPtr.toNat = 0 := by rw [h0]; rfl
  have hrest := sent_rest (s := s) (by omega)
  rw [hptr, Nat.sub_zero, List.drop_zero] at hrest
  rw [seqBurst_of_sending hs (by omega), hrest, commandOut]

/-- The operand of a `SER.SEND` of either select, R210. -/
theorem decodeOp_serSend (sel : Bool) :
    decodeOp (0x20#8 ++ (if sel then 1#32 else 0#32)) = .ok (.serSend (if sel then 1#32 else 0#32)) := by
  cases sel <;> decide

theorem execSerSend_sel (sel : Bool) (s : State) : execSerSend (if sel then 1#32 else 0#32) s =
    .next { s with txSel := sel, txPtr := 0, curOp := codeSerSend, seq := .tx } := by
  cases sel <;> exact execSerSend_of_select (by decide) s

/-- The state of a `SER.SEND` right after its word. -/
def inSend (sel : Bool) (s : State) : State :=
  { s with txSel := sel, txPtr := 0, curOp := codeSerSend, seq := .tx, opDone := false }

theorem step_serSend {s : State} {sel : Bool} {es : List Event} (hs : s.seq = .idle) (hf : s.fault = false)
    (hsched : s.schedule = .host (0x20#8 ++ (if sel then 1#32 else 0#32)) :: es) :
    step s = .next { inSend sel s with schedule := es } := by
  rw [step_host hsched hs hf (decodeOp_serSend sel), exec_serSend, execSerSend_sel]
  rfl

/-- Settles O33: the word, a micro-step a byte, and the micro-step at the 0x00 that completes. -/
theorem sendTransmitsTheWholeCommand : Obligations.SendTransmitsTheWholeCommand := by
  intro s sel rest hs hf hr hsched
  have hbytes : seqBurst (cmdLength sel) (inSend sel s) = .next (commandOut (inSend sel s)) :=
    seqBurst_of_command (s := inSend sel s) ⟨rfl, hf, hr⟩ rfl
  have hend := (seqEvent_of_tx (s := commandOut (inSend sel s)) rfl hf).trans
    (txStep_of_end_serSend (cmdByte_end sel) rfl)
  have hlen : (if sel then 10 else 11) = cmdLength sel + 1 := by cases sel <;> rfl
  have hall : (if sel then 11 else 12) = cmdLength sel + 1 + 1 := by cases sel <;> rfl
  rw [hlen] at hsched
  rw [hall, runs_succ (step_serSend hs hf hsched)]
  refine (runs_seqBurst_last (s := inSend sel s) (es := rest) hbytes rfl hend).trans ?_
  rw [← strOf_cmdRom]
  cases sel <;> rfl

/-! ## Bytes from the peer, R76 -/

theorem step_peerByte {s : State} {b : Byte} {es : List Event} (hsched : s.schedule = .peerByte b :: es) :
    step s = .next { s with schedule := es, opDone := false, rxStream := s.rxStream ++ [b] } :=
  step_of_schedule hsched

theorem runs_peerBytes {s : State} {bytes : List Byte} {es : List Event} (hd : s.opDone = false) :
    runs bytes.length { s with schedule := bytes.map .peerByte ++ es } =
      .next { peerBytes bytes s with schedule := es } := by
  induction bytes generalizing s with
  | nil => simp [peerBytes, runs_zero]
  | cons b bytes ih =>
    refine (runs_succ (step_peerByte rfl) _).trans
      ((ih (s := { s with opDone := false, rxStream := s.rxStream ++ [b] }) rfl).trans ?_)
    simp [peerBytes, hd]

/-! ## A press and its answer, R252 to R256 -/

/-- R252: a press sends the request for the LED's opposite. -/
theorem request_eq (led : Bool) : strOf (cmdRom (!led)) = if led then requestOffLine else requestOnLine := by
  rw [strOf_cmdRom]
  cases led <;> rfl

/-- R252: a press expects the confirmation of the LED's opposite. -/
theorem confirmation_eq (led : Bool) :
    strOf (confRom (!led)) = if led then confirmOffPayload else confirmOnPayload := by
  cases led <;> decide

theorem decodeOp_ctlPress : decodeOp 0x4000000000#40 = .ok .ctlPress := by decide

/-- The state of a press right after its word. -/
def inPress (s : State) : State :=
  { s with txSel := !s.led, expSel := !s.led, txPtr := 0, curOp := codeCtlPress, seq := .tx, opDone := false }

/-- The state of a press whose command has gone out, at the start of its receive. -/
def awaiting (s : State) : State := recvStart (commandOut (inPress s))

/-- The events of a press answered by the line of payload `p` and terminator `t`. -/
def pressEvents (led : Bool) (p : List Byte) (t : Byte) : List Event :=
  .host 0x4000000000#40 :: List.replicate (cmdLength (!led) + 1) .seq ++ (p ++ [t]).map .peerByte ++
    List.replicate (p.length + 1) .seq

theorem step_ctlPress {s : State} {es : List Event} (hs : s.seq = .idle) (hf : s.fault = false)
    (hsched : s.schedule = .host 0x4000000000#40 :: es) : step s = .next { inPress s with schedule := es } := by
  rw [step_host hsched hs hf decodeOp_ctlPress, exec_ctlPress]
  rfl

theorem seqBurst_of_press {s : State} (hf : s.fault = false) (hr : s.txReady = true) :
    seqBurst (cmdLength (!s.led) + 1) (inPress s) = .next (awaiting s) := by
  have hbytes : seqBurst (cmdLength (!s.led)) (inPress s) = .next (commandOut (inPress s)) :=
    seqBurst_of_command (s := inPress s) ⟨rfl, hf, hr⟩ rfl
  have hend := (seqEvent_of_tx (s := commandOut (inPress s)) rfl hf).trans
    (txStep_of_end_ctlPress (cmdByte_end (!s.led)) rfl)
  rw [seqBurst_add hbytes, seqBurst, hend]
  rfl

section
variable {s : State} {p : List Byte} {t : Byte} {rest : List Event}

/-- A press answered by the line of payload `p`, before its receive ends. -/
def answered (p : List Byte) (s : State) : State :=
  { awaiting s with rxStream := [], rxIdx := p.length, rxBuf := (awaiting s).rxBuf.line p }

theorem runs_press (hs : s.seq = .idle) (hf : s.fault = false) (hr : s.txReady = true) (hrx : s.rxStream = [])
    (hfit : p.length < s.cfg.rxCap) (hp : ∀ b ∈ p, ¬ isTerminator b = true) (ht : isTerminator t = true) :
    runs (pressEvents s.led p t).length { s with schedule := pressEvents s.led p t ++ rest } =
      .next (recvEnd .ok { answered p s with schedule := rest }) := by
  have hlen : (pressEvents s.led p t).length = cmdLength (!s.led) + 1 + ((p ++ [t]).length + (p.length + 1)) + 1 := by
    simp only [pressEvents, List.length_append, List.length_cons, List.length_replicate, List.length_map]
    omega
  have hsplit : pressEvents s.led p t ++ rest = .host 0x4000000000#40 :: (List.replicate (cmdLength (!s.led) + 1) .seq ++
      ((p ++ [t]).map .peerByte ++ (List.replicate (p.length + 1) .seq ++ rest))) := by
    simp only [pressEvents, List.append_assoc, List.cons_append]
  have hline : (peerBytes (p ++ [t]) (awaiting s)).rxStream = p ++ t :: [] := by
    rw [peerBytes, show (awaiting s).rxStream = [] from hrx, List.nil_append]
  obtain ⟨v, hburst, hv, -, hlast⟩ := receive_of_fits
    (s := { peerBytes (p ++ [t]) (awaiting s) with schedule := List.replicate (p.length + 1) .seq ++ rest })
    ⟨rfl, hf, rfl⟩ rfl hfit hline hp ht
  rw [hlen, hsplit]
  refine (runs_succ (step_ctlPress (s := { s with schedule := _ :: _ }) hs hf rfl) _).trans ?_
  refine (runs_add (runs_seqBurst (seqBurst_of_press hf hr) rfl) _).trans ((runs_add (runs_peerBytes rfl) _).trans ?_)
  exact runs_receive (w := { answered p s with schedule := List.replicate (p.length + 1) .seq ++ rest })
    rfl hburst hv hlast

theorem response_answered (hi : BlockInv s) (hfit : p.length < s.cfg.rxCap) :
    response { answered p s with schedule := rest } = strOf p := by
  have hnil : (awaiting s).rxBuf = [] := Memory.clear_eq_nil hi.buffer.in_buf
  exact response_of_stored (s := { awaiting s with schedule := rest }) hnil hfit

/-- R256, R258: the expected confirmation toggles the LED. -/
theorem recvEnd_of_confirmation (hi : BlockInv s) (hfit : p.length < s.cfg.rxCap)
    (hp : strOf p = strOf (confRom (!s.led))) : recvEnd .ok { answered p s with schedule := rest } =
      complete .ok (if s.led then 1 else 3) { answered p s with schedule := rest, led := !s.led } := by
  rw [← pressResult_toggled]
  exact (recvEnd_of_ctlPress rfl).trans
    (ctlFinish_of_confirmed (confirmed_iff.mpr ⟨rfl, (response_answered hi hfit).trans hp⟩))

/-- R256: another answer leaves it. -/
theorem recvEnd_of_other (hi : BlockInv s) (hfit : p.length < s.cfg.rxCap)
    (hp : strOf p ≠ strOf (confRom (!s.led))) : recvEnd .ok { answered p s with schedule := rest } =
      complete .ok (if s.led then 2 else 0) { answered p s with schedule := rest } := by
  rw [← pressResult_kept]
  refine (recvEnd_of_ctlPress rfl).trans (ctlFinish_of_unconfirmed fun h => hp ?_)
  exact (response_answered hi hfit).symm.trans (confirmed_iff.mp h).2

/-- The invariant answers every run from it. -/
theorem BlockInv.of_runs {k : Nat} {s u : State} (hi : BlockInv s) (h : runs k s = .next u) : BlockInv u := by
  obtain ⟨v, hv, hinv⟩ := noRunStops k s hi
  cases hv.symm.trans h
  exact hinv

end

/-- The confirmation a press of a block whose LED is `led` expects fits, holds no terminator and is its own string. -/
theorem confirmation_spec (led : Bool) : ∃ p, p = (if led then confirmOffPayload else confirmOnPayload) ∧
    p.length < 10 ∧ (∀ b ∈ p, ¬ isTerminator b = true) ∧ strOf p = p := by
  cases led
  · exact ⟨confirmOnPayload, rfl, by decide⟩
  · exact ⟨confirmOffPayload, rfl, by decide⟩

/-- Settles O35: the line that comes in is the confirmation of the command that went out. -/
theorem confirmedPressTogglesTheLed : Obligations.ConfirmedPressTogglesTheLed := by
  intro s t rest hi hs hf hr hrx hcap ht request confirm events
  obtain ⟨p, hp, hten, hpay, hstr⟩ := confirmation_spec s.led
  have hlen : p.length < s.cfg.rxCap := by omega
  have hevents : events = pressEvents s.led p t := by
    simp only [events, confirm, request, ← hp, ← request_eq, List.length_append, List.length_singleton]
    rfl
  have hrun := runs_press (rest := rest) hs hf hr hrx hlen hpay (isTerminator_iff.mpr ht)
  rw [recvEnd_of_confirmation hi hlen (by rw [hstr, confirmation_eq, hp])] at hrun
  rw [hevents]
  exact ⟨_, hrun, rfl, rfl, rfl, rfl, rfl, congrArg _ (request_eq s.led), rfl, rfl, (hi.env ..).of_runs hrun⟩

/-- Settles O36: the line that comes in fits and is no confirmation of the command that went out. -/
theorem unconfirmedPressLeavesTheLed : Obligations.UnconfirmedPressLeavesTheLed := by
  intro s p t rest hi hs hf hr hrx hlen hpay ht hno request events
  have hevents : events = pressEvents s.led p t := by
    simp only [events, request, ← request_eq]
    rfl
  have hrun := runs_press (rest := rest) hs hf hr hrx hlen (fun b hb => not_isTerminator (hpay b hb).1 (hpay b hb).2)
    (isTerminator_iff.mpr ht)
  rw [recvEnd_of_other hi hlen (by rwa [confirmation_eq])] at hrun
  rw [hevents]
  exact ⟨_, hrun, rfl, rfl, rfl, rfl, congrArg _ (request_eq s.led), rfl, rfl⟩

end Sys2Proof.Machine
end

section
/-! SUPPORT. Confirmation lines that come into a receive (30_encoding.md section 1, log 8): the receive takes their bytes up
to a terminator, or overruns its full buffer under `LEGACY_FAULT`. -/

namespace Sys2Proof.Machine

/-! ## A line that fits, in a receive that waits for its first byte -/

/-- Micro-steps of a receive that goes on after them are those of its burst. -/
theorem recvBurst_of_seqBurst {n k : Nat} {s v : State} (hs : receiving s = true) (h : seqBurst n s = .next v)
    (hv : receiving v = true) : recvBurst (n + k) s = recvBurst k v := by
  induction n generalizing s with
  | zero =>
    cases h
    rw [Nat.zero_add]
  | succ n ih =>
    obtain ⟨u, hu, hrest⟩ := andThen_eq_next h
    rcases receive_cases hs hu with ⟨hur, -⟩ | ⟨st, b, rest, m, -, rfl, -⟩
    · rw [Nat.add_right_comm, recvBurst, if_pos hs, hu, andThen_next, ih hur hrest]
    · rw [seqBurst_of_hold (seqEvent_of_noMicroStep (.inl (recvEnd_seq ..)))] at hrest
      cases hrest
      simp [receiving] at hv

/-- R234: a line that fits ends the receive it comes into. -/
theorem receiveLine_of_fits {s : State} {p : List Byte} {t : Byte} (hs : Receiving s) (h0 : s.rxIdx = 0)
    (hrx : s.rxStream = []) (hfit : p.length < s.cfg.rxCap) (hp : ∀ b ∈ p, ¬ isTerminator b = true)
    (ht : isTerminator t = true) : receiveLine (p ++ [t]) s =
      .next (recvEnd .ok { s with rxStream := [], rxIdx := p.length, rxBuf := s.rxBuf.line p }) := by
  have hline : (peerBytes (p ++ [t]) s).rxStream = p ++ t :: [] := by rw [peerBytes, hrx, List.nil_append]
  obtain ⟨v, hburst, -, hv, hlast⟩ := receive_of_fits (s := peerBytes (p ++ [t]) s) ⟨hs.seq, hs.fault, hs.ovf⟩ h0 hfit
    hline hp ht
  have hfuel : s.rxStream.length + (p ++ [t]).length = p.length + 1 := by simp [hrx]
  have hrx' : receiving (peerBytes (p ++ [t]) s) = true := receiving_iff.mpr (.inl hs.seq)
  rw [receiveLine, hfuel, recvBurst_of_seqBurst hrx' hburst hv, recvBurst, if_pos hv, hlast]
  rfl

/-- R256, R258: a press that reads the confirmation of `sel` at its end has its LED at `sel`, toggled exactly if it was
not there before. -/
theorem recvEnd_of_response {s : State} {sel : Bool} (hop : s.curOp = codeCtlPress) (hexp : s.expSel = !s.led)
    (hresp : response s = strOf (confRom sel)) : recvEnd .ok s =
      complete .ok (pressResult sel (decide (s.led ≠ sel))) { s with led := sel } := by
  rw [recvEnd_of_ctlPress hop]
  by_cases hled : s.led = sel
  · have hno : ¬ confirmed .ok s = true := by
      rw [confirmed_iff, hresp, hexp, hled]
      cases sel <;> decide
    rw [ctlFinish_of_unconfirmed hno, ← hled, decide_eq_false (by simp)]
  · obtain rfl : sel = !s.led := by cases sel <;> simpa using hled
    rw [ctlFinish_of_confirmed (confirmed_iff.mpr ⟨rfl, by rw [hresp, hexp]⟩), decide_eq_true hled]

/-- R256: either confirmation, in a press that waits for its first byte. -/
theorem receiveLine_of_press {s : State} {sel : Bool} {p : List Byte} {t : Byte} (hs : Receiving s) (h0 : s.rxIdx = 0)
    (hrx : s.rxStream = []) (hbuf : s.rxBuf = []) (hop : s.curOp = codeCtlPress) (hexp : s.expSel = !s.led)
    (hfit : p.length < s.cfg.rxCap) (hp : ∀ b ∈ p, ¬ isTerminator b = true) (ht : isTerminator t = true)
    (hstr : strOf p = strOf (confRom sel)) : receiveLine (p ++ [t]) s =
      .next (complete .ok (pressResult sel (decide (s.led ≠ sel)))
        { s with rxStream := [], rxIdx := p.length, rxBuf := s.rxBuf.line p, led := sel }) := by
  rw [receiveLine_of_fits hs h0 hrx hfit hp ht]
  exact congrArg _ (recvEnd_of_response (s := { s with rxStream := [], rxIdx := p.length, rxBuf := s.rxBuf.line p })
    hop hexp ((response_of_stored hbuf hfit).trans hstr))

/-- Settles O23: both confirmations fit, and the one of `sel` leaves the LED at `sel`. -/
theorem confirmationLinesDecideTheToggle : Obligations.ConfirmationLinesDecideTheToggle := by
  intro s t hi hs hop hf h0 ho hbuf hrx hcap ht
  obtain ⟨hexp, hsel⟩ := hi.control.press_sel hop
  have hline {sel : Bool} {p : List Byte} (hlen : p.length < 10) (hp : ∀ b ∈ p, ¬ isTerminator b = true)
      (hstr : strOf p = strOf (confRom sel)) :=
    receiveLine_of_press ⟨hs, hf, ho⟩ h0 hrx hbuf hop (hexp.trans hsel) (by omega) hp (isTerminator_iff.mpr ht) hstr
  refine ⟨⟨_, hline (sel := true) (p := confirmOnPayload) (by decide) (by decide) (by decide), rfl, rfl, rfl, rfl, rfl,
    rfl, ?_⟩, ⟨_, hline (sel := false) (p := confirmOffPayload) (by decide) (by decide) (by decide), rfl, rfl, rfl, rfl,
    rfl, rfl, ?_⟩⟩
  · rw [complete_opResult]
    cases s.led <;> rfl
  · rw [complete_opResult]
    cases s.led <;> rfl

/-! ## A receive with bytes waiting, R218 to R224 -/

/-- What a micro-step of a receive in `s` makes of the byte `b` ahead of `rest` in `rx_stream`. -/
inductive Takes (s : State) (b : Byte) (rest : List Byte) : State → Prop
  | goesOn {q : SeqState} (m : Memory) (i : Nat) (o : Bool) (hb : isTerminator b = false)
      (hq : q = .rx ∨ q = .rxDrain) :
      Takes s b rest { s with rxStream := rest, seq := q, rxBuf := m, rxIdx := i, rxOvf := o }
  | ends (st : Status) (m : Memory) : Takes s b rest (recvEnd st { s with rxStream := rest, rxBuf := m })
  | overruns (hp : s.cfg.overflowPolicy = .legacyFault) (hs : s.seq = .rx) (ho : s.rxOvf = true) :
      Takes s b rest { s with rxStream := rest, fault := true }

section
variable {s : State} {b : Byte} {rest : List Byte}

theorem rxStepCap_takes (hs : s.seq = .rx) (hi : s.rxIdx < s.cfg.rxCap) :
    ∃ t, rxStepCap b { s with rxStream := rest } = .next t ∧ Takes s b rest t := by
  by_cases hb : isTerminator b = true
  · exact ⟨_, rxStepCap_of_terminator (s := { s with rxStream := rest }) hi hb, .ends ..⟩
  · have hb' := Bool.eq_false_of_not_eq_true hb
    rcases lt_or_eq_of_le (Nat.le_sub_one_of_lt hi) with hroom | hlast
    · exact ⟨_, rxStepCap_of_room (s := { s with rxStream := rest }) hi hb hroom, .goesOn _ _ _ hb' (.inl hs)⟩
    · exact ⟨_, rxStepCap_of_last (s := { s with rxStream := rest }) hi hb hlast, .goesOn _ _ _ hb' (.inr rfl)⟩

theorem rxStepLegacy_takes (hp : s.cfg.overflowPolicy = .legacyFault) (hs : s.seq = .rx) (hi : s.rxIdx < s.cfg.rxCap) :
    ∃ t, rxStepLegacy b { s with rxStream := rest } = .next t ∧ Takes s b rest t := by
  rcases Bool.eq_false_or_eq_true s.rxOvf with ho | ho
  · exact ⟨_, rxStepLegacy_of_full (s := { s with rxStream := rest }) ho, .overruns hp hs ho⟩
  · by_cases h : isTerminator b = true ∨ s.rxIdx < s.cfg.rxCap - 1
    · rw [rxStepLegacy_eq_rxStepCap (s := { s with rxStream := rest }) ho h]
      exact rxStepCap_takes hs hi
    · obtain ⟨hb, hlast⟩ := not_or.mp h
      exact ⟨_, rxStepLegacy_of_last (s := { s with rxStream := rest }) ho hi hb (by simp only; omega),
        .goesOn _ _ _ (Bool.eq_false_of_not_eq_true hb) (.inl hs)⟩

/-- A receive without fault takes the byte at the head of `rx_stream`. -/
theorem seqEvent_takes (hr : receiving s = true) (hf : s.fault = false) (hi : s.rxIdx < s.cfg.rxCap)
    (hst : s.rxStream = b :: rest) : ∃ t, seqEvent s = .next t ∧ Takes s b rest t := by
  rcases receiving_iff.mp hr with hs | hs
  · rw [seqEvent_of_rx hs hf]
    cases hp : s.cfg.overflowPolicy with
    | capAndFlag =>
      rw [rxStep_of_capAndFlag hp hst]
      exact rxStepCap_takes hs hi
    | legacyFault =>
      rw [rxStep_of_legacyFault hp hst]
      exact rxStepLegacy_takes hp hs hi
  · rw [seqEvent_of_rxDrain hs hf]
    by_cases hb : isTerminator b = true
    · exact ⟨_, drainStep_of_terminator hst hb, .ends ..⟩
    · exact ⟨_, drainStep_of_payload hst hb, .goesOn _ _ _ (Bool.eq_false_of_not_eq_true hb) (.inr hs)⟩

end

/-! ## A receive with a terminator waiting -/

/-- From `s` the receive has ended in `u`, or has overrun its full buffer; bytes were taken from the head of `rx_stream`, and
what no receive writes is as it was. -/
structure ReceiveOver (s u : State) : Prop where
  stopped : u.seq = .idle ∧ u.curOp = 0x00#8 ∧ u.opDone = true ∧ u.fault = false ∨
    s.cfg.overflowPolicy = .legacyFault ∧ u.seq = .rx ∧ u.curOp = s.curOp ∧ u.fault = true ∧ u.rxOvf = true
  taken : ∃ k, 0 < k ∧ k ≤ s.rxStream.length ∧ u.rxStream = s.rxStream.drop k
  frame : u.txStream = s.txStream ∧ u.motor = s.motor ∧ u.servo = s.servo ∧ u.angleCur = s.angleCur ∧
    u.dlyCnt = s.dlyCnt ∧ u.txSel = s.txSel ∧ u.txPtr = s.txPtr ∧ u.expSel = s.expSel

theorem taken_head {b : Byte} {rest : List Byte} :
    ∃ k, 0 < k ∧ k ≤ (b :: rest).length ∧ rest = (b :: rest).drop k := ⟨1, by simp⟩

/-- R234: the terminator that waits ends the receive, at the latest. -/
theorem recvBurst_of_terminator {s : State} {k : Nat} (hi : BlockInv s) (hr : receiving s = true)
    (hf : s.fault = false) (hk : s.rxStream.length ≤ k) (ht : ∃ b ∈ s.rxStream, isTerminator b = true) :
    ∃ u, recvBurst k s = .next u ∧ ReceiveOver s u := by
  induction k generalizing s with
  | zero =>
    obtain ⟨b, hb, -⟩ := ht
    rw [List.length_eq_zero_iff.mp (Nat.le_zero.mp hk)] at hb
    cases hb
  | succ k ih =>
    obtain ⟨b, rest, hst⟩ : ∃ b rest, s.rxStream = b :: rest := by
      obtain ⟨b, hb, -⟩ := ht
      exact List.exists_cons_of_ne_nil (List.ne_nil_of_mem hb)
    obtain ⟨t, hstep, htakes⟩ := seqEvent_takes hr hf hi.buffer.idx_lt hst
    rw [recvBurst, if_pos hr, hstep, andThen_next]
    have hti : BlockInv t := by
      obtain ⟨t', ht', hinv⟩ := hi.seqEvent
      cases ht'.symm.trans hstep
      exact hinv
    rw [hst] at hk ht
    cases htakes with
    | goesOn m i o hb hq =>
      have hrest : ∃ b ∈ rest, isTerminator b = true := by simpa [hb] using ht
      obtain ⟨u, hu, hover⟩ := ih hti (receiving_iff.mpr hq) hf (Nat.le_of_succ_le_succ hk) hrest
      obtain ⟨hover, ⟨j, hj, hlen, hdrop⟩, hframe⟩ := hover
      refine ⟨u, hu, hover, ⟨j + 1, Nat.succ_pos j, ?_, ?_⟩, hframe⟩
      · rw [hst]
        exact Nat.succ_le_succ hlen
      · rw [hst, hdrop, List.drop_succ_cons]
    | ends st m =>
      refine ⟨_, recvBurst_of_not_receiving (by simp [receiving]) k, .inl ?_, ?_, ?_⟩
      · simpa using hf
      · rw [hst, recvEnd_rxStream]
        exact taken_head
      · simp
    | overruns hp hs ho =>
      refine ⟨_, recvBurst_of_fault rfl k, .inr ⟨hp, hs, rfl, rfl, ho⟩, ?_, ?_⟩
      · rw [hst]
        exact taken_head
      · exact ⟨rfl, rfl, rfl, rfl, rfl, rfl, rfl, rfl⟩

theorem receiveLine_of_line {s : State} {bytes : List Byte} (hi : BlockInv s) (hr : receiving s = true)
    (hf : s.fault = false) (ht : ∃ b ∈ bytes, isTerminator b = true) :
    ∃ u, receiveLine bytes s = .next u ∧ ReceiveOver (peerBytes bytes s) u := by
  refine recvBurst_of_terminator (s := peerBytes bytes s) (hi.rxStream _) hr hf ?_ ?_
  · exact List.length_append.le
  · obtain ⟨b, hb, hb'⟩ := ht
    exact ⟨b, List.mem_append_right _ hb, hb'⟩

/-- Settles O24: a confirmation line brings its terminator with it. -/
theorem confirmationLinesEndAnyReceive : Obligations.ConfirmationLinesEndAnyReceive := by
  intro s t i bytes hi hs hf ht hmsg
  have hline : exec i s = receiveLine bytes s := by
    rcases hmsg with ⟨rfl, rfl⟩ | ⟨rfl, rfl⟩ <;> rfl
  have hterm : t ∈ bytes := by
    rcases hmsg with ⟨-, rfl⟩ | ⟨-, rfl⟩ <;> simp
  obtain ⟨u, hu, hover, ⟨k, hk, hlen, hdrop⟩, hframe⟩ :=
    receiveLine_of_line hi (receiving_iff.mpr hs) hf ⟨t, hterm, isTerminator_iff.mpr ht⟩
  rw [peerBytes, List.length_append] at hlen
  exact ⟨u, hline.trans hu, hover, ⟨k, hk, hlen, hdrop⟩, hframe⟩

end Sys2Proof.Machine
end

section
/-! SUPPORT. Liveness under the fairness premises (60_exceptions.md section 5, log 24): a measure that no event raises and
that a fair event lowers, for each of the waits. -/

namespace Sys2Proof.Machine

/-! ## Along an endless sequence of events -/

section
variable {env : Nat → Event} {s : State}

/-- The state event `k` of a sequence acts on: nothing scheduled behind it, `op_done` low. -/
def lowered (s : State) : State := { s with schedule := [], opDone := false }

theorem BlockInv.lowered (hi : BlockInv s) : BlockInv (lowered s) := hi.env ..

/-- Event `k` happens in the state after the first `k`. -/
theorem stateAfter_succ {k : Nat} (hi : BlockInv (stateAfter env s k)) : BlockInv (stateAfter env s (k + 1)) ∧
    applyEvent (env k) (lowered (stateAfter env s k)) =
      .next (stateAfter env s (k + 1)) := by
  obtain ⟨t, ht, hinv⟩ := hi.lowered.applyEvent (env k)
  have hstep : step { stateAfter env s k with schedule := [env k] } = .next t :=
    (step_of_schedule (s := { stateAfter env s k with schedule := [env k] }) rfl).trans ht
  rw [stateAfter, hstep]
  exact ⟨hinv, ht⟩

theorem BlockInv.stateAfter (hi : BlockInv s) (k : Nat) : BlockInv (stateAfter env s k) := by
  induction k with
  | zero => exact hi
  | succ k ih => exact (stateAfter_succ ih).1

theorem applyEvent_stateAfter (hi : BlockInv s) (k : Nat) :
    applyEvent (env k) (lowered (stateAfter env s k)) = .next (stateAfter env s (k + 1)) :=
  (stateAfter_succ (hi.stateAfter k)).2

end

/-- While `P` holds no step raises the measure; if it ends, `Q` holds. -/
theorem reaches_or_keeps {P Q : Nat → Prop} {μ : Nat → Nat}
    (hstay : ∀ n, P n → Q (n + 1) ∨ P (n + 1) ∧ μ (n + 1) ≤ μ n) {n m : Nat} (hnm : n ≤ m) (hn : P n) :
    (∃ j, n ≤ j ∧ Q j) ∨ P m ∧ μ m ≤ μ n := by
  induction m, hnm using Nat.le_induction with
  | base => exact .inr ⟨hn, le_rfl⟩
  | succ m hnm ih =>
    rcases ih with hq | ⟨hp, hle⟩
    · exact .inl hq
    · exact (hstay m hp).imp (fun hq => ⟨m + 1, by omega, hq⟩) fun ⟨hp', hle'⟩ => ⟨hp', hle'.trans hle⟩

/-- A goal that a measure leads to: while `P` holds no step raises the measure, and some later step lowers it. -/
theorem leads_to {P Q : Nat → Prop} {μ : Nat → Nat}
    (hstay : ∀ n, P n → Q (n + 1) ∨ P (n + 1) ∧ μ (n + 1) ≤ μ n)
    (hprogress : ∀ n, P n → ∃ m, n ≤ m ∧ (P m → Q (m + 1) ∨ P (m + 1) ∧ μ (m + 1) < μ m)) {n : Nat} (hn : P n) :
    ∃ m, n ≤ m ∧ Q m := by
  induction hμ : μ n using Nat.strong_induction_on generalizing n with
  | _ c ih =>
    obtain ⟨m, hnm, hm⟩ := hprogress n hn
    rcases reaches_or_keeps hstay hnm hn with hq | ⟨hp, hle⟩
    · exact hq
    · rcases hm hp with hq | ⟨hp', hlt⟩
      · exact ⟨m + 1, by omega, hq⟩
      · obtain ⟨j, hj, hq⟩ := ih (μ (m + 1)) (by omega) hp' rfl
        exact ⟨j, by omega, hq⟩

/-! ## What an event can do while an operation is in progress -/

/-- The event `e` leaves the operation in progress as it is; what the peer sends in it arrives. -/
structure PassesBy (e : Event) (s t : State) : Prop where
  seq : t.seq = s.seq
  txSel : t.txSel = s.txSel
  txPtr : t.txPtr = s.txPtr
  dlyCnt : t.dlyCnt = s.dlyCnt
  rxStream : t.rxStream = s.rxStream ++ peerSends e s

section
variable {e : Event} {s t : State}

theorem PassesBy.refl (he : peerSends e s = []) : PassesBy e s s := ⟨rfl, rfl, rfl, rfl, by rw [he, List.append_nil]⟩

theorem peerSends_refPeer : (refPeer s).rxStream = s.rxStream ++ peerSends .refPeer s := by
  rw [peerSends]
  rcases refPeer_cases s with h | ⟨n, bytes, h⟩ <;> rw [h]
  · simp
  · simp [peerBytes]

theorem passesBy_refPeer : PassesBy .refPeer s (refPeer s) := by
  have hrx := peerSends_refPeer (s := s)
  rcases refPeer_cases s with h | ⟨n, bytes, h⟩
  · rw [h] at hrx ⊢
    exact ⟨rfl, rfl, rfl, rfl, hrx⟩
  · rw [h] at hrx ⊢
    exact ⟨rfl, rfl, rfl, rfl, hrx⟩

theorem peerSends_request (sel : Bool) :
    peerSends (.line (if sel then requestOnLine else requestOffLine)) s = [] := by
  cases sel <;> rfl

theorem lineEvent_request (sel : Bool) (s : State) :
    lineEvent (if sel then requestOnLine else requestOffLine) s = sendLine sel s := by
  cases sel <;> rfl

theorem lineEvent_of_not_request {bytes : List Byte} (hreq : ¬ (bytes = requestOnLine ∨ bytes = requestOffLine))
    (h : lineEvent bytes s = .next t) : receiveLine bytes s = .next t := by
  refine (lineEvent_cases h).resolve_left ?_
  rintro ⟨sel, rfl, -⟩
  cases sel <;> simp at hreq

/-- The whole rest of the command being sent has gone out. -/
def restOut (s : State) : State :=
  { s with
    txStream := s.txStream ++ (strOf (cmdRom s.txSel)).drop s.txPtr.toNat
    txPtr := BitVec.ofNat 4 (cmdLength s.txSel) }

/-- What the event `e` can be to an operation in progress in `s`, with `t` afterwards. -/
inductive BusyStep (s t : State) : Event → Prop
  | seq (h : seqEvent s = .next t) : BusyStep s t .seq
  | tick (h : tick1ms s = .next t) : BusyStep s t .tick1ms
  | reset (h : t.seq = .idle) : BusyStep s t .reset
  | passes {e : Event} (hseq : e ≠ .seq) (htick : e ≠ .tick1ms) (h : PassesBy e s t) : BusyStep s t e
  | sends (bytes : List Byte) (hs : Sending s) (hlt : s.txPtr.toNat < cmdLength s.txSel) (ht : t = restOut s) :
      BusyStep s t (.line bytes)
  | receives (bytes : List Byte) (hr : receiving s = true) (h : receiveLine bytes s = .next t) :
      BusyStep s t (.line bytes)

/-- R102: a line on the wire while an operation is in progress. -/
theorem lineEvent_busy {bytes : List Byte} (h : lineEvent bytes s = .next t) : BusyStep s t (.line bytes) := by
  by_cases hreq : bytes = requestOnLine ∨ bytes = requestOffLine
  · obtain ⟨sel, rfl⟩ : ∃ sel, bytes = if sel then requestOnLine else requestOffLine :=
      hreq.elim (⟨true, ·⟩) (⟨false, ·⟩)
    rw [lineEvent_request] at h
    rcases sendLine_eq_next h with rfl | ⟨hsend, rfl, hlt, rfl⟩
    · exact .passes nofun nofun (.refl (peerSends_request sel))
    · exact .sends _ hsend hlt rfl
  · have hpeer : peerSends (.line bytes) s = bytes := if_neg hreq
    have h := lineEvent_of_not_request hreq h
    by_cases hr : receiving s = true
    · exact .receives bytes hr h
    · rw [receiveLine_of_not_receiving hr] at h
      cases h
      exact .passes nofun nofun ⟨rfl, rfl, rfl, rfl, by rw [hpeer]; rfl⟩

/-- R8: the events of a block that is not idle. -/
theorem applyEvent_busy (hs : s.seq ≠ .idle) (h : applyEvent e s = .next t) : BusyStep s t e := by
  rcases applyEvent_cases h with ⟨w, hw, h | rfl⟩ | ⟨bytes, rfl, h⟩ | ⟨rfl, h⟩ | ⟨rfl, h⟩ | ⟨ch, rfl, rfl⟩ | ⟨b, rfl, rfl⟩ |
    ⟨rfl, rfl⟩ | ⟨rfl, rfl⟩ | ⟨v, rfl, rfl⟩ | ⟨v, rfl, rfl⟩ | ⟨rfl, rfl⟩
  · have hready : ¬ opReady s = true := fun hr => hs (opReady_iff.mp hr).1
    rw [hostEvent_of_not_ready hready] at h
    cases h
    rcases hw with rfl | rfl <;> exact .passes nofun nofun (.refl rfl)
  · rcases hw with rfl | rfl <;> exact .passes nofun nofun (.refl rfl)
  · exact lineEvent_busy h
  · exact .seq h
  · exact .tick h
  · exact .passes nofun nofun ⟨setChan_seq .., setChan_txSel .., setChan_txPtr .., setChan_dlyCnt ..,
      (setChan_rxStream ..).trans (List.append_nil _).symm⟩
  · exact .passes nofun nofun ⟨rfl, rfl, rfl, rfl, rfl⟩
  · exact .passes nofun nofun ⟨rfl, rfl, rfl, rfl, (List.append_nil _).symm⟩
  · exact .passes nofun nofun passesBy_refPeer
  · exact .passes nofun nofun ⟨rfl, rfl, rfl, rfl, (List.append_nil _).symm⟩
  · exact .passes nofun nofun ⟨rfl, rfl, rfl, rfl, (List.append_nil _).symm⟩
  · exact .reset rfl

/-! ## Delays and settle delays -/

/-- R192: a wait for ticks ends, or goes on with a count that a tick lowers. -/
theorem BusyStep.of_waiting (h : BusyStep s t e) (hi : BlockInv s) (hs : s.seq = .dly ∨ s.seq = .dbReleased) : t.seq = .idle ∨ (t.seq = .dly ∨ t.seq = .dbReleased) ∧
      t.dlyCnt.toNat ≤ s.dlyCnt.toNat ∧ (e = .tick1ms → t.dlyCnt.toNat < s.dlyCnt.toNat) := by
  cases h with
  | seq h =>
    rw [seqEvent_of_noMicroStep (.inr hs.symm)] at h
    cases h
    exact .inr ⟨hs, le_rfl, nofun⟩
  | tick h =>
    rw [tick1ms_of_waiting hs] at h
    cases h
    by_cases hd : s.dlyCnt - 1 = 0
    · rw [delayTick_of_last hd]
      exact .inl rfl
    · have hpos : 0 < s.dlyCnt.toNat := Nat.pos_of_ne_zero fun h0 =>
        hi.control.wait_pos hs (BitVec.eq_of_toNat_eq h0)
      have hlt : (s.dlyCnt - 1).toNat < s.dlyCnt.toNat := by
        rw [toNat_sub_one (hi.control.wait_pos hs)]
        omega
      rw [delayTick_of_running hd]
      exact .inr ⟨hs, hlt.le, fun _ => hlt⟩
  | reset h => exact .inl h
  | passes hseq htick h =>
    rw [h.seq, h.dlyCnt]
    exact .inr ⟨hs, le_rfl, fun he => absurd he htick⟩
  | sends bytes hsend => rcases hs with hs | hs <;> cases hs.symm.trans hsend.seq
  | receives bytes hr => rcases hs with hs | hs <;> simp [receiving, hs] at hr

end

section
variable {env : Nat → Event} {s : State}

/-- R8 along the sequence: what event `k` can be to the operation in progress. -/
theorem busyStep_stateAfter (hi : BlockInv s) {k : Nat} (hk : (stateAfter env s k).seq ≠ .idle) :
    BusyStep (lowered (stateAfter env s k)) (stateAfter env s (k + 1)) (env k) :=
  applyEvent_busy hk (applyEvent_stateAfter hi k)

/-- Under `FairTick` a wait for ticks reaches `IDLE`. -/
theorem waiting_leads_to_idle (hi : BlockInv s) (hfair : FairTick env) {n : Nat}
    (hn : (stateAfter env s n).seq = .dly ∨ (stateAfter env s n).seq = .dbReleased) :
    ∃ k, (stateAfter env s k).seq = .idle := by
  have hstep (n : Nat) (hn : (stateAfter env s n).seq = .dly ∨ (stateAfter env s n).seq = .dbReleased) :=
    (busyStep_stateAfter hi (by rcases hn with hn | hn <;> simp [hn])).of_waiting (hi.stateAfter n).lowered hn
  obtain ⟨k, -, hk⟩ := leads_to (Q := fun n => (stateAfter env s n).seq = .idle)
    (μ := fun n => (stateAfter env s n).dlyCnt.toNat)
    (fun n hn => (hstep n hn).imp_right fun ⟨hs, hle, _⟩ => ⟨hs, hle⟩)
    (fun n _ => (hfair n).imp fun m ⟨hnm, htick⟩ => ⟨hnm, fun hm =>
      (hstep m hm).imp_right fun ⟨hs, _, hlt⟩ => ⟨hs, hlt htick⟩⟩) hn
  exact ⟨k, hk⟩

end

/-! ## Sends -/

theorem toNat_cmdLength (sel : Bool) : (BitVec.ofNat 4 (cmdLength sel)).toNat = cmdLength sel := by
  cases sel <;> decide

section
variable {e : Event} {s t : State}

/-- R212, R254: at the 0x00 a `Seq` ends the send. -/
theorem seqEvent_of_commandOut (hi : BlockInv s) (hs : s.seq = .tx) (hf : s.fault = false)
    (hp : s.txPtr.toNat = cmdLength s.txSel) (h : seqEvent s = .next t) :
    t.seq = .idle ∨ t.seq = .rx ∧ t.rxStream = s.rxStream := by
  have hend : cmdByte s.txSel s.txPtr.toNat = some 0x00#8 := by rw [hp, cmdByte_cmdLength]
  rw [seqEvent_of_tx hs hf] at h
  rcases hi.control.tx_op hs with hop | hop
  · rw [txStep_of_end_serSend hend hop] at h
    cases h
    exact .inl rfl
  · rw [txStep_of_end_ctlPress hend hop] at h
    cases h
    exact .inr ⟨rfl, rfl⟩

theorem not_timeoutRuns (hs : s.seq ≠ .rx) (hs' : s.seq ≠ .rxDrain) : ¬ timeoutRuns s = true := fun hr =>
  (timeoutRuns_iff.mp hr).1.elim hs hs'

theorem BlockInv.fault_of_not_rx (hi : BlockInv s) (hs : s.seq ≠ .rx) : s.fault = false :=
  Bool.eq_false_of_not_eq_true fun hf => hs (hi.control.fault_rx hf).2

/-- The bytes of the command that are still to go out. -/
def bytesLeft (s : State) : Nat := cmdLength s.txSel - s.txPtr.toNat

theorem bytesLeft_sent (h : s.txPtr.toNat < cmdLength s.txSel) : bytesLeft (sent 1 s) < bytesLeft s := by
  have hadd : (sent 1 s).txPtr.toNat = s.txPtr.toNat + 1 := toNat_txPtr_add h
  exact (congrArg (cmdLength s.txSel - ·) hadd).trans_lt (Nat.sub_succ_lt_self _ _ h)

/-- R212: a send ends at the 0x00 alone, or goes on with bytes to go that a `Seq` lowers if the transmitter is ready. -/
theorem BusyStep.of_tx (h : BusyStep s t e) (hi : BlockInv s) (hs : s.seq = .tx) :
    (t.seq = .idle ∨ t.seq ≠ .tx ∧ bytesLeft s = 0) ∨
    t.seq = .tx ∧ t.txSel = s.txSel ∧ bytesLeft t ≤ bytesLeft s ∧
      (e = .seq → s.txReady = true → bytesLeft t < bytesLeft s) := by
  have hf : s.fault = false := hi.fault_of_not_rx (by simp [hs])
  cases h with
  | seq h =>
    rcases lt_or_eq_of_le hi.control.ptr_le with hlt | hp
    · cases hr : s.txReady with
      | true =>
        rw [seqEvent_of_sending ⟨hs, hf, hr⟩ hlt] at h
        cases h
        exact .inr ⟨hs, rfl, (bytesLeft_sent hlt).le, fun _ _ => bytesLeft_sent hlt⟩
      | false =>
        rw [seqEvent_of_txWait hs hr hlt] at h
        cases h
        exact .inr ⟨hs, rfl, le_rfl, nofun⟩
    · rcases seqEvent_of_commandOut hi hs hf hp h with hidle | ⟨hrx, -⟩
      · exact .inl (.inl hidle)
      · exact .inl (.inr ⟨by simp [hrx], by rw [bytesLeft, hp, Nat.sub_self]⟩)
  | tick h =>
    rw [tick1ms_of_untimed (by simp [hs]) (not_timeoutRuns (by simp [hs]) (by simp [hs]))] at h
    cases h
    exact .inr ⟨hs, rfl, le_rfl, nofun⟩
  | reset h => exact .inl (.inl h)
  | passes hseq htick h =>
    have hleft : bytesLeft t = bytesLeft s := by rw [bytesLeft, h.txSel, h.txPtr, bytesLeft]
    exact .inr ⟨h.seq.trans hs, h.txSel, hleft.le, fun he => absurd he hseq⟩
  | sends bytes hsend hlt ht =>
    subst ht
    refine .inr ⟨hs, rfl, ?_, nofun⟩
    rw [bytesLeft, restOut, toNat_cmdLength, Nat.sub_self]
    exact Nat.zero_le _
  | receives bytes hr => simp [receiving, hs] at hr

end

section
variable {env : Nat → Event} {s : State}

/-- The send of the state after `n` events goes on in event `n`, its bytes still to go lowered by a ready `Seq`. -/
def SendGoesOn (env : Nat → Event) (s : State) (n : Nat) : Prop :=
  (stateAfter env s (n + 1)).seq = .tx ∧ (stateAfter env s (n + 1)).txSel = (stateAfter env s n).txSel ∧
    bytesLeft (stateAfter env s (n + 1)) ≤ bytesLeft (stateAfter env s n) ∧
    (env n = .seq → (stateAfter env s n).txReady = true →
      bytesLeft (stateAfter env s (n + 1)) < bytesLeft (stateAfter env s n))

theorem send_stateAfter (hi : BlockInv s) {n : Nat} (hn : (stateAfter env s n).seq = .tx) :
    ((stateAfter env s (n + 1)).seq = .idle ∨
      (stateAfter env s (n + 1)).seq ≠ .tx ∧ bytesLeft (stateAfter env s n) = 0) ∨ SendGoesOn env s n :=
  (busyStep_stateAfter hi (by simp [hn])).of_tx (hi.stateAfter n).lowered hn

/-- Settles O56: the count of a wait is a measure that ticks lower, the bytes still to go one that ready `Seq` events
lower. -/
theorem waitsEndUnderFairness : Obligations.WaitsEndUnderFairness := by
  intro env s hi
  refine ⟨fun hfair hs => waiting_leads_to_idle (n := 0) hi hfair hs, fun hfair hs => ?_⟩
  have hleft {t : State} {p : Prop} (h : t.seq = .idle ∨ t.seq ≠ .tx ∧ p) : t.seq ≠ .tx := by
    rcases h with h | ⟨h, -⟩
    · simp [h]
    · exact h
  obtain ⟨k, -, hk⟩ := leads_to (Q := fun n => (stateAfter env s n).seq ≠ .tx) (μ := fun n => bytesLeft (stateAfter env s n))
    (fun n hn => (send_stateAfter hi hn).imp hleft fun ⟨htx, _, hle, _⟩ => ⟨htx, hle⟩)
    (fun n hn => (hfair n hn).imp fun m ⟨hnm, hm⟩ => ⟨hnm, fun htx =>
      (send_stateAfter hi htx).imp hleft fun ⟨htx', _, _, hlt⟩ =>
        have ⟨hready, hseq⟩ := hm.resolve_left fun hne => hne htx
        ⟨htx', hlt hseq hready⟩⟩) (n := 0) hs
  exact ⟨k, hk⟩

end

end Sys2Proof.Machine
end

section
/-! SUPPORT. The sessions that end under the fairness premises (60_exceptions.md section 5): a poll whose button is
released, and a command whose peer answers. -/

namespace Sys2Proof.Machine

/-! ## The wait for the release -/

section
variable {e : Event} {s t : State}

/-- R180: the wait for the release ends by a `Seq` that finds the line inactive, or by `Reset`. -/
theorem BusyStep.of_dbPressed (h : BusyStep s t e) (hi : BlockInv s) (hs : s.seq = .dbPressed) :
    t.seq = .idle ∨ t.seq = .dbReleased ∨ t.seq = .dbPressed ∧ (e = .seq → btnPressed s = true) := by
  cases h with
  | seq h =>
    by_cases hb : s.btnIn = s.cfg.btnActiveLevel
    · rw [seqEvent_of_dbPressed_active hs hb] at h
      cases h
      exact .inr (.inr ⟨hs, fun _ => btnPressed_iff.mpr hb⟩)
    · rw [seqEvent_of_dbPressed_inactive hs (hi.fault_of_not_rx (by simp [hs])) hb] at h
      cases h
      exact .inr (.inl rfl)
  | tick h =>
    rw [tick1ms_of_untimed (by simp [hs]) (not_timeoutRuns (by simp [hs]) (by simp [hs]))] at h
    cases h
    exact .inr (.inr ⟨hs, nofun⟩)
  | reset h => exact .inl h
  | passes hseq htick h => exact .inr (.inr ⟨h.seq.trans hs, fun he => absurd he hseq⟩)
  | sends bytes hsend => cases hs.symm.trans hsend.seq
  | receives bytes hr => simp [receiving, hs] at hr

end

section
variable {env : Nat → Event} {s : State}

theorem seqEnabled_of_dbPressed (hi : BlockInv s) (hs : s.seq = .dbPressed) : seqEnabled s = !btnPressed s := by
  simp [seqEnabled, hs, hi.fault_of_not_rx (by simp [hs])]

/-- Some later `Seq` finds the button released, unless the wait is over before. -/
theorem release_is_sampled (hi : BlockInv s) (hseq : FairSeq env s) (hbtn : ButtonReleased env s) (n : Nat) :
    ∃ m, n ≤ m ∧ ((stateAfter env s m).seq = .dbPressed →
      env m = .seq ∧ btnPressed (stateAfter env s m) = false) := by
  obtain ⟨m, hnm, hm⟩ := hseq n
  cases hb : btnPressed (stateAfter env s m) with
  | true =>
    obtain ⟨j, hmj, hj, hseq⟩ := hbtn m hb
    exact ⟨j, by omega, fun _ => ⟨hseq, hj⟩⟩
  | false =>
    refine ⟨m, hnm, fun hs => ⟨hm.resolve_right ?_, hb⟩⟩
    rw [seqEnabled_of_dbPressed (hi.stateAfter m) hs, hb]
    decide

/-- R180: under `FairSeq`, `ButtonReleased` and `FairTick` a poll that found the button pressed ends. -/
theorem poll_leads_to_idle (hi : BlockInv s) (hseq : FairSeq env s) (hbtn : ButtonReleased env s) (htick : FairTick env)
    (hs : s.seq = .dbPressed) : ∃ k, (stateAfter env s k).seq = .idle := by
  have hstep (n : Nat) (hn : (stateAfter env s n).seq = .dbPressed) :=
    (busyStep_stateAfter hi (by simp [hn])).of_dbPressed (hi.stateAfter n).lowered hn
  obtain ⟨k, -, hk⟩ := leads_to (P := fun n => (stateAfter env s n).seq = .dbPressed)
    (Q := fun n => (stateAfter env s n).seq = .idle ∨ (stateAfter env s n).seq = .dbReleased) (μ := fun _ => 0)
    (fun n hn => (or_assoc.mpr (hstep n hn)).imp_right fun ⟨hs, _⟩ => ⟨hs, le_rfl⟩)
    (fun n _ => (release_is_sampled hi hseq hbtn n).imp fun m ⟨hnm, hm⟩ => ⟨hnm, fun hs =>
      (or_assoc.mpr (hstep m hs)).imp_right fun ⟨_, hpressed⟩ =>
        have ⟨hseq, hreleased⟩ := hm hs
        absurd (hpressed hseq) (ne_true_of_eq_false hreleased)⟩) (n := 0) hs
  rcases hk with hk | hk
  · exact ⟨k, hk⟩
  · exact waiting_leads_to_idle hi htick (.inr hk)

end

/-! ## A command whose line is out -/

/-- The command being served has its line out: the send stands at the 0x00, or the receive is on. -/
def Answering (s : State) : Prop := s.seq = .tx ∧ bytesLeft s = 0 ∨ receiving s = true

/-- A terminator is in the list. -/
def Terminated (bytes : List Byte) : Prop := ∃ b ∈ bytes, isTerminator b = true

/-- The micro-steps to the end of a command with a terminator in `rx_stream`: the one at the 0x00 and those over the bytes
before the terminator. -/
def stepsLeft (s : State) : Nat := (if s.seq = .tx then 1 else 0) + s.rxStream.findIdx isTerminator

theorem Terminated.append_left {xs : List Byte} (h : Terminated xs) (ys : List Byte) : Terminated (xs ++ ys) := by
  obtain ⟨b, hb, ht⟩ := h
  exact ⟨b, List.mem_append_left _ hb, ht⟩

theorem Terminated.findIdx_append {xs : List Byte} (h : Terminated xs) (ys : List Byte) :
    (xs ++ ys).findIdx isTerminator = xs.findIdx isTerminator := by
  rw [List.findIdx_append, if_pos (List.findIdx_lt_length.mpr h)]

section
variable {e : Event} {s t : State}

/-- The command goes on from `s` to `t` with the event `e`: what terminates the bytes that were there or arrived is still
there, and no more micro-steps are left, fewer after a `Seq`. -/
structure AnswerGoesOn (e : Event) (s t : State) : Prop where
  answering : Answering t
  terminated : Terminated (s.rxStream ++ peerSends e s) → Terminated t.rxStream
  steps_le : Terminated s.rxStream → stepsLeft t ≤ stepsLeft s
  steps_lt : Terminated s.rxStream → e = .seq → stepsLeft t < stepsLeft s

theorem PassesBy.answerGoesOn (h : PassesBy e s t) (he : e ≠ .seq) (ha : Answering s) : AnswerGoesOn e s t := by
  refine ⟨?_, fun ht => by rwa [h.rxStream], fun ht => ?_, fun _ heq => absurd heq he⟩
  · rw [Answering, bytesLeft, receiving, h.seq, h.txSel, h.txPtr]
    exact ha
  · rw [stepsLeft, stepsLeft, h.seq, h.rxStream, ht.findIdx_append]

theorem not_terminated_nil : ¬ Terminated [] := by simp [Terminated]

theorem Terminated.of_cons {b : Byte} {rest : List Byte} (h : Terminated (b :: rest)) (hb : isTerminator b = false) :
    Terminated rest := by
  simpa [Terminated, hb] using h

theorem stepsLeft_of_receiving (hr : receiving s = true) : stepsLeft s = s.rxStream.findIdx isTerminator := by
  have hs : s.seq ≠ .tx := by rcases receiving_iff.mp hr with hs | hs <;> simp [hs]
  rw [stepsLeft, if_neg hs, Nat.zero_add]

/-- A micro-step that leaves of `rx_stream` what is behind a byte that ends no line. -/
theorem AnswerGoesOn.of_byte {b : Byte} {rest : List Byte} (hr : receiving s = true) (hst : s.rxStream = b :: rest)
    (hb : isTerminator b = false) (hrt : receiving t = true) (ht : t.rxStream = rest) : AnswerGoesOn .seq s t := by
  have hlt : stepsLeft t < stepsLeft s := by
    rw [stepsLeft_of_receiving hr, stepsLeft_of_receiving hrt, hst, ht, List.findIdx_cons, hb]
    exact Nat.lt_succ_self _
  refine ⟨.inr hrt, fun h => ?_, fun _ => hlt.le, fun _ _ => hlt⟩
  rw [ht]
  rw [hst, show peerSends .seq s = [] from rfl, List.append_nil] at h
  exact h.of_cons hb

/-- A receive without a byte holds. -/
theorem AnswerGoesOn.of_empty (hr : receiving s = true) (hst : s.rxStream = []) : AnswerGoesOn .seq s s := by
  refine ⟨.inr hr, fun h => ?_, fun _ => le_rfl, fun h => ?_⟩
  · rwa [show peerSends .seq s = [] from rfl, List.append_nil] at h
  · rw [hst] at h
    exact absurd h not_terminated_nil

/-- The micro-step at the 0x00 that starts the receive. -/
theorem AnswerGoesOn.of_receiveStart (hs : s.seq = .tx) (hrx : t.seq = .rx) (hst : t.rxStream = s.rxStream) :
    AnswerGoesOn .seq s t := by
  have hrt : receiving t = true := receiving_iff.mpr (.inl hrx)
  have hlt : stepsLeft t < stepsLeft s := by
    rw [stepsLeft_of_receiving hrt, hst, stepsLeft, if_pos hs]
    omega
  refine ⟨.inr hrt, fun h => ?_, fun _ => hlt.le, fun _ _ => hlt⟩
  rwa [hst, ← List.append_nil s.rxStream]

theorem BlockInv.fault_of_cap (hi : BlockInv s) (hcap : s.cfg.overflowPolicy = .capAndFlag) : s.fault = false :=
  Bool.eq_false_of_not_eq_true fun hf => by cases hcap.symm.trans (hi.control.fault_rx hf).1

/-- R212, R218 to R222: a `Seq` of such a command under `CAP_AND_FLAG`. -/
theorem seqEvent_of_answering (hi : BlockInv s) (hcap : s.cfg.overflowPolicy = .capAndFlag) (ha : Answering s)
    (h : seqEvent s = .next t) : t.seq = .idle ∨ AnswerGoesOn .seq s t := by
  have hf := hi.fault_of_cap hcap
  rcases ha with ⟨hs, hout⟩ | hr
  · have hp : s.txPtr.toNat = cmdLength s.txSel := le_antisymm hi.control.ptr_le (Nat.le_of_sub_eq_zero hout)
    exact (seqEvent_of_commandOut hi hs hf hp h).imp_right fun ⟨hrx, hst⟩ => .of_receiveStart hs hrx hst
  · cases hst : s.rxStream with
    | nil =>
      rw [seqEvent_of_empty (receiving_iff.mp hr) hst] at h
      cases h
      exact .inr (.of_empty hr hst)
    | cons b rest =>
      obtain ⟨u, hu, htakes⟩ := seqEvent_takes hr hf hi.buffer.idx_lt hst
      cases hu.symm.trans h
      cases htakes with
      | goesOn m i o hb hq => exact .inr (.of_byte hr hst hb (receiving_iff.mpr hq) rfl)
      | ends st m => exact .inl (recvEnd_seq ..)
      | overruns hp => cases hcap.symm.trans hp

/-- R226: a tick of such a command. -/
theorem tick1ms_of_answering (ha : Answering s) (h : tick1ms s = .next t) : t.seq = .idle ∨ PassesBy .tick1ms s t := by
  rcases tick1ms_cases h with rfl | ⟨hs, -⟩ | ⟨-, ⟨-, rfl⟩ | ⟨-, -, rfl⟩⟩
  · exact .inr (.refl rfl)
  · rcases ha with ⟨htx, -⟩ | hr
    · rcases hs with hs | hs <;> cases htx.symm.trans hs
    · rcases hs with hs | hs <;> simp [receiving, hs] at hr
  · exact .inr ⟨rfl, rfl, rfl, rfl, (List.append_nil _).symm⟩
  · exact .inl (recvEnd_seq ..)

theorem mem_of_mem_peerSends {bytes : List Byte} {b : Byte} (h : b ∈ peerSends (.line bytes) s) : b ∈ bytes := by
  rw [peerSends] at h
  split at h
  · cases h
  · exact h

/-- R234: a line that comes into a receive under `CAP_AND_FLAG` ends it, unless no byte of it or before it ends a line. -/
theorem receiveLine_of_answering {bytes : List Byte} (hi : BlockInv s) (hcap : s.cfg.overflowPolicy = .capAndFlag)
    (hr : receiving s = true) (h : receiveLine bytes s = .next t) :
    t.seq = .idle ∨ AnswerGoesOn (.line bytes) s t := by
  by_cases hterm : Terminated (s.rxStream ++ bytes)
  · obtain ⟨u, hu, hover⟩ := recvBurst_of_terminator (s := peerBytes bytes s) (hi.rxStream _) hr (hi.fault_of_cap hcap)
      List.length_append.le hterm
    cases hu.symm.trans h
    rcases hover.stopped with ⟨hidle, -⟩ | ⟨hp, -⟩
    · exact .inl hidle
    · cases hcap.symm.trans hp
  · have hno : ¬ Terminated s.rxStream := fun h => hterm (h.append_left bytes)
    have hgoes (hrt : receiving t = true) : AnswerGoesOn (.line bytes) s t := by
      refine ⟨.inr hrt, fun ⟨b, hb, ht⟩ => absurd ⟨b, ?_, ht⟩ hterm, fun h => absurd h hno, fun h => absurd h hno⟩
      exact List.mem_append.mpr ((List.mem_append.mp hb).imp_right mem_of_mem_peerSends)
    have hmove : seqMove (.line bytes) s.seq t.seq = true := (recvBurst_moves (s := peerBytes bytes s) h).1
    rcases seqMove_line_iff.mp hmove with hseq | ⟨-, hseq | hseq⟩ | ⟨-, hseq⟩
    · exact .inr (hgoes (by rwa [receiving, hseq]))
    · exact .inr (hgoes (receiving_iff.mpr (.inr hseq)))
    · exact .inl hseq
    · exact .inl hseq

theorem BusyStep.of_answering (h : BusyStep s t e) (hi : BlockInv s) (hcap : s.cfg.overflowPolicy = .capAndFlag)
    (ha : Answering s) : t.seq = .idle ∨ AnswerGoesOn e s t := by
  cases h with
  | seq h => exact seqEvent_of_answering hi hcap ha h
  | tick h => exact (tick1ms_of_answering ha h).imp_right fun h => h.answerGoesOn nofun ha
  | reset h => exact .inl h
  | passes hseq htick h => exact .inr (h.answerGoesOn hseq ha)
  | sends bytes hsend hlt ht =>
    rcases ha with ⟨-, hout⟩ | hr
    · exact absurd hlt (Nat.not_lt.mpr (Nat.le_of_sub_eq_zero hout))
    · simp [receiving, hsend.seq] at hr
  | receives bytes hr h => exact receiveLine_of_answering hi hcap hr h

end

section
variable {env : Nat → Event} {s : State}

theorem peerSends_lowered (e : Event) (s : State) : peerSends e (lowered s) = peerSends e s := by
  cases e with
  | refPeer =>
    have hrx : (refPeer (lowered s)).rxStream = (refPeer s).rxStream := by
      rw [refPeer, refPeer, lowered]
      split <;> rfl
    exact congrArg (List.drop s.rxStream.length) hrx
  | _ => rfl

theorem stateAfter_cfg (hi : BlockInv s) (k : Nat) : (stateAfter env s k).cfg = s.cfg := by
  induction k with
  | zero => rfl
  | succ k ih => exact (applyEvent_cfg (applyEvent_stateAfter hi k)).trans ih

theorem answer_stateAfter (hi : BlockInv s) (hcap : s.cfg.overflowPolicy = .capAndFlag) {n : Nat}
    (hn : Answering (stateAfter env s n)) : (stateAfter env s (n + 1)).seq = .idle ∨
      AnswerGoesOn (env n) (lowered (stateAfter env s n)) (stateAfter env s (n + 1)) := by
  have hbusy : (stateAfter env s n).seq ≠ .idle := by
    rcases hn with ⟨hs, -⟩ | hr
    · simp [hs]
    · rcases receiving_iff.mp hr with hs | hs <;> simp [hs]
  refine (busyStep_stateAfter hi hbusy).of_answering (hi.stateAfter n).lowered ?_ hn
  exact (congrArg Params.overflowPolicy (stateAfter_cfg hi n)).trans hcap

/-- While such a command has a terminator in `rx_stream`, its `Seq` is enabled. -/
theorem seqEnabled_of_terminated (hi : BlockInv s) (hcap : s.cfg.overflowPolicy = .capAndFlag) (ha : Answering s)
    (ht : Terminated s.rxStream) : seqEnabled s = true := by
  have hf := hi.fault_of_cap hcap
  rcases ha with ⟨hs, hout⟩ | hr
  · have hp : s.txPtr.toNat = cmdLength s.txSel := le_antisymm hi.control.ptr_le (Nat.le_of_sub_eq_zero hout)
    simp [seqEnabled, hf, hs, hp, cmdByte_cmdLength]
  · have hready : rxReady s = true := by
      obtain ⟨b, hb, -⟩ := ht
      simp [rxReady, List.ne_nil_of_mem hb]
    rcases receiving_iff.mp hr with hs | hs <;> simp [seqEnabled, hf, hs, hready]

/-- Under `FairSeq` such a command with a terminator in `rx_stream` ends. -/
theorem terminated_leads_to_idle (hi : BlockInv s) (hcap : s.cfg.overflowPolicy = .capAndFlag) (hfair : FairSeq env s)
    {n : Nat} (ha : Answering (stateAfter env s n)) (ht : Terminated (stateAfter env s n).rxStream) :
    ∃ k, (stateAfter env s k).seq = .idle := by
  have hcap' (k : Nat) : (stateAfter env s k).cfg.overflowPolicy = .capAndFlag := by rw [stateAfter_cfg hi, hcap]
  obtain ⟨k, -, hk⟩ := leads_to
    (P := fun n => Answering (stateAfter env s n) ∧ Terminated (stateAfter env s n).rxStream)
    (Q := fun n => (stateAfter env s n).seq = .idle) (μ := fun n => stepsLeft (stateAfter env s n))
    (fun n ⟨ha, ht⟩ => (answer_stateAfter hi hcap ha).imp_right fun h =>
      ⟨⟨h.answering, h.terminated (ht.append_left _)⟩, h.steps_le ht⟩)
    (fun n _ => (hfair n).imp fun m ⟨hnm, hm⟩ => ⟨hnm, fun ⟨ha, ht⟩ =>
      (answer_stateAfter hi hcap ha).imp_right fun h =>
        have hseq : env m = .seq := hm.resolve_right fun hoff => by
          rw [seqEnabled_of_terminated (hi.stateAfter m) (hcap' m) ha ht] at hoff
          cases hoff
        ⟨⟨h.answering, h.terminated (ht.append_left _)⟩, h.steps_lt ht hseq⟩⟩) ⟨ha, ht⟩
  exact ⟨k, hk⟩

/-- Under `FairSeq` a command whose line is out ends if the peer still sends a terminator. -/
theorem answered_leads_to_idle (hi : BlockInv s) (hcap : s.cfg.overflowPolicy = .capAndFlag) (hfair : FairSeq env s)
    {n m : Nat} (ha : Answering (stateAfter env s n)) (hnm : n ≤ m)
    (ht : Terminated (peerSends (env m) (stateAfter env s m))) : ∃ k, (stateAfter env s k).seq = .idle := by
  rcases reaches_or_keeps (P := fun n => Answering (stateAfter env s n)) (Q := fun n => (stateAfter env s n).seq = .idle)
    (μ := fun _ => 0) (fun n ha => (answer_stateAfter hi hcap ha).imp_right fun h => ⟨h.answering, le_rfl⟩) hnm ha with
    ⟨k, -, hk⟩ | ⟨ham, -⟩
  · exact ⟨k, hk⟩
  · rcases answer_stateAfter hi hcap ham with hk | h
    · exact ⟨_, hk⟩
    · refine terminated_leads_to_idle hi hcap hfair h.answering (h.terminated ?_)
      obtain ⟨b, hb, hterm⟩ := ht
      exact ⟨b, List.mem_append_right _ (by rwa [peerSends_lowered]), hterm⟩

/-! ## A command whose line is not yet out -/

/-- The line of the command has gone out with the last event before `n`. -/
def LineOutAt (env : Nat → Event) (s : State) (n : Nat) : Prop :=
  ∃ k, n = k + 1 ∧ commandSent (stateAfter env s k) (stateAfter env s n) ∧ Answering (stateAfter env s n)

/-- R212: with bytes still to go, an event resets the block, or completes the line, or leaves bytes to go. -/
theorem sending_stateAfter (hi : BlockInv s) {n : Nat}
    (hn : (stateAfter env s n).seq = .tx ∧ bytesLeft (stateAfter env s n) ≠ 0) :
    ((stateAfter env s (n + 1)).seq = .idle ∨ LineOutAt env s (n + 1)) ∨
      ((stateAfter env s (n + 1)).seq = .tx ∧ bytesLeft (stateAfter env s (n + 1)) ≠ 0) ∧ SendGoesOn env s n := by
  obtain ⟨htx, hleft⟩ := hn
  rcases send_stateAfter hi htx with (hidle | ⟨-, hout⟩) | hgoes
  · exact .inl (.inl hidle)
  · exact absurd hout hleft
  · obtain ⟨htx', hsel, -⟩ := id hgoes
    by_cases hout : bytesLeft (stateAfter env s (n + 1)) = 0
    · refine .inl (.inr ⟨n, rfl, ⟨htx, Nat.lt_of_sub_ne_zero hleft, ?_⟩, .inl ⟨htx', hout⟩⟩)
      rw [← hsel]
      exact le_antisymm (hi.stateAfter (n + 1)).control.ptr_le (Nat.le_of_sub_eq_zero hout)
    · exact .inr ⟨⟨htx', hout⟩, hgoes⟩

/-- R212: under `FairTx` the line of a command goes out, unless the block is reset. -/
theorem sending_leads_to_lineOut (hi : BlockInv s) (hfair : FairTx env s) (hs : s.seq = .tx)
    (hlt : s.txPtr.toNat < cmdLength s.txSel) : ∃ n, (stateAfter env s n).seq = .idle ∨ LineOutAt env s n := by
  obtain ⟨n, -, hn⟩ := leads_to (P := fun n => (stateAfter env s n).seq = .tx ∧ bytesLeft (stateAfter env s n) ≠ 0)
    (Q := fun n => (stateAfter env s n).seq = .idle ∨ LineOutAt env s n) (μ := fun n => bytesLeft (stateAfter env s n))
    (fun n hn => (sending_stateAfter hi hn).imp_right fun ⟨hn', _, _, hle, _⟩ => ⟨hn', hle⟩)
    (fun n hn => (hfair n hn.1).imp fun m ⟨hnm, hm⟩ => ⟨hnm, fun hsend =>
      (sending_stateAfter hi hsend).imp_right fun ⟨hsend', _, _, _, hlt⟩ =>
        have ⟨hready, hseq⟩ := hm.resolve_left fun hne => hne hsend.1
        ⟨hsend', hlt hseq hready⟩⟩) (n := 0) ⟨hs, Nat.sub_ne_zero_of_lt hlt⟩
  exact ⟨n, hn⟩

/-- Settles O60: a poll by the release and its settle ticks; a command by its line, the peer's answer to it and the
micro-steps over that answer. -/
theorem sessionsEndUnderFairness : Obligations.SessionsEndUnderFairness := by
  intro env s hi hseq
  refine ⟨fun hbtn htick => poll_leads_to_idle hi hseq hbtn htick, fun htx hpeer hcap hs hlt => ?_⟩
  obtain ⟨n, hidle | ⟨k, rfl, hsent, ha⟩⟩ := sending_leads_to_lineOut hi htx hs hlt
  · exact ⟨n, hidle⟩
  · obtain ⟨m, hkm, hterm⟩ := hpeer k hsent
    exact answered_leads_to_idle hi hcap hseq ha hkm hterm

end

end Sys2Proof.Machine
end
